-- ==== Sys2Proof/Word.lean ====
section
/-! DEFINITION. The words of the block and the names its operand fields stand for:
bytes, 16-bit responses, the 24-bit command word (30_encoding.md R80), the two pins
(10_state.md R22) and the eight numbered registers (10_state.md R36). -/

namespace Sys2Proof

/-- A buffer byte, a byte on a wire, an opcode. -/
abbrev Byte := BitVec 8

/-- An operand `imm`, a response, the raw temperature code. -/
abbrev Half := BitVec 16

/-- A command word: `opc` in bits 23:16, `imm` in bits 15:0 (R80). -/
abbrev Word := BitVec 24

/-- The two pins: `OW` = 0, `TX` = 1 (R22). -/
inductive Pin where
  | ow
  | tx
deriving DecidableEq, Repr

/-- The registers `GET_REG` names by the numbers 0 to 7, in that order (R36). -/
inductive Reg where
  | status
  | res
  | pres
  | crc
  | raw
  | sr
  | rx
  | seq
deriving DecidableEq, Repr

end Sys2Proof
end

