-- ==== Sys2Proof/Syntax.lean ====
section
/-! DEFINITION. The nineteen commands, one constructor per row of spec/opcode_table.json
(30_encoding.md R82), each with the operand fields of its format (R81). -/

namespace Sys2Proof

/-- A command. A one-bit field is a truth value or a level, true = 1 (R83). -/
inductive Instr where
  /-- `NOP` (R191) -/
  | nop
  /-- `GET_REG r` (R192) -/
  | getReg (r : Reg)
  /-- `SET_IE b` (R193) -/
  | setIe (b : Bool)
  /-- `LD_DIR p, v` (R111) -/
  | ldDir (p : Pin) (v : Bool)
  /-- `LD_WRITE p, v` (R112) -/
  | ldWrite (p : Pin) (v : Bool)
  /-- `LD_READ p` (R113) -/
  | ldRead (p : Pin)
  /-- `OW_RESET` (R123) -/
  | owReset
  /-- `OW_BIT b` (R128) -/
  | owBit (b : Bool)
  /-- `OW_BYTE d` (R132) -/
  | owByte (d : Byte)
  /-- `CRC_CLR` (R142) -/
  | crcClr
  /-- `CRC_BYTE d` (R143) -/
  | crcByte (d : Byte)
  /-- `CRC_CHK` (R146) -/
  | crcChk
  /-- `DS_READ` (R153) -/
  | dsRead
  /-- `DS_DECODE` (R159) -/
  | dsDecode
  /-- `SP_WR i, d` (R160); the field `i` has four bits, the buffer nine bytes -/
  | spWr (i : BitVec 4) (d : Byte)
  /-- `SP_RD i` (R161) -/
  | spRd (i : BitVec 4)
  /-- `TX_INIT` (R172) -/
  | txInit
  /-- `TX_BYTE d` (R175) -/
  | txByte (d : Byte)
  /-- `TX_DEC w`, `w` read as signed (R178) -/
  | txDec (w : Half)
deriving DecidableEq, Repr

end Sys2Proof
end

