-- ==== Sys2Proof/WellFormed.lean ====
section
/-! DEFINITION. Which commands are well formed: the one check that the operand fields' widths
do not already make is the buffer index (20_memory.md R51). -/

namespace Sys2Proof

/-- `SP` indices 0 to 8 are the only legal ones (R51, R92). -/
def indexOk (i : BitVec 4) : Bool := decide (i.toNat ≤ 8)

/-- A command is well formed when its index field, if it has one, names a byte of `SP` (R92). -/
def Instr.wf : Instr → Bool
  | .spWr i _ => indexOk i
  | .spRd i => indexOk i
  | .nop => true
  | .getReg _ => true
  | .setIe _ => true
  | .ldDir _ _ => true
  | .ldWrite _ _ => true
  | .ldRead _ => true
  | .owReset => true
  | .owBit _ => true
  | .owByte _ => true
  | .crcClr => true
  | .crcByte _ => true
  | .crcChk => true
  | .dsRead => true
  | .dsDecode => true
  | .txInit => true
  | .txByte _ => true
  | .txDec _ => true

end Sys2Proof
end

