-- ==== Sys2Proof/Decode.lean ====
section
/-! DEFINITION. The decoder, total on every 24-bit word and refusing by name (30_encoding.md
R80 to R83, R92, R93); the encoder, from the same tables; the pseudo-instructions (R97). -/

namespace Sys2Proof

/-- Why a word is malformed (R92). -/
inductive Malformed where
  /-- its `opc` is reserved (R93) -/
  | reservedOpcode
  /-- a bit of `imm` that its format leaves unnamed is 1 (R81) -/
  | reservedBits
  /-- its index field is greater than 8 (R51) -/
  | indexRange
deriving DecidableEq, Repr

/-- What a decoder says of a word: one of the nineteen commands, or malformed (R93). -/
inductive Decoded where
  | ok (i : Instr)
  | malformed (why : Malformed)
deriving DecidableEq, Repr

/-- The pin a one-bit field names: 0 = `OW`, 1 = `TX` (R81). -/
def pinOfBit (b : Bool) : Pin := if b then .tx else .ow

/-- The bit that names a pin. -/
def pinBit : Pin → Bool
  | .ow => false
  | .tx => true

/-- The register a three-bit field names (R36). -/
def regOfNum (r : BitVec 3) : Reg :=
  match r with
  | 0#3 => .status
  | 1#3 => .res
  | 2#3 => .pres
  | 3#3 => .crc
  | 4#3 => .raw
  | 5#3 => .sr
  | 6#3 => .rx
  | 7#3 => .seq

/-- The number of a register (R36). -/
def regNum : Reg → BitVec 3
  | .status => 0#3
  | .res => 1#3
  | .pres => 2#3
  | .crc => 3#3
  | .raw => 4#3
  | .sr => 5#3
  | .rx => 6#3
  | .seq => 7#3

/-- Every bit of `imm` under `reserved` is 0, or the word is malformed (R81, R92). -/
def unlessReserved (reserved imm : Half) (d : Decoded) : Decoded :=
  if imm &&& reserved = 0#16 then d else .malformed .reservedBits

/-- Format `N`: no field. -/
def formatN (imm : Half) (i : Instr) : Decoded := unlessReserved 0xFFFF#16 imm (.ok i)

/-- Format `B1`: `b = imm[0]`. -/
def formatB1 (imm : Half) (f : Bool → Instr) : Decoded :=
  unlessReserved 0xFFFE#16 imm (.ok (f (imm.getLsbD 0)))

/-- Format `B8`: `d = imm[7:0]`. -/
def formatB8 (imm : Half) (f : Byte → Instr) : Decoded :=
  unlessReserved 0xFF00#16 imm (.ok (f (imm.extractLsb' 0 8)))

/-- Format `P0`: `p = imm[8]`. -/
def formatP0 (imm : Half) (f : Pin → Instr) : Decoded :=
  unlessReserved 0xFEFF#16 imm (.ok (f (pinOfBit (imm.getLsbD 8))))

/-- Format `P1`: `p = imm[8]`, `v = imm[0]`. -/
def formatP1 (imm : Half) (f : Pin → Bool → Instr) : Decoded :=
  unlessReserved 0xFEFE#16 imm (.ok (f (pinOfBit (imm.getLsbD 8)) (imm.getLsbD 0)))

/-- A command with an index is malformed when the index exceeds 8 (R51, R92). -/
def checkIndex (i : BitVec 4) (d : Instr) : Decoded :=
  if indexOk i then .ok d else .malformed .indexRange

/-- Format `I0`: `i = imm[11:8]`. -/
def formatI0 (imm : Half) (f : BitVec 4 → Instr) : Decoded :=
  unlessReserved 0xF0FF#16 imm (checkIndex (imm.extractLsb' 8 4) (f (imm.extractLsb' 8 4)))

/-- Format `IX`: `i = imm[11:8]`, `d = imm[7:0]`. -/
def formatIX (imm : Half) (f : BitVec 4 → Byte → Instr) : Decoded :=
  unlessReserved 0xF000#16 imm
    (checkIndex (imm.extractLsb' 8 4) (f (imm.extractLsb' 8 4) (imm.extractLsb' 0 8)))

/-- Format `R`: `r = imm[2:0]`. -/
def formatR (imm : Half) (f : Reg → Instr) : Decoded :=
  unlessReserved 0xFFF8#16 imm (.ok (f (regOfNum (imm.extractLsb' 0 3))))

/-- Format `W16`: `w = imm[15:0]`; no bit is reserved. -/
def formatW16 (imm : Half) (f : Half → Instr) : Decoded := .ok (f imm)

/-- The opcode map (R82): the command an opcode and an operand stand for. -/
def decodeFields (opc : Byte) (imm : Half) : Decoded :=
  match opc.toNat with
  | 0x00 => formatN imm .nop
  | 0x01 => formatR imm .getReg
  | 0x02 => formatB1 imm .setIe
  | 0x10 => formatP1 imm .ldDir
  | 0x11 => formatP1 imm .ldWrite
  | 0x12 => formatP0 imm .ldRead
  | 0x20 => formatN imm .owReset
  | 0x21 => formatB1 imm .owBit
  | 0x22 => formatB8 imm .owByte
  | 0x30 => formatN imm .crcClr
  | 0x31 => formatB8 imm .crcByte
  | 0x32 => formatN imm .crcChk
  | 0x40 => formatN imm .dsRead
  | 0x41 => formatN imm .dsDecode
  | 0x42 => formatIX imm .spWr
  | 0x43 => formatI0 imm .spRd
  | 0x50 => formatN imm .txInit
  | 0x51 => formatB8 imm .txByte
  | 0x52 => formatW16 imm .txDec
  | _ => .malformed .reservedOpcode

/-- Decode a command word: `opc = cmd[23:16]`, `imm = cmd[15:0]` (R80). -/
def decode (w : Word) : Decoded := decodeFields (w.extractLsb' 16 8) (w.extractLsb' 0 16)

/-- `opc` of a command (R82). -/
def opcodeOf : Instr → Byte
  | .nop => 0x00#8
  | .getReg _ => 0x01#8
  | .setIe _ => 0x02#8
  | .ldDir _ _ => 0x10#8
  | .ldWrite _ _ => 0x11#8
  | .ldRead _ => 0x12#8
  | .owReset => 0x20#8
  | .owBit _ => 0x21#8
  | .owByte _ => 0x22#8
  | .crcClr => 0x30#8
  | .crcByte _ => 0x31#8
  | .crcChk => 0x32#8
  | .dsRead => 0x40#8
  | .dsDecode => 0x41#8
  | .spWr _ _ => 0x42#8
  | .spRd _ => 0x43#8
  | .txInit => 0x50#8
  | .txByte _ => 0x51#8
  | .txDec _ => 0x52#8

/-- `imm` of a command: its fields in their places, every reserved bit 0 (R81). -/
def operandOf : Instr → Half
  | .nop => 0#16
  | .getReg r => 0#13 ++ regNum r
  | .setIe b => 0#15 ++ BitVec.ofBool b
  | .ldDir p v => 0#7 ++ BitVec.ofBool (pinBit p) ++ 0#7 ++ BitVec.ofBool v
  | .ldWrite p v => 0#7 ++ BitVec.ofBool (pinBit p) ++ 0#7 ++ BitVec.ofBool v
  | .ldRead p => 0#7 ++ BitVec.ofBool (pinBit p) ++ 0#8
  | .owReset => 0#16
  | .owBit b => 0#15 ++ BitVec.ofBool b
  | .owByte d => 0#8 ++ d
  | .crcClr => 0#16
  | .crcByte d => 0#8 ++ d
  | .crcChk => 0#16
  | .dsRead => 0#16
  | .dsDecode => 0#16
  | .spWr i d => 0#4 ++ i ++ d
  | .spRd i => 0#4 ++ i ++ 0#8
  | .txInit => 0#16
  | .txByte d => 0#8 ++ d
  | .txDec w => w

/-- The word of a command, `opc << 16 | imm` (R96). -/
def encode (i : Instr) : Word := opcodeOf i ++ operandOf i

/-- The command the decoder reads from a table row's word: a command is one 24-bit word, bit `k`
of `w` is bit `k` of the command word, and bits at or above `nbits` are 0. -/
def decodeTableWord (nbits w : Nat) : Option Instr :=
  match decode (BitVec.ofNat 24 (w % 2 ^ nbits)) with
  | .ok i => some i
  | .malformed _ => none

/-- The pseudo-instructions of R97. -/
inductive Pseudo where
  | owWriteBit (b : Bool)
  | owReadBit
  | owWriteByte (d : Byte)
  | owReadByte
  | getStatus
  | txStr (text : List Byte)
  | txCrlf
deriving DecidableEq, Repr

/-- The commands a pseudo-instruction stands for, in order (R97). -/
def expand : Pseudo → List Instr
  | .owWriteBit b => [.owBit b]
  | .owReadBit => [.owBit true]
  | .owWriteByte d => [.owByte d]
  | .owReadByte => [.owByte 0xFF#8]
  | .getStatus => [.getReg .status]
  | .txStr text => text.map .txByte
  | .txCrlf => [.txByte 0x0D#8, .txByte 0x0A#8]

end Sys2Proof
end

