-- ==== Sys2Proof/Config.lean ====
section
/-! DEFINITION. The parameters of 00_scope.md R7 to R10, and the free values of the model.
A nominal value is fixed when the hardware is built (10_state.md R36). The OPEN parameters and the
rounding bias are a record that State carries, so that every statement holds for all of them
(log entry 7). A free value is a constant without a body (log entries 3, 4, 5). -/

namespace Sys2Proof

/-- The parameters a builder may choose: the three OPEN ones and `ROUND_BIAS` (R7, R8, R10). -/
structure Params where
  /-- `T_REC`: the least gap after a slot, in us; it is loaded into `DLY`, so it has 20 bits. -/
  tRec : BitVec 20
  /-- `RST2_ABORT`: whether a failed second reset ends `DS_READ`. -/
  rst2Abort : Bool
  /-- `DEC_CRLF`: whether the decimal helper appends CR LF. -/
  decCrlf : Bool
  /-- `ROUND_BIAS`: added to the raw code before the shift by 4. -/
  roundBias : Nat
deriving DecidableEq, Repr

/-- The defaults of 92_eei_decisions.md section 6. -/
def Params.default : Params :=
  { tRec := 0#20, rst2Abort := false, decCrlf := true, roundBias := 0x0F }

/-- `N_POLL`: samples in the pre-reset idle check (R7). -/
def Config.nPoll : Nat := 128
/-- `T_POLL`: spacing of those samples (R7). -/
def Config.tPoll : BitVec 20 := 1#20
/-- `T_RSTL`: reset low pulse (R7). -/
def Config.tRstl : BitVec 20 := 480#20
/-- `T_PDS`: release to presence sample (R7). -/
def Config.tPds : BitVec 20 := 70#20
/-- `T_PDH`: presence sample to return (R7). -/
def Config.tPdh : BitVec 20 := 410#20
/-- `T_SLOT`: bit slot length (R7). -/
def Config.tSlot : BitVec 20 := 60#20
/-- `T_REL`: slot start to release in a release-early slot (R7). -/
def Config.tRel : BitVec 20 := 2#20
/-- `T_SMP`: slot start to sample (R7). -/
def Config.tSmp : BitVec 20 := 15#20

/-- `CMD_SKIP_ROM` (R8, R85). -/
def Config.cmdSkipRom : Byte := 0xCC#8
/-- `CMD_CONVERT` (R8, R85). -/
def Config.cmdConvert : Byte := 0x44#8
/-- `CMD_READ_SP` (R8, R85). -/
def Config.cmdReadSp : Byte := 0xBE#8
/-- `SP_LEN`: scratchpad bytes (R8). -/
def Config.spLen : Nat := 9
/-- `T_CONV`: conversion wait (R8). -/
def Config.tConv : BitVec 20 := 750000#20
/-- `SENTINEL`: the error return (R8). -/
def Config.sentinel : Int := -273

/-- `CRC_POLY` (R9). -/
def Config.crcPoly : Byte := 0x8C#8
/-- `CRC_INIT` (R9). -/
def Config.crcInit : Byte := 0x00#8

/-- `BAUD` (R10). -/
def Config.baud : Nat := 9600
/-- `T_BIT = floor(1000000 / BAUD)` (R10). -/
def Config.tBit : BitVec 20 := BitVec.ofNat 20 (1000000 / Config.baud)
/-- `DECBUF_SIZE` (R10). -/
def Config.decbufSize : Nat := 9

/-- FREE VALUE: the level the environment answers to the `n`-th draw, at a sample of a pin the
block does not drive (20_memory.md R62; log entry 3). -/
opaque Config.envLevel : Pin → Nat → Bool

/-- FREE VALUE: whether a peer pulls `OW` low while the block drives it high (R73; log entry 5). -/
opaque Config.peerLow : Nat → Bool

/-- FREE VALUE: the jitter of the `n`-th draw, at a `wait` taken with `IE = 1` (R66; log entry 4). -/
opaque Config.jitter : Nat → Nat

/-- FREE VALUE: what a buffer byte that holds no value is taken as inside a procedure. No run reads
it: every command that could checks first and faults (10_state.md R42; log entry 2). -/
opaque Config.noByte : Nat → Byte

end Sys2Proof
end

