-- ==== Sys2Proof/Machine/State.lean ====
section
/-! DEFINITION. The state of the block (10_state.md), the run around it that a step reads and
extends (R40, 20_memory.md R60, R62, R64, R66), the reasons a step can stop, and the state after
reset (R41). -/

namespace Sys2Proof.Machine

/-- The Presence Result of a reset sequence (R28); the code 3 never occurs, so it has no name. -/
inductive Presence where
  | noDevice
  | present
  | busError
deriving DecidableEq, Repr

/-- What a pin shows the outside: released, driven low, driven high (R23). -/
inductive Out where
  | z
  | low
  | high
deriving DecidableEq, Repr

/-- One entry of the trace (20_memory.md R60 to R62). -/
inductive Event where
  /-- `(t, p, o)`: at `t` the output of pin `p` became `o`. -/
  | pin (t : Nat) (p : Pin) (o : Out)
  /-- `(t, sample, p, v)`; `env` tells an answer of the environment from the block's own level. -/
  | sample (t : Nat) (p : Pin) (v : Bool) (env : Bool)
deriving DecidableEq, Repr

/-- What the host sees on the ports `ie`, `busy` and `rsp_valid` with `rsp` (10_state.md R20). -/
inductive PortEvent where
  | ie (t : Nat) (v : Bool)
  | busy (t : Nat) (v : Bool)
  | rsp (t : Nat) (v : Half)
deriving DecidableEq, Repr

/-- The environment of the `OW` line (20_memory.md R62, R63), as data. -/
inductive Env where
  /-- No law: every answer is a free draw (R62). -/
  | free
  /-- Every answer is `v`: `ENV_NONE` is `level true`, `ENV_STUCK` is `level false` (R63 a, b). -/
  | level (v : Bool)
  /-- The next answer is `v`; `rest` answers after it. `ENV_SCRIPT` is a chain of these (R63 c). -/
  | answer (v : Bool) (rest : Env)
deriving DecidableEq, Repr

/-- A command the host offers: the word, and the instant from which it is offered (70 R234). -/
structure Offer where
  instant : Nat
  word : Word
deriving DecidableEq, Repr

/-- A buffer of the block: the bytes that hold a value, by index (10_state.md R37, R38, R42). -/
abbrev Memory := List Host.Cell

/-- The canonical form of a buffer: indexes strictly rising, each below nine (20_memory.md R51,
R52). Every listed byte holds a value, so no entry equals what an unlisted one reads as. -/
def Memory.wf : Memory → Bool
  | [] => true
  | [c] => decide (c.1 < 9)
  | c :: d :: m => decide (c.1 < d.1) && Memory.wf (d :: m)

/-- The state. -/
structure State where
  /-- `DIR[OW]`: true = output (R22). -/
  dirOw : Bool
  /-- `LAT[OW]` (R22). -/
  latOw : Bool
  /-- `DIR[TX]` (R22). -/
  dirTx : Bool
  /-- `LAT[TX]` (R22). -/
  latTx : Bool
  /-- `IE` (R25). -/
  ie : Bool
  /-- `IESAVE` (R26). -/
  iesave : Bool
  /-- `BUSY` (R27). -/
  busy : Bool
  /-- `PRES` (R28). -/
  pres : Presence
  /-- `CRCOK` (R29). -/
  crcok : Bool
  /-- `SER_INIT` (R30). -/
  serInit : Bool
  /-- `ERR` (R31). -/
  err : Bool
  /-- `OPC` (R32). -/
  opc : Byte
  /-- `ARG` (R32). -/
  arg : Half
  /-- `RES` (R32). -/
  res : Half
  /-- `SR` (R32). -/
  sr : Byte
  /-- `RX` (R32). -/
  rx : Byte
  /-- `CRC` (R32). -/
  crc : Byte
  /-- `RAW` (R32). -/
  raw : Half
  /-- `RETRY` (R33). -/
  retry : BitVec 8
  /-- `BITCNT` (R33). -/
  bitcnt : BitVec 4
  /-- `BYTECNT` (R33). -/
  bytecnt : BitVec 4
  /-- `DECPTR` (R33). -/
  decptr : BitVec 4
  /-- `DLY` (R33, R215). -/
  dly : BitVec 20
  /-- `SEQ` (R34). -/
  seq : BitVec 4
  /-- `SP[0..8]` (R37). -/
  sp : Memory
  /-- `DECBUF[0..8]` (R38). That it keeps its bytes from one command to the next is a DESIGN CHOICE
  (log entry 21). -/
  decbuf : Memory
  /-- Model time `now`, in us (R64). -/
  now : Nat
  /-- The trace, oldest entry first (R60). -/
  trace : List Event
  /-- What the output ports showed, oldest entry first (R20; log entry 10). -/
  ports : List PortEvent
  /-- How many free values have been drawn (log entry 3). -/
  draws : Nat
  /-- The environment of `OW` (R62, R63). -/
  env : Env
  /-- The next jitter draws, where a run fixes them; a free draw after them (R66). -/
  jitters : List Nat
  /-- The commands the host has yet to see accepted, in order (R234). -/
  offers : List Offer
  /-- The instants at which the host pulls `rst_n` low, in order (R20, R231). -/
  resets : List Nat
  /-- The OPEN parameters and the rounding bias (00_scope.md R7, R8, R10). -/
  params : Params
deriving DecidableEq, Repr

/-- Why the machine stops with a fault. -/
inductive Fault where
  /-- Raised by `SP_RD`, `CRC_CHK` and `DS_DECODE` on a byte of `SP` that nothing has written since
  reset: it holds no value (10_state.md R42, 93 U3). SAFE: the model stops where hardware would
  return some byte. -/
  | unwrittenByte (index : Nat)
  /-- Raised by `LD_READ OW` when the block drives `OW` high and a peer pulls it low: line level,
  sample and electrical outcome are undefined (20_memory.md R73, 93 U1). SAFE: the model stops. -/
  | contention
deriving DecidableEq, Repr

/-- Why an instruction has no meaning. -/
inductive Refusal where
  /-- Raised by an arm of `exec` whose instruction is not modelled yet; no arm does. SAFE. -/
  | notModelled (mnemonic : String)
deriving DecidableEq, Repr

/-- The machine right after reset (10_state.md R41, 70_reset_and_hazards.md R230), at the start of a
run: nothing offered, nothing recorded, a free environment, the default parameters. -/
def State.reset : State where
  dirOw := false
  latOw := false
  dirTx := false
  latTx := false
  ie := false
  iesave := false     -- DESIGN CHOICE (log entry 1): the spec says unspecified
  busy := false
  pres := .noDevice
  crcok := false
  serInit := false
  err := false
  opc := 0#8
  arg := 0#16
  res := 0#16
  sr := 0#8
  rx := 0#8
  crc := 0#8
  raw := 0#16
  retry := 0#8
  bitcnt := 0#4
  bytecnt := 0#4
  decptr := 0#4
  dly := 0#20
  seq := 0#4
  sp := []            -- no byte holds a value (R42; log entry 2)
  decbuf := []
  now := 0
  trace := []
  ports := []
  draws := 0
  env := .free
  jitters := []
  offers := []
  resets := []
  params := .default

end Sys2Proof.Machine
end

