-- ==== Sys2Proof/Machine/Ops.lean ====
section
/-! DEFINITION. The named operations every instruction is written over: buffers (10_state.md R37,
R38, R42), pins and samples (R22, R23, 20_memory.md R60 to R62, R73), time (R64 to R66), critical
sections (60_exceptions.md R205), responses (30_encoding.md R84, R92), the command handshake
(10_state.md R21) and reset (70_reset_and_hazards.md R230, R231). The block takes no exception
(60_exceptions.md R200): the one shared effect of a word it cannot carry out is `malformed`. -/

namespace Sys2Proof.Machine

/-! ### Buffers -/

/-- The byte at index `a`, if one has been written since reset (R42). -/
def readByte : Memory → Nat → Option Byte
  | [], _ => none
  | c :: m, a => if c.1 = a then some c.2 else readByte m a

/-- Write one byte, keeping the indexes strictly rising. -/
def writeByte : Memory → Nat → Byte → Memory
  | [], a, v => [(a, v)]
  | c :: m, a, v =>
    if a < c.1 then (a, v) :: c :: m
    else if c.1 = a then (a, v) :: m
    else c :: writeByte m a v

/-- The byte at index `a` inside a procedure that has written it, or whose command has checked that
it was written. -/
def byteAt (m : Memory) (a : Nat) : Byte := (readByte m a).getD (Config.noByte a)

/-- The first of the indexes `is` at which `m` holds no value (R42). -/
def firstUnwritten (m : Memory) : List Nat → Option Nat
  | [] => none
  | i :: is => if (readByte m i).isNone then some i else firstUnwritten m is

/-! ### Pins -/

/-- `DIR[p]`. -/
def State.dir (s : State) : Pin → Bool
  | .ow => s.dirOw
  | .tx => s.dirTx

/-- `LAT[p]`. -/
def State.lat (s : State) : Pin → Bool
  | .ow => s.latOw
  | .tx => s.latTx

/-- The output of a pin with direction `dir` and latch `lat` (R23). -/
def outOf (dir lat : Bool) : Out :=
  if dir then (if lat then .high else .low) else .z

/-- `out(p)` (R23). -/
def State.out (s : State) (p : Pin) : Out := outOf (s.dir p) (s.lat p)

/-- Record a pin event if `out(p)` is no longer `before` (R60). -/
def recordPin (p : Pin) (before : Out) (s : State) : State :=
  if s.out p = before then s else { s with trace := s.trace ++ [.pin s.now p (s.out p)] }

/-- `DIR[p] <- v` (R22, R60, R111). -/
def setDir (p : Pin) (v : Bool) (s : State) : State :=
  recordPin p (s.out p)
    (match p with
     | .ow => { s with dirOw := v }
     | .tx => { s with dirTx := v })

/-- `LAT[p] <- v` (R22, R60, R112). -/
def setLat (p : Pin) (v : Bool) (s : State) : State :=
  recordPin p (s.out p)
    (match p with
     | .ow => { s with latOw := v }
     | .tx => { s with latTx := v })

/-- The environment's answer to a sample of an undriven pin: for `OW` by its environment (R62, R63),
for `TX`, which R63 gives none, always a free draw. -/
def envAnswer (p : Pin) (s : State) : Bool × State :=
  match p with
  | .tx => (Config.envLevel .tx s.draws, { s with draws := s.draws + 1 })
  | .ow =>
    match s.env with
    | .free => (Config.envLevel .ow s.draws, { s with draws := s.draws + 1 })
    | .level v => (v, s)
    | .answer v rest => (v, { s with env := rest })

/-- Whether a peer pulls `OW` low while the block drives it high: never with no device on the line,
always on a line held low, otherwise a free draw (R63, R73). -/
def peerPullsLow (s : State) : Bool :=
  match s.env with
  | .level v => !v
  | .free => Config.peerLow s.draws
  | .answer _ _ => Config.peerLow s.draws

/-- Contention at a sample of `p` (R73). -/
def contended (p : Pin) (s : State) : Bool :=
  match p with
  | .tx => false
  | .ow => s.dirOw && s.latOw && peerPullsLow s

/-- `sample(p)`: the level, and the state with the sample recorded. A driven pin reads its latch
(R61; contention is `contended`'s, R73), an undriven one the environment (R62). -/
def sample (p : Pin) (s : State) : Bool × State :=
  if s.dir p then
    (s.lat p,
      { s with
        trace := s.trace ++ [.sample s.now p (s.lat p) false]
        draws := if s.lat p then s.draws + 1 else s.draws })
  else
    let r := envAnswer p s
    (r.1, { r.2 with trace := r.2.trace ++ [.sample s.now p r.1 true] })

/-! ### Time -/

/-- Load the delay generator (R215). -/
def loadDelay (d : BitVec 20) (s : State) : State := { s with dly := d }

/-- Let the delay run out: `DLY` counts to 0, one a microsecond, and `extra` microseconds of a host
interrupt handler fall into it (R66, R215). -/
def runDelay (extra : Nat) (s : State) : State :=
  { s with now := s.now + s.dly.toNat + extra, dly := 0#20 }

/-- `wait_ni(d)` (R65). -/
def waitNi (d : BitVec 20) (s : State) : State := runDelay 0 (loadDelay d s)

/-- A jitter draw: the run's next one, or a free one (R66). -/
def drawJitter (s : State) : Nat × State :=
  match s.jitters with
  | j :: rest => (j, { s with jitters := rest })
  | [] => (Config.jitter s.draws, { s with draws := s.draws + 1 })

/-- `wait(d)`: exact when `IE = 0`, longer by a draw when `IE = 1` (R66). -/
def wait (d : BitVec 20) (s : State) : State :=
  if s.ie then
    let j := drawJitter s
    runDelay j.1 (loadDelay d j.2)
  else waitNi d s

/-! ### The interrupt-enable flag -/

/-- `IE <- v`; the port `ie` follows it (R20, R25). -/
def writeIe (v : Bool) (s : State) : State :=
  { s with ie := v, ports := if s.ie = v then s.ports else s.ports ++ [.ie s.now v] }

/-- `crit_enter()` (R205). -/
def critEnter (s : State) : State := writeIe false { s with iesave := s.ie }

/-- `crit_exit()` (R205). -/
def critExit (s : State) : State := writeIe s.iesave s

/-! ### Responses -/

/-- A truth value or a level as a response, zero-extended (R84). -/
def bitResponse (b : Bool) : Half := if b then 1#16 else 0#16

/-- `RES <- v` (R84). -/
def respond (v : Half) (s : State) : State := { s with res := v }

/-- What a malformed command does, and all it does (R92). -/
def malformed (s : State) : State := { s with err := true, res := 0xFFFF#16 }

/-! ### The command handshake and reset -/

/-- The instant at which an offered command is accepted (R21, R64). -/
def acceptInstant (o : Offer) (s : State) : Nat := max s.now o.instant

/-- Acceptance: the word is latched whole, `BUSY <- 1`, the operation starts (R21). -/
def accept (o : Offer) (rest : List Offer) (s : State) : State :=
  { s with
    now := acceptInstant o s
    opc := o.word.extractLsb' 16 8
    arg := o.word.extractLsb' 0 16
    busy := true
    ports := s.ports ++ [.busy (acceptInstant o s) true]
    offers := rest }

/-- The end of an operation: `BUSY <- 0`, `rsp_valid` pulses with `RES` (R21). -/
def complete (s : State) : State :=
  { s with busy := false, ports := s.ports ++ [.busy s.now false, .rsp s.now s.res] }

/-- The pin events of a reset: each pin the block drives is released, both at one instant (R231). No
rule orders the two; that `OW` stands before `TX` is a DESIGN CHOICE (log entry 20). -/
def releases (s : State) : List Event :=
  (if s.out .ow = .z then [] else [.pin s.now .ow .z]) ++
  (if s.out .tx = .z then [] else [.pin s.now .tx .z])

/-- What the ports show of a reset: `ie` and `busy` fall if they were high; no response (R231). No
rule orders the two; that `ie` stands before `busy` is a DESIGN CHOICE (log entry 20). -/
def resetPorts (s : State) : List PortEvent :=
  (if s.ie then [.ie s.now false] else []) ++ (if s.busy then [.busy s.now false] else [])

/-- `rst_n` low at `now`: every piece of state of the block takes its reset value (R230); the run
around the block goes on. -/
def resetNow (s : State) : State :=
  { State.reset with
    now := s.now
    trace := s.trace ++ releases s
    ports := s.ports ++ resetPorts s
    draws := s.draws
    env := s.env
    jitters := s.jitters
    offers := s.offers
    resets := s.resets
    params := s.params }

/-- A reset between commands, at `u` or at once if `u` is past. -/
def idleReset (u : Nat) (rest : List Nat) (s : State) : State :=
  resetNow { s with now := max s.now u, resets := rest }

/-- The instant of a trace entry. -/
def Event.time : Event → Nat
  | .pin t _ _ => t
  | .sample t _ _ _ => t

/-- The instant of a port record. -/
def PortEvent.time : PortEvent → Nat
  | .ie t _ => t
  | .busy t _ => t
  | .rsp t _ => t

/-- The output of `p` after the entries `es`, if it was `o` before them (R60). -/
def outAfter (p : Pin) (o : Out) : List Event → Out
  | [] => o
  | .pin _ q x :: es => outAfter p (if q = p then x else o) es
  | .sample _ _ _ _ :: es => outAfter p o es

/-- The port `ie` after the records `es`, if it was `v` before them. -/
def ieAfter (v : Bool) : List PortEvent → Bool
  | [] => v
  | .ie _ x :: es => ieAfter x es
  | .busy _ _ :: es => ieAfter v es
  | .rsp _ _ :: es => ieAfter v es

/-- How many of the entries are answers of the environment of `OW`. -/
def owAnswers : List Event → Nat
  | [] => 0
  | .sample _ .ow _ true :: es => owAnswers es + 1
  | .sample _ .ow _ false :: es => owAnswers es
  | .sample _ .tx _ _ :: es => owAnswers es
  | .pin _ _ _ :: es => owAnswers es

/-- The environment after `n` answers. -/
def skipAnswers : Nat → Env → Env
  | 0, e => e
  | _ + 1, .free => .free
  | _ + 1, .level v => .level v
  | n + 1, .answer _ rest => skipAnswers n rest

/-- An operation that started in `s` and would have ended in `t`, as it stood at the instant `u`
inside it: what it had shown before `u`, and the pins and the port `ie` as that left them (R231;
log entry 12). -/
def cutAt (u : Nat) (s t : State) : State :=
  let shown := (t.trace.drop s.trace.length).filter (fun e => decide (e.time < u))
  let showed := (t.ports.drop s.ports.length).filter (fun e => decide (e.time < u))
  { t with
    now := u
    dirOw := decide (outAfter .ow (s.out .ow) shown ≠ .z)
    latOw := decide (outAfter .ow (s.out .ow) shown = .high)
    dirTx := decide (outAfter .tx (s.out .tx) shown ≠ .z)
    latTx := decide (outAfter .tx (s.out .tx) shown = .high)
    ie := ieAfter s.ie showed
    trace := s.trace ++ shown
    ports := s.ports ++ showed
    env := skipAnswers (owAnswers shown) s.env }

/-- The end of the step of an operation that started in `s` and ends in `t`: its response, or its
loss to a reset that falls before its end (R21, R231). -/
def settle (s t : State) : State :=
  match t.resets with
  | [] => complete t
  | u :: rest => if u < t.now then resetNow { cutAt u s t with resets := rest } else complete t

/-- What the block does next (log entry 8). -/
inductive Plan where
  | idle
  | reset (u : Nat) (rest : List Nat)
  | command (o : Offer) (rest : List Offer)
deriving DecidableEq, Repr

/-- The reset the host asks for, if it asks for one. -/
def planReset (s : State) : Plan :=
  match s.resets with
  | [] => .idle
  | u :: rest => .reset u rest

/-- A command is accepted only while `BUSY = 0` (R21), and after every reset that falls at or before
its acceptance; with nothing offered the block is idle (R41). -/
def plan (s : State) : Plan :=
  match s.offers with
  | [] => planReset s
  | o :: os =>
    if s.busy then planReset s
    else
      match s.resets with
      | [] => .command o os
      | u :: us => if u ≤ acceptInstant o s then .reset u us else .command o os

end Sys2Proof.Machine
end

