-- ==== Sys2Proof/Machine/Flags.lean ====
section
/-! DEFINITION. The flags as the host reads them: the codes of the Presence Result (10_state.md
R28, 30_encoding.md R98) and the `STATUS` view (10_state.md R35). -/

namespace Sys2Proof.Machine

/-- The two-bit code of a Presence Result (R28, R98). -/
def presCode : Presence → BitVec 2
  | .noDevice => 0#2
  | .present => 1#2
  | .busError => 2#2

/-- `STATUS`: bit 0 `IE`, 1 `SER_INIT`, 2 `CRCOK`, 4:3 `PRES`, 5 `ERR`, 6 `DIR_OW`, 7 `LAT_OW`,
8 `DIR_TX`, 9 `LAT_TX`, 15:10 zero (R35). -/
def status (s : State) : Half :=
  0#6 ++ BitVec.ofBool s.latTx ++ BitVec.ofBool s.dirTx ++ BitVec.ofBool s.latOw ++
    BitVec.ofBool s.dirOw ++ BitVec.ofBool s.err ++ presCode s.pres ++ BitVec.ofBool s.crcok ++
    BitVec.ofBool s.serInit ++ BitVec.ofBool s.ie

end Sys2Proof.Machine
end

