-- ==== Sys2Proof/Machine/Operands.lean ====
section
/-! DEFINITION. The operand forms that name state: register numbers (10_state.md R36), and the
result codes a response carries (30_encoding.md R84, R98). -/

namespace Sys2Proof.Machine

/-- The register `r`, zero-extended to 16 bits (R36). -/
def readReg (r : Reg) (s : State) : Half :=
  match r with
  | .status => status s
  | .res => s.res
  | .pres => 0#14 ++ presCode s.pres
  | .crc => 0#8 ++ s.crc
  | .raw => s.raw
  | .sr => 0#8 ++ s.sr
  | .rx => 0#8 ++ s.rx
  | .seq => 0#12 ++ s.seq

/-- A byte as a response, zero-extended (R84). -/
def byteResponse (b : Byte) : Half := 0#8 ++ b

/-- A Presence Result as a response (R98). -/
def presResponse (c : Presence) : Half := 0#14 ++ presCode c

/-- A signed result as a response, 16-bit two's complement (R84). -/
def intResponse (t : Int) : Half := BitVec.ofInt 16 t

end Sys2Proof.Machine
end

