-- ==== Sys2Proof/Machine/Crc.lean ====
section
/-! DEFINITION. The CRC8 checker and its commands (42_crc8.md). -/

namespace Sys2Proof.Machine

/-- One bit of `crc8_update`: shift `c`, then XOR the polynomial if the mixed bit was 1 (R141,
conflict C2). -/
def crcStep (c d : Byte) : Byte :=
  if (c.getLsbD 0 ^^ d.getLsbD 0) then (c >>> 1) ^^^ Config.crcPoly else c >>> 1

/-- `n` bits of `crc8_update`, least significant bit of `d` first (R141). -/
def crcBits : Nat → Byte → Byte → Byte
  | 0, c, _ => c
  | n + 1, c, d => crcBits n (crcStep c d) (d >>> 1)

/-- `crc8_update(c, d)` (R141). -/
def crc8Update (c d : Byte) : Byte := crcBits 8 c d

/-- The loop of `crc_check`, `n` bytes to go (R145). -/
def crcLoop : Nat → State → State
  | 0, s => s
  | n + 1, s =>
    crcLoop n
      { s with
        crc := crc8Update s.crc (byteAt s.sp s.bytecnt.toNat)
        bytecnt := s.bytecnt + 1#4 }

/-- `crc_check()`; the verdict is left in `CRCOK` (R145). -/
def crcCheck (s : State) : State :=
  let s1 := crcLoop 8 { s with crc := Config.crcInit, bytecnt := 0#4 }
  { s1 with crcok := decide (s1.crc = byteAt s1.sp 8) }

/-- `CRC_CLR` (R142). -/
def execCrcClr (s : State) : Host.Outcome State Fault Refusal :=
  .next (respond 0#16 { s with crc := Config.crcInit })

/-- `CRC_BYTE d` (R143). -/
def execCrcByte (d : Byte) (s : State) : Host.Outcome State Fault Refusal :=
  .next (respond (byteResponse (crc8Update s.crc d)) { s with crc := crc8Update s.crc d })

/-- `CRC_CHK` (R146); it reads all nine bytes, and a byte never written is a fault (R42). -/
def execCrcChk (s : State) : Host.Outcome State Fault Refusal :=
  match firstUnwritten s.sp (List.range Config.spLen) with
  | some i => .fault (.unwrittenByte i)
  | none => .next (respond (bitResponse (crcCheck s).crcok) (crcCheck s))

end Sys2Proof.Machine
end

