-- ==== Sys2Proof/Machine/OneWire.lean ====
section
/-! DEFINITION. The OneWire bus master: reset with presence detection, bit slot, byte transfer, and
the commands over them (41_onewire.md). -/

namespace Sys2Proof.Machine

/-- Phase A of a reset: at most `n` samples, `T_POLL` apart, the first at once; true when one reads
high, false when `RETRY` reaches 0 (R121, R122). -/
def idleCheck : Nat → State → Bool × State
  | 0, s => (false, s)
  | n + 1, s =>
    let r := sample .ow s
    if r.1 then (true, r.2)
    else
      let s1 := { r.2 with retry := r.2.retry - 1#8 }
      if s1.retry = 0#8 then (false, s1) else idleCheck n (wait Config.tPoll s1)

/-- Phase B up to the presence sample: the reset pulse and the sample `T_PDS` after the release, one
critical section (R122). -/
def resetPulse (s : State) : Bool × State :=
  let s1 := setDir .ow true (setLat .ow false (critEnter s))
  let s2 := setDir .ow false (waitNi Config.tRstl s1)
  let r := sample .ow (waitNi Config.tPds s2)
  (r.1, critExit r.2)

/-- `ow_reset()`; the Presence Result is left in `PRES` (R122). -/
def owReset (s : State) : State :=
  let s1 := setDir .ow false (setLat .ow false s)
  let r := idleCheck Config.nPoll { s1 with retry := BitVec.ofNat 8 Config.nPoll }
  if r.1 then
    let q := resetPulse r.2
    { wait Config.tPdh q.2 with pres := if q.1 then .noDevice else .present }
  else { r.2 with pres := .busError }

/-- The part of a slot up to the sample: release early for a 1, hold low for a 0 (R127). -/
def slotOpen (b : Bool) (s : State) : State :=
  let s1 := setDir .ow true (setLat .ow false (critEnter s))
  if b then waitNi (Config.tSmp - Config.tRel) (setDir .ow false (waitNi Config.tRel s1))
  else waitNi Config.tSmp s1

/-- `ow_bit(b)`: the sampled bit and the state after the slot and its gap (R127). -/
def owBit (b : Bool) (s : State) : Bool × State :=
  let r := sample .ow (slotOpen b s)
  let s1 := setDir .ow false (waitNi (Config.tSlot - Config.tSmp) r.2)
  (r.1, wait s.params.tRec (critExit s1))

/-- `RX[k] <- v`. -/
def putBit (x : Byte) (k : Nat) (v : Bool) : Byte :=
  (x &&& ~~~(1#8 <<< k)) ||| (if v then 1#8 <<< k else 0#8)

/-- The loop of `ow_byte`, `n` bits to go (R131). -/
def owBits : Nat → State → State
  | 0, s => s
  | n + 1, s =>
    let r := owBit (s.sr.getLsbD 0) s
    owBits n
      { r.2 with
        rx := putBit r.2.rx r.2.bitcnt.toNat r.1
        sr := r.2.sr >>> 1
        bitcnt := r.2.bitcnt + 1#4 }

/-- `ow_byte(d)`; the byte read is left in `RX` (R131). -/
def owByte (d : Byte) (s : State) : State :=
  owBits 8 { s with sr := d, rx := 0#8, bitcnt := 0#4 }

/-- `OW_RESET` (R123). -/
def execOwReset (s : State) : Host.Outcome State Fault Refusal :=
  .next (respond (presResponse (owReset s).pres) (owReset s))

/-- `OW_BIT b` (R128). -/
def execOwBit (b : Bool) (s : State) : Host.Outcome State Fault Refusal :=
  .next (respond (bitResponse (owBit b s).1) (owBit b s).2)

/-- `OW_BYTE d` (R132). -/
def execOwByte (d : Byte) (s : State) : Host.Outcome State Fault Refusal :=
  .next (respond (byteResponse (owByte d s).rx) (owByte d s))

end Sys2Proof.Machine
end

