-- ==== Sys2Proof/Machine/Ds18b20.lean ====
section
/-! DEFINITION. The DS18B20 command sequencer: the step table, the decode of the raw code, and the
commands over them and over the scratchpad buffer (43_ds18b20.md). -/

namespace Sys2Proof.Machine

/-- Whole degrees from a raw code: `(s + ROUND_BIAS) >>a 4` on the exact integers (R158). -/
def celsius (bias : Nat) (raw : Half) : Int := (raw.toInt + (bias : Int)) / 16

/-- `decode_raw()`, its write of `RAW`: little-endian (R54, R158). -/
def decodeRaw (s : State) : State := { s with raw := byteAt s.sp 1 ++ byteAt s.sp 0 }

/-- What one step of the sequencer ends in: the next step, or the end with a value (R151). -/
inductive SeqStep where
  | goto (s : State)
  | done (s : State) (t : Int)

/-- The sequencer goes to step `n`. -/
def gotoStep (n : BitVec 4) (s : State) : SeqStep := .goto { s with seq := n }

/-- Step 8: one byte of the scratchpad (R151, R152). -/
def readScratchByte (s : State) : State :=
  let r := owByte 0xFF#8 s
  { r with sp := writeByte r.sp r.bytecnt.toNat r.rx, bytecnt := r.bytecnt + 1#4 }

/-- One row of the step table, the row `SEQ` names (R151). Values outside 1 to 11 never occur during
`DS_READ` (R34). -/
def dsStep (s : State) : SeqStep :=
  match s.seq.toNat with
  | 1 =>
    let r := owReset s
    if r.pres = .present then gotoStep 2#4 r else .done r Config.sentinel
  | 2 => gotoStep 3#4 (owByte Config.cmdSkipRom s)
  | 3 => gotoStep 4#4 (owByte Config.cmdConvert s)
  | 4 => gotoStep 5#4 (wait Config.tConv s)
  | 5 =>
    let r := owReset s
    if r.params.rst2Abort && decide (r.pres ≠ .present) then .done r Config.sentinel
    else gotoStep 6#4 r
  | 6 => gotoStep 7#4 (owByte Config.cmdSkipRom s)
  | 7 => gotoStep 8#4 { owByte Config.cmdReadSp s with bytecnt := 0#4 }
  | 8 =>
    let r := readScratchByte s
    gotoStep (if r.bytecnt = 9#4 then 9#4 else 8#4) r
  | 9 => gotoStep 10#4 (owReset s)
  | 10 =>
    let r := crcCheck s
    if r.crcok then gotoStep 11#4 r else .done r Config.sentinel
  | 11 =>
    let r := decodeRaw s
    .done r (celsius r.params.roundBias r.raw)
  | _ => .done s Config.sentinel

/-- Run the step table until it ends, at most `n` steps. -/
def dsRun : Nat → State → State × Int
  | 0, s => (s, Config.sentinel)
  | n + 1, s =>
    match dsStep s with
    | .goto r => dsRun n r
    | .done r t => (r, t)

/-- Eleven steps, of which step 8 runs nine times (R151, R152). -/
def dsSteps : Nat := 10 + Config.spLen

/-- `DS_READ` as a procedure: `SEQ <- 1`, the step table, `SEQ <- 0`, `RES` (R153). -/
def dsRead (s : State) : State :=
  let r := dsRun dsSteps { s with seq := 1#4 }
  respond (intResponse r.2) { r.1 with seq := 0#4 }

/-- `DS_READ` (R153). -/
def execDsRead (s : State) : Host.Outcome State Fault Refusal := .next (dsRead s)

/-- `DS_DECODE` (R159); a byte never written is a fault (R42). -/
def execDsDecode (s : State) : Host.Outcome State Fault Refusal :=
  match firstUnwritten s.sp [0, 1] with
  | some i => .fault (.unwrittenByte i)
  | none =>
    .next (respond (intResponse (celsius s.params.roundBias (decodeRaw s).raw)) (decodeRaw s))

/-- `SP_WR i, d` (R160); an index above 8 is malformed and writes nothing (R92). -/
def execSpWr (i : BitVec 4) (d : Byte) (s : State) : Host.Outcome State Fault Refusal :=
  if indexOk i then .next (respond 0#16 { s with sp := writeByte s.sp i.toNat d })
  else .next (malformed s)

/-- `SP_RD i` (R161); an index above 8 is malformed (R92), a byte never written a fault (R42). -/
def execSpRd (i : BitVec 4) (s : State) : Host.Outcome State Fault Refusal :=
  if indexOk i then
    match readByte s.sp i.toNat with
    | some d => .next (respond (byteResponse d) s)
    | none => .fault (.unwrittenByte i.toNat)
  else .next (malformed s)

end Sys2Proof.Machine
end

