-- ==== Sys2Proof/Machine/LineDriver.lean ====
section
/-! DEFINITION. The line driver commands `LD_DIR`, `LD_WRITE`, `LD_READ` (40_line_driver.md). -/

namespace Sys2Proof.Machine

/-- `LD_DIR p, v` (R111). -/
def execLdDir (p : Pin) (v : Bool) (s : State) : Host.Outcome State Fault Refusal :=
  .next (respond 0#16 (setDir p v s))

/-- `LD_WRITE p, v` (R112). -/
def execLdWrite (p : Pin) (v : Bool) (s : State) : Host.Outcome State Fault Refusal :=
  .next (respond 0#16 (setLat p v s))

/-- `LD_READ p` (R113); in contention the sample has no value (20_memory.md R73, log entry 5). -/
def execLdRead (p : Pin) (s : State) : Host.Outcome State Fault Refusal :=
  if contended p s then .fault .contention
  else .next (respond (bitResponse (sample p s).1) (sample p s).2)

end Sys2Proof.Machine
end

