-- ==== Sys2Proof/Machine/Serial.lean ====
section
/-! DEFINITION. The software serial transmitter: initialisation, one frame, the decimal helper, and
the commands over them (44_serial.md). -/

namespace Sys2Proof.Machine

/-- `tx_init()`: check and set; the latch first (R171). -/
def txInit (s : State) : State :=
  if s.serInit then s else { setDir .tx true (setLat .tx true s) with serInit := true }

/-- One bit slot of a frame: a level held for one bit time (R174). -/
def txSlot (v : Bool) (s : State) : State := waitNi Config.tBit (setLat .tx v s)

/-- The data bits of a frame, `n` to go (R174). -/
def txBits : Nat → State → State
  | 0, s => s
  | n + 1, s =>
    let s1 := txSlot (s.sr.getLsbD 0) s
    txBits n { s1 with sr := s1.sr >>> 1, bitcnt := s1.bitcnt + 1#4 }

/-- `tx_byte(d)`: start bit, eight data bits, stop bit, one critical section (R174). -/
def txByte (d : Byte) (s : State) : State :=
  let s1 := txSlot false { critEnter (txInit s) with sr := d }
  let s2 := txSlot true (txBits 8 { s1 with bitcnt := 0#4 })
  wait 0#20 (critExit s2)

/-- `DECPTR <- DECPTR - 1; DECBUF[DECPTR] <- c` (R178). That the byte outlives the command, and the
other bytes of `DECBUF` stay, is a DESIGN CHOICE (log entry 21). -/
def pushDec (c : Byte) (s : State) : State :=
  let p := s.decptr - 1#4
  { s with decptr := p, decbuf := writeByte s.decbuf p.toNat c }

/-- The digit loop: at most `n` digits of the magnitude `m`, least significant first (R178, R179). -/
def pushDigits : Nat → Nat → State → State
  | 0, _, s => s
  | n + 1, m, s =>
    if m = 0 then s else pushDigits n (m / 10) (pushDec (BitVec.ofNat 8 (0x30 + m % 10)) s)

/-- The magnitude of `w`, as unsigned (R178). -/
def magnitude (w : Half) : Nat := if w.msb then 65536 - w.toNat else w.toNat

/-- The fill of `DECBUF`, from its end backward (R178). A magnitude has at most five digits. -/
def fillDec (w : Half) (s : State) : State :=
  let s1 := { s with decptr := BitVec.ofNat 4 Config.decbufSize }
  let s2 := if s1.params.decCrlf then pushDec 0x0D#8 (pushDec 0x0A#8 s1) else s1
  if w = 0#16 then pushDec 0x30#8 s2
  else
    let s3 := pushDigits 5 (magnitude w) s2
    if w.msb then pushDec 0x2D#8 s3 else s3

/-- The send loop: at most `n` bytes from `DECPTR` on (R178). -/
def sendDec : Nat → State → State
  | 0, s => s
  | n + 1, s =>
    if s.decptr.toNat < Config.decbufSize then
      let s1 := txByte (byteAt s.decbuf s.decptr.toNat) s
      sendDec n { s1 with decptr := s1.decptr + 1#4 }
    else s

/-- How many bytes the fill leaves to send (R178). -/
def decCount (s : State) : Nat := Config.decbufSize - s.decptr.toNat

/-- `TX_INIT` (R172). -/
def execTxInit (s : State) : Host.Outcome State Fault Refusal := .next (respond 0#16 (txInit s))

/-- `TX_BYTE d` (R175). -/
def execTxByte (d : Byte) (s : State) : Host.Outcome State Fault Refusal :=
  .next (respond 0#16 (txByte d s))

/-- `TX_DEC w` (R178). -/
def execTxDec (w : Half) (s : State) : Host.Outcome State Fault Refusal :=
  let s1 := fillDec w s
  .next (respond (BitVec.ofNat 16 (decCount s1)) (sendDec (decCount s1) s1))

end Sys2Proof.Machine
end

