-- ==== Sys2Proof/Machine/System.lean ====
section
/-! DEFINITION. The system commands `NOP`, `GET_REG`, `SET_IE` (45_system.md). -/

namespace Sys2Proof.Machine

/-- `NOP` (R191). -/
def execNop (s : State) : Host.Outcome State Fault Refusal := .next (respond 0#16 s)

/-- `GET_REG r`: the register is read before `RES` is written (R192). -/
def execGetReg (r : Reg) (s : State) : Host.Outcome State Fault Refusal :=
  .next (respond (readReg r s) s)

/-- `SET_IE b`: the response is the old value (R193). -/
def execSetIe (b : Bool) (s : State) : Host.Outcome State Fault Refusal :=
  .next (respond (bitResponse s.ie) (writeIe b s))

end Sys2Proof.Machine
end

