-- ==== Sys2Proof/Machine/Dispatch.lean ====
section
/-! DEFINITION. The one match from a command to its meaning, an arm per constructor of Instr. -/

namespace Sys2Proof.Machine

-- The operation of each command (30_encoding.md R82).
def exec (i : Instr) (s : State) : Host.Outcome State Fault Refusal :=
  match i with
  | .nop => Sys2Proof.Machine.execNop s
  | .getReg r => Sys2Proof.Machine.execGetReg r s
  | .setIe b => Sys2Proof.Machine.execSetIe b s
  | .ldDir p v => Sys2Proof.Machine.execLdDir p v s
  | .ldWrite p v => Sys2Proof.Machine.execLdWrite p v s
  | .ldRead p => Sys2Proof.Machine.execLdRead p s
  | .owReset => Sys2Proof.Machine.execOwReset s
  | .owBit b => Sys2Proof.Machine.execOwBit b s
  | .owByte d => Sys2Proof.Machine.execOwByte d s
  | .crcClr => Sys2Proof.Machine.execCrcClr s
  | .crcByte d => Sys2Proof.Machine.execCrcByte d s
  | .crcChk => Sys2Proof.Machine.execCrcChk s
  | .dsRead => Sys2Proof.Machine.execDsRead s
  | .dsDecode => Sys2Proof.Machine.execDsDecode s
  | .spWr k d => Sys2Proof.Machine.execSpWr k d s
  | .spRd k => Sys2Proof.Machine.execSpRd k s
  | .txInit => Sys2Proof.Machine.execTxInit s
  | .txByte d => Sys2Proof.Machine.execTxByte d s
  | .txDec w => Sys2Proof.Machine.execTxDec w s

end Sys2Proof.Machine
end

