-- ==== Sys2Proof/Machine/Step.lean ====
section
/-! DEFINITION. One step: the command the host offers, from its acceptance to its response
(10_state.md R21), or a reset (70_reset_and_hazards.md R230, R231), or nothing. -/

namespace Sys2Proof.Machine

/-- The operation of the word latched in `OPC` and `ARG`: a command's meaning, or the effect of a
malformed word (30_encoding.md R92, R93). -/
def runLatched (s : State) : Host.Outcome State Fault Refusal :=
  match decodeFields s.opc s.arg with
  | .ok i => exec i s
  | .malformed _ => .next (malformed s)

/-- One step. -/
def step (s : State) : Host.Outcome State Fault Refusal :=
  match plan s with
  | .idle => .next s
  | .reset u rest => .next (idleReset u rest s)
  | .command o rest =>
    match runLatched (accept o rest s) with
    | .next t => .next (settle (accept o rest s) t)
    | .fault r => .fault r
    | .refused r => .refused r

/-- `s` with the command word `w` as the host's next offer, at once, to an idle block that no reset
is about to reach: the very next step accepts it and runs it (log entry 8). -/
def State.withFetchWord (s : State) (nbits w : Nat) : State :=
  { s with
    offers := { instant := s.now, word := BitVec.ofNat 24 (w % 2 ^ nbits) } :: s.offers
    busy := false
    resets := [] }

end Sys2Proof.Machine
end

