-- ==== Sys2Proof/Safety.lean ====
section
/-! DEFINITION. The terms claims about the machine are stated in: what a step must keep, what a
frame compares, the environments and texts a claim speaks of, levels on a line over time. Nothing
the machine does is defined here. -/

namespace Sys2Proof.Machine

/-! ### What every step keeps -/

/-- Trace entries stand in the order of their instants, none later than `now` (20_memory.md R60). -/
def TraceOrdered (s : State) : Prop :=
  (s.trace.map Event.time).Pairwise (· ≤ ·) ∧ ∀ e ∈ s.trace, e.time ≤ s.now

/-- Port records stand in the order of their instants, none later than `now`. -/
def PortsOrdered (s : State) : Prop :=
  (s.ports.map PortEvent.time).Pairwise (· ≤ ·) ∧ ∀ e ∈ s.ports, e.time ≤ s.now

/-- The invariant of the machine between steps: idle (00_scope.md section 7), no delay running
(R33, R215), both buffers in canonical form with indexes below nine (R51, R52), the trace ordered in
time and telling each pin's output (R23, R60), the record of port `ie` telling the flag (R20). -/
structure Inv (s : State) : Prop where
  notBusy : s.busy = false
  stepCounter : s.seq = 0#4
  noDelay : s.dly = 0#20
  scratchpad : s.sp.wf = true
  decimalBuffer : s.decbuf.wf = true
  traceOrdered : TraceOrdered s
  portsOrdered : PortsOrdered s
  traceTellsPins : ∀ p, outAfter p .z s.trace = s.out p
  portsTellIe : ieAfter false s.ports = s.ie

/-! ### Reset -/

/-- Every register at the value the table of 10_state.md R41 gives it, and no byte of either buffer
written; `IESAVE`, which the table leaves unspecified, is not named. -/
structure ResetValues (s : State) : Prop where
  dirOw : s.dirOw = false
  latOw : s.latOw = false
  dirTx : s.dirTx = false
  latTx : s.latTx = false
  ie : s.ie = false
  busy : s.busy = false
  pres : s.pres = .noDevice
  crcok : s.crcok = false
  serInit : s.serInit = false
  err : s.err = false
  opc : s.opc = 0#8
  arg : s.arg = 0#16
  res : s.res = 0#16
  sr : s.sr = 0#8
  rx : s.rx = 0#8
  crc : s.crc = 0#8
  raw : s.raw = 0#16
  retry : s.retry = 0#8
  bitcnt : s.bitcnt = 0#4
  bytecnt : s.bytecnt = 0#4
  decptr : s.decptr = 0#4
  dly : s.dly = 0#20
  seq : s.seq = 0#4
  sp : ∀ i, readByte s.sp i = none
  decbuf : ∀ i, readByte s.decbuf i = none

/-! ### Frames -/

/-- `t` with the run around the block (time, records, inputs used up) put back to what `s` has: a
frame compares the block's own state. -/
def withRunOf (s t : State) : State :=
  { t with
    now := s.now
    trace := s.trace
    ports := s.ports
    draws := s.draws
    env := s.env
    jitters := s.jitters }

/-! ### Environments -/

/-- `k` low answers, then `rest`. -/
def lowsThen : Nat → Env → Env
  | 0, rest => rest
  | k + 1, rest => .answer false (lowsThen k rest)

/-- The answers to the release-early slots among slots `k` to 7 of a byte `d`, the answer in slot
`j` being bit `j` of `e` (41_onewire.md R132). -/
def slotAnswersFrom (d e : Byte) (rest : Env) : Nat → Env
  | 0 => rest
  | n + 1 =>
    if d.getLsbD (7 - n) then .answer (e.getLsbD (7 - n)) (slotAnswersFrom d e rest n)
    else slotAnswersFrom d e rest n

/-- The answers to all eight slots of a byte `d`. -/
def slotAnswers (d e : Byte) (rest : Env) : Env := slotAnswersFrom d e rest 8

/-- The answers to one reset of a device that is there: idle line high, presence sample low. -/
def presenceAnswers (rest : Env) : Env := .answer true (.answer false rest)

/-- The answers to the read slots of the bytes `bs`, in order, least significant bit first (R87). -/
def readAnswers : List Byte → Env → Env
  | [], rest => rest
  | b :: bs, rest => slotAnswers 0xFF#8 b (readAnswers bs rest)

/-- A well-behaved DS18B20 (20_memory.md R63) over one whole `DS_READ`: it answers each reset, leaves
written ones alone, and sends the bytes `bs`. -/
def deviceAnswers (bs : List Byte) (rest : Env) : Env :=
  presenceAnswers (slotAnswers 0xCC#8 0xFF#8 (slotAnswers 0x44#8 0xFF#8
    (presenceAnswers (slotAnswers 0xCC#8 0xFF#8 (slotAnswers 0xBE#8 0xFF#8
      (readAnswers bs (presenceAnswers rest)))))))

/-! ### Lines over time -/

/-- The trace entries of a step from `s` to `t`. -/
def newTrace (s t : State) : List Event := t.trace.drop s.trace.length

/-- The output of `p` at the instant `τ`, if it was `o` before the entries `es` (R60). -/
def levelAt (p : Pin) (o : Out) (es : List Event) (τ : Nat) : Out :=
  outAfter p o (es.filter (fun e => decide (e.time ≤ τ)))

/-- A level as a driven output. -/
def driven (v : Bool) : Out := if v then .high else .low

/-- The level of slot `n` of the frame of `d`: start bit, eight data bits, stop bit (R90). -/
def frameLevel (d : Byte) (n : Nat) : Bool :=
  if n = 0 then false else if n ≤ 8 then d.getLsbD (n - 1) else true

/-- Whether an entry is a sample. -/
def Event.isSample : Event → Bool
  | .pin _ _ _ => false
  | .sample _ _ _ _ => true

/-- Whether an entry is an event of pin `p` or a sample of it. -/
def Event.on (p : Pin) : Event → Bool
  | .pin _ q _ => decide (q = p)
  | .sample _ q _ _ => decide (q = p)

/-! ### Bytes and texts -/

/-- The CRC8 of a byte sequence (42_crc8.md R144). -/
def crcOf (bs : List Byte) : Byte := bs.foldl crc8Update 0x00#8

/-- `m` holds the bytes `bs` from index 0 on. -/
def Holds (m : Memory) (bs : List Byte) : Prop :=
  ∀ i, i < bs.length → readByte m i = bs[i]?

/-- The decimal rendering of a signed 16-bit `w` (44_serial.md R177). -/
def decimalText (crlf : Bool) (w : Half) : List Byte :=
  (if w.toInt < 0 then [0x2D#8] else []) ++
  (if w = 0#16 then [0x30#8]
   else (Nat.digits 10 w.toInt.natAbs).reverse.map (fun k => BitVec.ofNat 8 (0x30 + k))) ++
  (if crlf then [0x0D#8, 0x0A#8] else [])

/-- The reserved bits of `imm` under the format of each opcode (30_encoding.md R81, R82); none where
the opcode is reserved (R93). -/
def reservedMask : Byte → Option Half
  | 0x00#8 | 0x20#8 | 0x30#8 | 0x32#8 | 0x40#8 | 0x41#8 | 0x50#8 => some 0xFFFF#16
  | 0x02#8 | 0x21#8 => some 0xFFFE#16
  | 0x22#8 | 0x31#8 | 0x51#8 => some 0xFF00#16
  | 0x12#8 => some 0xFEFF#16
  | 0x10#8 | 0x11#8 => some 0xFEFE#16
  | 0x43#8 => some 0xF0FF#16
  | 0x42#8 => some 0xF000#16
  | 0x01#8 => some 0xFFF8#16
  | 0x52#8 => some 0x0000#16
  | _ => none

/-- A word is malformed (R92): its opcode is reserved, a reserved bit is 1, or its index exceeds 8. -/
def IsMalformed (w : Word) : Prop :=
  match reservedMask (w.extractLsb' 16 8) with
  | none => True
  | some m =>
    w.extractLsb' 0 16 &&& m ≠ 0#16 ∨
    ((w.extractLsb' 16 8 = 0x42#8 ∨ w.extractLsb' 16 8 = 0x43#8) ∧ 8 < (w.extractLsb' 8 4).toNat)

end Sys2Proof.Machine
end

