-- ==== Sys2Proof/Certificates/Slice0/Obligations.lean ====
section
/-! DEFINITION. The statements about the machine, for the provers. Each docstring names the rules of
spec/ it states, or the sections it rests on. `{ t with f := s.f, … } = s` is a frame: `t` with the
fields named put back to what `s` has is `s`, so every field not named is unchanged. -/

open Sys2Proof Sys2Proof.Machine

/-! ### Encoding -/

/-- Sections 1 and 2 of 30_encoding.md: no bit of an encoding is dropped. -/
def Obligations.DecodeOfEncodeIsTheCommand : Prop :=
  ∀ i : Instr, i.wf = true → decode (encode i) = .ok i

/-- Sections 1 to 3 of 30_encoding.md: every word the decoder accepts is the one encoding of a
well-formed command. -/
def Obligations.DecodedWordIsItsEncoding : Prop :=
  ∀ (w : Word) (i : Instr), decode w = .ok i → i.wf = true ∧ encode i = w

/-- Words written out in 95_test_vectors.md section 2.7, one or more of every family. -/
def Obligations.WrittenOutWordsDecode : Prop :=
  decode 0x000000#24 = .ok .nop ∧ decode 0x010004#24 = .ok (.getReg .raw) ∧
  decode 0x020001#24 = .ok (.setIe true) ∧ decode 0x100101#24 = .ok (.ldDir .tx true) ∧
  decode 0x110000#24 = .ok (.ldWrite .ow false) ∧ decode 0x120100#24 = .ok (.ldRead .tx) ∧
  decode 0x200000#24 = .ok .owReset ∧ decode 0x2200BE#24 = .ok (.owByte 0xBE#8) ∧
  decode 0x31007F#24 = .ok (.crcByte 0x7F#8) ∧ decode 0x320000#24 = .ok .crcChk ∧
  decode 0x400000#24 = .ok .dsRead ∧ decode 0x420346#24 = .ok (.spWr 3#4 0x46#8) ∧
  decode 0x430800#24 = .ok (.spRd 8#4) ∧ decode 0x510041#24 = .ok (.txByte 0x41#8) ∧
  decode 0x52FEEF#24 = .ok (.txDec 0xFEEF#16)

/-- R97: the expansion of each pseudo-instruction. -/
def Obligations.PseudoInstructionsExpand : Prop :=
  (∀ b, expand (.owWriteBit b) = [.owBit b]) ∧ expand .owReadBit = [.owBit true] ∧
  (∀ d, expand (.owWriteByte d) = [.owByte d]) ∧ expand .owReadByte = [.owByte 0xFF#8] ∧
  expand .getStatus = [.getReg .status] ∧
  (∀ cs, expand (.txStr cs) = cs.map fun c => .txByte c) ∧
  expand .txCrlf = [.txByte 0x0D#8, .txByte 0x0A#8]

/-! ### The step -/

/-- R21: the command handshake. `a` is the state at acceptance; no reset falls before it, and none
before the end of the operation. A reset that falls at the end or later comes after the response and
stays asked for, which is the model's choice at the very instant of the end (log entry 12). -/
def Obligations.StepRunsTheDecodedCommand : Prop :=
  ∀ (s : State) (o : Offer) (rest : List Offer) (i : Instr),
    s.offers = o :: rest → decode o.word = .ok i →
    let a : State :=
      { s with
        now := max s.now o.instant, opc := o.word.extractLsb' 16 8
        arg := o.word.extractLsb' 0 16, busy := true
        ports := s.ports ++ [.busy (max s.now o.instant) true], offers := rest }
    (s.busy = true → s.resets = [] → step s = .next s) ∧
    (s.busy = false → (∀ u ∈ s.resets.head?, max s.now o.instant < u) →
      (∀ t, exec i a = .next t → (∀ u ∈ s.resets.head?, t.now ≤ u) →
        t.resets = s.resets ∧
        step s = .next
          { t with busy := false, ports := t.ports ++ [.busy t.now false, .rsp t.now t.res] }) ∧
      (∀ r, exec i a = .fault r → step s = .fault r) ∧
      (∀ r, exec i a = .refused r → step s = .refused r))

/-- R92: which words are malformed, and all that a malformed command does once accepted. -/
def Obligations.MalformedCommandSetsErrAndNothingElse : Prop :=
  (∀ w : Word, (∃ why, decode w = .malformed why) ↔ IsMalformed w) ∧
  ∀ (s : State) (o : Offer) (rest : List Offer),
    s.offers = o :: rest → s.resets = [] → s.busy = false → IsMalformed o.word →
    let n := max s.now o.instant
    step s = .next
      { s with
        err := true, res := 0xFFFF#16
        now := n, opc := o.word.extractLsb' 16 8, arg := o.word.extractLsb' 0 16, offers := rest
        ports := s.ports ++ [.busy n true, .busy n false, .rsp n 0xFFFF#16] }

/-- 10_state.md section 9: the block does nothing until the host issues a command. -/
def Obligations.IdleBlockStaysAsItIs : Prop :=
  ∀ s : State, s.offers = [] → s.resets = [] → step s = .next s

/-- R230: what a reset leaves, at power-up and when the host pulls `rst_n` low between commands. The
pins driven before it are released. The model's choices: a reset at the very instant of the next
acceptance comes first and leaves the offer in place (log entry 12), and `OW` is released before `TX`
in the trace of that one instant (log entry 20). -/
def Obligations.ResetGivesEveryRegisterItsValue : Prop :=
  ResetValues State.reset ∧
  ∀ (s : State) (u : Nat) (us : List Nat),
    s.resets = u :: us → (∀ o ∈ s.offers.head?, u ≤ max s.now o.instant) →
    ∃ t, step s = .next t ∧ ResetValues t ∧ t.now = max s.now u ∧ t.resets = us ∧
      t.offers = s.offers ∧ t.params = s.params ∧
      t.trace = s.trace ++
        ((if s.dirOw then [.pin t.now .ow .z] else []) ++
         (if s.dirTx then [.pin t.now .tx .z] else []))

/-- R230, R231: a reset inside an operation abandons it: every register at its reset value, no
response, both pins released at that instant, the waveform cut short there. Which entries of that very
instant are shown is the model's choice (log entry 12). -/
def Obligations.ResetInsideAnOperationAbandonsIt : Prop :=
  ∀ (s t : State) (o : Offer) (rest : List Offer) (u : Nat) (us : List Nat) (i : Instr),
    s.offers = o :: rest → s.resets = u :: us → s.busy = false → decode o.word = .ok i →
    exec i (accept o rest s) = .next t → max s.now o.instant < u → u < t.now →
    ∃ r, step s = .next r ∧ ResetValues r ∧ r.now = u ∧
      r.out .ow = .z ∧ r.out .tx = .z ∧ r.offers = rest ∧ r.resets = us ∧ r.params = s.params ∧
      (∀ n v, PortEvent.rsp n v ∈ r.ports → PortEvent.rsp n v ∈ s.ports) ∧
      s.trace <+: r.trace ∧
      (∀ e ∈ newTrace s r, e.time ≤ u) ∧
      (∀ e ∈ newTrace s t, e.time < u → e ∈ newTrace s r)

/-! ### System commands -/

/-- R191. -/
def Obligations.NopOnlyAnswersZero : Prop :=
  (∀ imm : Half, decode (0x00#8 ++ imm) =
    if imm = 0#16 then .ok .nop else .malformed .reservedBits) ∧
  ∀ s : State, exec .nop s = .next { s with res := 0#16 }

/-- R36, R192: the eight register numbers and what each reads. Number 7 reads 0 between commands (R34,
an inference of the spec); that a read changes `RES` alone is the model's reading, against R93 (log
entry 19). -/
def Obligations.GetRegAnswersTheNumberedRegister : Prop :=
  (∀ imm : Half, decode (0x01#8 ++ imm) =
    if imm &&& 0xFFF8#16 = 0#16 then
      .ok (.getReg
        (match (imm.extractLsb' 0 3).toNat with
         | 0 => .status
         | 1 => .res
         | 2 => .pres
         | 3 => .crc
         | 4 => .raw
         | 5 => .sr
         | 6 => .rx
         | _ => .seq))
    else .malformed .reservedBits) ∧
  (∀ s : State, Inv s → ∃ t, exec (.getReg .seq) s = .next t ∧ t.res = 0#16) ∧
  ∀ s : State,
    exec (.getReg .status) s = .next { s with res := status s } ∧
    exec (.getReg .res) s = .next s ∧
    exec (.getReg .pres) s = .next
      { s with
        res := match s.pres with
          | .noDevice => 0#16
          | .present => 1#16
          | .busError => 2#16 } ∧
    exec (.getReg .crc) s = .next { s with res := s.crc.setWidth 16 } ∧
    exec (.getReg .raw) s = .next { s with res := s.raw } ∧
    exec (.getReg .sr) s = .next { s with res := s.sr.setWidth 16 } ∧
    exec (.getReg .rx) s = .next { s with res := s.rx.setWidth 16 } ∧
    exec (.getReg .seq) s = .next { s with res := s.seq.setWidth 16 }

/-- R35: bit by bit, the `STATUS` word as `GET_REG 0` answers it. -/
def Obligations.StatusWordShowsTheFlags : Prop :=
  ∀ s : State, ∃ t, exec (.getReg .status) s = .next t ∧
    t.res.getLsbD 0 = s.ie ∧ t.res.getLsbD 1 = s.serInit ∧ t.res.getLsbD 2 = s.crcok ∧
    t.res.getLsbD 3 = decide (s.pres = .present) ∧ t.res.getLsbD 4 = decide (s.pres = .busError) ∧
    t.res.getLsbD 5 = s.err ∧ t.res.getLsbD 6 = s.dirOw ∧ t.res.getLsbD 7 = s.latOw ∧
    t.res.getLsbD 8 = s.dirTx ∧ t.res.getLsbD 9 = s.latTx ∧
    (∀ k, 10 ≤ k → t.res.getLsbD k = false)

/-- R193: the flag and the old value; beside them only the record of port `ie` grows. -/
def Obligations.SetIeWritesTheFlagAndAnswersTheOldOne : Prop :=
  (∀ imm : Half, decode (0x02#8 ++ imm) =
    if imm &&& 0xFFFE#16 = 0#16 then .ok (.setIe (imm.getLsbD 0)) else .malformed .reservedBits) ∧
  ∀ (b : Bool) (s : State), ∃ t, exec (.setIe b) s = .next t ∧
    t.ie = b ∧ t.res = (if s.ie then 1#16 else 0#16) ∧
    { t with ie := s.ie, res := s.res, ports := s.ports } = s

/-! ### Line driver -/

/-- R111: the pin event is recorded exactly when the output changes. -/
def Obligations.LdDirSetsOneDirection : Prop :=
  (∀ imm : Half, decode (0x10#8 ++ imm) =
    if imm &&& 0xFEFE#16 = 0#16 then
      .ok (.ldDir (if imm.getLsbD 8 then .tx else .ow) (imm.getLsbD 0))
    else .malformed .reservedBits) ∧
  ∀ (p : Pin) (v : Bool) (s : State), ∃ t, exec (.ldDir p v) s = .next t ∧
    t.dir p = v ∧ t.res = 0#16 ∧
    t.trace = (if v = s.dir p then s.trace
      else s.trace ++ [.pin s.now p (if v then driven (s.lat p) else .z)]) ∧
    (p = .ow → { t with dirOw := s.dirOw, res := s.res, trace := s.trace } = s) ∧
    (p = .tx → { t with dirTx := s.dirTx, res := s.res, trace := s.trace } = s)

/-- R112: an input pin's latch changes nothing on the pin. -/
def Obligations.LdWriteSetsOneLatch : Prop :=
  (∀ imm : Half, decode (0x11#8 ++ imm) =
    if imm &&& 0xFEFE#16 = 0#16 then
      .ok (.ldWrite (if imm.getLsbD 8 then .tx else .ow) (imm.getLsbD 0))
    else .malformed .reservedBits) ∧
  ∀ (p : Pin) (v : Bool) (s : State), ∃ t, exec (.ldWrite p v) s = .next t ∧
    t.lat p = v ∧ t.res = 0#16 ∧
    t.trace = (if s.dir p = true ∧ v ≠ s.lat p then s.trace ++ [.pin s.now p (driven v)]
      else s.trace) ∧
    (p = .ow → { t with latOw := s.latOw, res := s.res, trace := s.trace } = s) ∧
    (p = .tx → { t with latTx := s.latTx, res := s.res, trace := s.trace } = s)

/-- R61, R113: an undriven pin reads the environment's answer; a driven low reads low whatever the
environment does; a driven high reads high unless another party pulls the line low, which is
contention, `DrivenHighReadsHighUnlessContended`. -/
def Obligations.LdReadAnswersTheLevel : Prop :=
  (∀ imm : Half, decode (0x12#8 ++ imm) =
    if imm &&& 0xFEFF#16 = 0#16 then .ok (.ldRead (if imm.getLsbD 8 then .tx else .ow))
    else .malformed .reservedBits) ∧
  (∀ (p : Pin) (s : State), s.dir p = false → ∃ t v, exec (.ldRead p) s = .next t ∧
    t.res = (if v then 1#16 else 0#16) ∧ t.trace = s.trace ++ [.sample s.now p v true] ∧
    (∀ l, p = .ow → s.env = .level l → v = l ∧ t.env = s.env) ∧
    (∀ l rest, p = .ow → s.env = .answer l rest → v = l ∧ t.env = rest) ∧
    { t with res := s.res, trace := s.trace, draws := s.draws, env := s.env } = s) ∧
  (∀ (p : Pin) (s : State), s.dir p = true → s.lat p = false →
    exec (.ldRead p) s = .next
      { s with res := 0#16, trace := s.trace ++ [.sample s.now p false false] }) ∧
  (∀ (p : Pin) (s : State), s.dir p = true → s.lat p = true → contended p s = false →
    ∃ t, exec (.ldRead p) s = .next t ∧ t.res = 1#16 ∧
      t.trace = s.trace ++ [.sample s.now p true false] ∧
      { t with res := s.res, trace := s.trace, draws := s.draws } = s)

/-- R61, R73: a driven high reads high, but for contention on `OW`, which has no value and stops
(log entry 5). -/
def Obligations.DrivenHighReadsHighUnlessContended : Prop :=
  (∀ s : State, s.dirTx = true → s.latTx = true → ∃ t, exec (.ldRead .tx) s = .next t ∧
    t.res = 1#16 ∧ t.trace = s.trace ++ [.sample s.now .tx true false] ∧
    { t with res := s.res, trace := s.trace, draws := s.draws } = s) ∧
  (∀ s : State, s.dirOw = true → s.latOw = true → peerPullsLow s = false →
    ∃ t, exec (.ldRead .ow) s = .next t ∧
    t.res = 1#16 ∧ t.trace = s.trace ++ [.sample s.now .ow true false] ∧
    { t with res := s.res, trace := s.trace, draws := s.draws } = s) ∧
  (∀ s : State, s.dirOw = true → s.latOw = true → peerPullsLow s = true →
    exec (.ldRead .ow) s = .fault .contention) ∧
  (∀ s : State, s.env = .level true → peerPullsLow s = false) ∧
  (∀ s : State, s.env = .level false → peerPullsLow s = true)

/-! ### OneWire bus master -/

/-- 41_onewire.md section 1, the end of R122: whatever the line does, the reset sequence completes,
answers the code of its Presence Result, ends with the pin released and `IE` as on entry, and writes
nothing else. -/
def Obligations.OwResetEndsReleasedOnEveryPath : Prop :=
  (∀ imm : Half, decode (0x20#8 ++ imm) =
    if imm = 0#16 then .ok .owReset else .malformed .reservedBits) ∧
  ∀ s : State, ∃ t, exec .owReset s = .next t ∧
    t.dirOw = false ∧ t.latOw = false ∧ t.dly = 0#20 ∧
    t.res = (match t.pres with
      | .noDevice => 0#16
      | .present => 1#16
      | .busError => 2#16) ∧
    { withRunOf s t with
      dirOw := s.dirOw, latOw := s.latOw, dly := s.dly, res := s.res, pres := s.pres
      retry := s.retry, iesave := s.iesave } = s

/-- R121, R124, R125: the two paths of a reset on every line. `us` and `t1` are the instants of the
samples of phase A: the first at the start, each at least 1 us after the one before (exactly, with
interrupts off), all but the last low. Either the last, the 128th, is low too: no pulse, no delay
after it, nothing masked. Or it is high: the pulse starts there and one sample decides. -/
def Obligations.OwResetTakesOneOfTwoPaths : Prop :=
  ∀ s : State, ∃ t us t1, exec .owReset s = .next t ∧
    t.dirOw = false ∧ t.latOw = false ∧
    (us ++ [t1]).head? = some s.now ∧
    (us ++ [t1]).IsChain (fun a b => a + 1 ≤ b ∧ (s.ie = false → b = a + 1)) ∧
    us.length ≤ 127 ∧ s.now + us.length ≤ t1 ∧
    let lows := s.trace ++
      (match s.out .ow with
       | .z => []
       | .low => [.pin s.now .ow .z]
       | .high => [.pin s.now .ow .low, .pin s.now .ow .z]) ++
      us.map (fun u => .sample u .ow false true)
    ((us.length = 127 ∧ t.trace = lows ++ [.sample t1 .ow false true] ∧ t.now = t1 ∧
      t.ports = s.ports ∧ t.pres = .busError ∧ t.res = 2#16 ∧ t.retry = 0#8) ∨
     ∃ v, t.trace = lows ++
        [.sample t1 .ow true true, .pin t1 .ow .low, .pin (t1 + 480) .ow .z,
         .sample (t1 + 550) .ow v true] ∧
      t1 + 960 ≤ t.now ∧ (s.ie = false → t.now = t1 + 960) ∧
      t.ports = s.ports ++ (if s.ie then [.ie t1 false, .ie (t1 + 550) true] else []) ∧
      t.pres = (if v then .noDevice else .present) ∧ t.res = (if v then 0#16 else 1#16) ∧
      t.retry = BitVec.ofNat 8 (128 - us.length))

/-- 41_onewire.md section 1: what the line answers decides the path: `k` lows, then a high, then `v`
to the presence sample; or 128 lows; or a line at one level for good. -/
def Obligations.OwResetFollowsTheAnswers : Prop :=
  (∀ (s : State) (k : Nat) (v : Bool) (rest : Env),
    k ≤ 127 → s.env = lowsThen k (.answer true (.answer v rest)) →
    ∃ t, exec .owReset s = .next t ∧
      t.pres = (if v then .noDevice else .present) ∧ t.res = (if v then 0#16 else 1#16) ∧
      t.retry = BitVec.ofNat 8 (128 - k) ∧ t.env = rest ∧
      s.now + k + 960 ≤ t.now ∧ (s.ie = false → t.now = s.now + k + 960)) ∧
  (∀ (s : State) (rest : Env), s.env = lowsThen 128 rest →
    ∃ t, exec .owReset s = .next t ∧ t.pres = .busError ∧ t.res = 2#16 ∧ t.retry = 0#8 ∧
      t.env = rest ∧ s.now + 127 ≤ t.now ∧ (s.ie = false → t.now = s.now + 127)) ∧
  (∀ s : State, s.env = .level true →
    ∃ t, exec .owReset s = .next t ∧ t.pres = .noDevice ∧ t.env = s.env) ∧
  (∀ s : State, s.env = .level false →
    ∃ t, exec .owReset s = .next t ∧ t.pres = .busError ∧ t.env = s.env)

/-- R127, R128: one slot, from any state of the pin. The line is low from the slot's start; a 1 is
released after 2 us; the sample falls at 15 us; the slot lasts 60 us, masked; then the gap. -/
def Obligations.OwBitRunsOneSlot : Prop :=
  (∀ imm : Half, decode (0x21#8 ++ imm) =
    if imm &&& 0xFFFE#16 = 0#16 then .ok (.owBit (imm.getLsbD 0)) else .malformed .reservedBits) ∧
  ∀ (b : Bool) (s : State), ∃ t v, exec (.owBit b) s = .next t ∧
    t.res = (if v then 1#16 else 0#16) ∧
    (b = false → v = false ∧ t.env = s.env) ∧
    (∀ l, b = true → s.env = .level l → v = l ∧ t.env = s.env) ∧
    (∀ l rest, b = true → s.env = .answer l rest → v = l ∧ t.env = rest) ∧
    t.trace = s.trace ++ (if s.out .ow = .low then [] else [.pin s.now .ow .low]) ++
      (if b then [.pin (s.now + 2) .ow .z, .sample (s.now + 15) .ow v true]
       else [.sample (s.now + 15) .ow false false, .pin (s.now + 60) .ow .z]) ∧
    t.ports = s.ports ++ (if s.ie then [.ie s.now false, .ie (s.now + 60) true] else []) ∧
    s.now + 60 + s.params.tRec.toNat ≤ t.now ∧
    (s.ie = false → t.now = s.now + 60 + s.params.tRec.toNat) ∧
    t.dirOw = false ∧ t.latOw = false ∧ t.dly = 0#20 ∧
    { withRunOf s t with
      dirOw := s.dirOw, latOw := s.latOw, dly := s.dly, res := s.res, iesave := s.iesave } = s

/-- R131: the byte transfer completes on every line, a written 0 reads 0, and its registers end as
the rule says. -/
def Obligations.OwByteCompletesOnEveryLine : Prop :=
  ∀ (d : Byte) (s : State), ∃ t, exec (.owByte d) s = .next t ∧
    t.res = t.rx.setWidth 16 ∧ t.rx &&& ~~~d = 0#8 ∧ t.sr = 0#8 ∧ t.bitcnt = 8#4 ∧
    s.now + 8 * (60 + s.params.tRec.toNat) ≤ t.now ∧
    (s.ie = false → t.now = s.now + 8 * (60 + s.params.tRec.toNat)) ∧
    t.dirOw = false ∧ t.latOw = false ∧ t.dly = 0#20 ∧
    { withRunOf s t with
      dirOw := s.dirOw, latOw := s.latOw, dly := s.dly, res := s.res, iesave := s.iesave
      sr := s.sr, rx := s.rx, bitcnt := s.bitcnt } = s

/-- R55, R131: a byte is the eight slots of its bits, least significant first, from where the state
then stands: slot `k` carries bit `k` of the byte and delivers bit `k` of the byte read. -/
def Obligations.OwByteIsEightBitSlots : Prop :=
  (∀ (b : Bool) (s : State), exec (.owBit b) s =
    .next { (owBit b s).2 with res := if (owBit b s).1 then 1#16 else 0#16 }) ∧
  ∀ (d : Byte) (s : State),
    let before : Nat → State := fun k =>
      (List.range k).foldl (fun u j => (owBit (d.getLsbD j) u).2) s
    ∃ t, exec (.owByte d) s = .next t ∧
      (∀ k, k < 8 → t.rx.getLsbD k = (owBit (d.getLsbD k) (before k)).1) ∧
      t.res = t.rx.setWidth 16 ∧ t.sr = 0#8 ∧ t.bitcnt = 8#4 ∧
      { t with sr := s.sr, rx := s.rx, bitcnt := s.bitcnt, res := s.res } = before 8

/-- R55, R132: `RES[k] = d[k] and e_k`, least significant bit first. -/
def Obligations.OwByteAnswersWrittenAndSampledBits : Prop :=
  (∀ imm : Half, decode (0x22#8 ++ imm) =
    if imm &&& 0xFF00#16 = 0#16 then .ok (.owByte (imm.extractLsb' 0 8))
    else .malformed .reservedBits) ∧
  ∀ (d e : Byte) (rest : Env) (s : State), s.env = slotAnswers d e rest →
    ∃ t, exec (.owByte d) s = .next t ∧ t.res = (d &&& e).setWidth 16 ∧ t.rx = d &&& e ∧
      t.env = rest

/-- 41_onewire.md section 3 (R133, an inference of the spec): nothing pulls the line low, and a byte
comes back as it went out; a line held low reads zero. -/
def Obligations.ByteLoopsBackOnAFreeLine : Prop :=
  ∀ (d : Byte) (s : State),
    (s.env = .level true → ∃ t, exec (.owByte d) s = .next t ∧ t.res = d.setWidth 16) ∧
    (s.env = .level false → ∃ t, exec (.owByte d) s = .next t ∧ t.res = 0#16)

/-! ### CRC8 checker -/

/-- R142. -/
def Obligations.CrcClrClearsTheAccumulator : Prop :=
  (∀ imm : Half, decode (0x30#8 ++ imm) =
    if imm = 0#16 then .ok .crcClr else .malformed .reservedBits) ∧
  ∀ s : State, exec .crcClr s = .next { s with crc := 0x00#8, res := 0#16 }

/-- R143: the accumulator and the response. -/
def Obligations.CrcByteFoldsOneByte : Prop :=
  (∀ imm : Half, decode (0x31#8 ++ imm) =
    if imm &&& 0xFF00#16 = 0#16 then .ok (.crcByte (imm.extractLsb' 0 8))
    else .malformed .reservedBits) ∧
  ∀ (d : Byte) (s : State), exec (.crcByte d) s = .next
    { s with crc := crc8Update s.crc d, res := (crc8Update s.crc d).setWidth 16 }

/-- R141: eight times, shift the accumulator and XOR 0x8C where its low bit and the next bit of the
byte, least significant first, differed; and the worked check of the rule. -/
def Obligations.CrcUpdateFoldsEightBits : Prop :=
  (∀ c d : Byte, crc8Update c d =
    (List.range 8).foldl
      (fun (a : Byte) k => if a.getLsbD 0 = d.getLsbD k then a >>> 1 else (a >>> 1) ^^^ 0x8C#8) c) ∧
  crcOf [0x31#8, 0x32#8, 0x33#8, 0x34#8, 0x35#8, 0x36#8, 0x37#8, 0x38#8, 0x39#8] = 0xA1#8

/-- 42_crc8.md, R143 and R147 (inferences of the spec): the update is linear, and folding a byte
equal to the accumulator gives 0. -/
def Obligations.CrcUpdateIsLinear : Prop :=
  (∀ a b x y : Byte, crc8Update (a ^^^ b) (x ^^^ y) = crc8Update a x ^^^ crc8Update b y) ∧
  (∀ c d : Byte, crc8Update c d = crc8Update (c ^^^ d) 0#8) ∧
  ∀ s : State, ∃ t, exec (.crcByte s.crc) s = .next t ∧ t.crc = 0#8 ∧ t.res = 0#16

/-- R145, R146: on a buffer whose nine bytes are written, the check computes the CRC8 of the first
eight and compares it with the ninth; on any other it stops. -/
def Obligations.CrcChkComparesWithTheNinthByte : Prop :=
  (∀ imm : Half, decode (0x32#8 ++ imm) =
    if imm = 0#16 then .ok .crcChk else .malformed .reservedBits) ∧
  (∀ (s : State) (m : List Byte) (c : Byte), m.length = 8 → Holds s.sp (m ++ [c]) →
    exec .crcChk s = .next
      { s with
        crc := crcOf m, bytecnt := 8#4, crcok := decide (crcOf m = c)
        res := if crcOf m = c then 1#16 else 0#16 }) ∧
  (∀ (s : State) (i : Nat), i ≤ 8 → readByte s.sp i = none →
    ∃ j, j ≤ i ∧ readByte s.sp j = none ∧ exec .crcChk s = .fault (.unwrittenByte j))

/-- 42_crc8.md, corner case c of R146 (an inference of the spec from R147): one flipped bit among the
first eight bytes of a valid buffer, or any change of the ninth byte alone, makes the check fail. -/
def Obligations.SingleBitErrorFailsTheCheck : Prop :=
  ∀ (s : State) (m : List Byte), m.length = 8 →
    (∀ j k, j < 8 → k < 8 →
      Holds s.sp (m.modify j (fun b => b ^^^ (1#8 <<< k)) ++ [crcOf m]) →
      ∃ t, exec .crcChk s = .next t ∧ t.crcok = false ∧ t.res = 0#16) ∧
    (∀ c, c ≠ crcOf m → Holds s.sp (m ++ [c]) →
      ∃ t, exec .crcChk s = .next t ∧ t.crcok = false ∧ t.res = 0#16)

/-! ### DS18B20 sequencer -/

/-- R42: a byte that nothing has written holds no value, and a command that reads one stops by name
(log entry 2). `DS_READ` reads none (an inference of the spec): whatever `SP` held before, it ends in
the same state, but for `SP`. -/
def Obligations.UnwrittenByteStopsItsReader : Prop :=
  (∀ (s : State) (i : BitVec 4), i.toNat ≤ 8 → readByte s.sp i.toNat = none →
    exec (.spRd i) s = .fault (.unwrittenByte i.toNat)) ∧
  (∀ (s : State) (i : Nat), i ≤ 8 → readByte s.sp i = none →
    ∃ j, j ≤ i ∧ readByte s.sp j = none ∧ exec .crcChk s = .fault (.unwrittenByte j)) ∧
  (∀ (s : State) (i : Nat), i ≤ 1 → readByte s.sp i = none →
    ∃ j, j ≤ i ∧ readByte s.sp j = none ∧ exec .dsDecode s = .fault (.unwrittenByte j)) ∧
  (∀ (s : State) (m : Memory), ∃ t n, exec .dsRead s = .next t ∧
    exec .dsRead { s with sp := m } = .next { t with sp := n }) ∧
  ∀ i, readByte State.reset.sp i = none

/-- R54, R158, R159: the raw code is little-endian; the response is the floor of the biased sum over
16, on the exact integers; with the nominal bias that rounds toward positive infinity. -/
def Obligations.DsDecodeRoundsTheRawCode : Prop :=
  (∀ imm : Half, decode (0x41#8 ++ imm) =
    if imm = 0#16 then .ok .dsDecode else .malformed .reservedBits) ∧
  ∀ (s : State) (lo hi : Byte), readByte s.sp 0 = some lo → readByte s.sp 1 = some hi →
    ∃ v : Int, exec .dsDecode s = .next { s with raw := hi ++ lo, res := BitVec.ofInt 16 v } ∧
      16 * v ≤ (hi ++ lo).toInt + (s.params.roundBias : Int) ∧
      (hi ++ lo).toInt + (s.params.roundBias : Int) < 16 * v + 16 ∧
      (s.params.roundBias = 15 →
        16 * (v - 1) < (hi ++ lo).toInt ∧ (hi ++ lo).toInt ≤ 16 * v ∧ -2048 ≤ v ∧ v ≤ 2048)

/-- 43_ds18b20.md section 4 (R163, an inference of the spec): with the nominal bias exactly the raw
codes -4383 to -4368 decode to the sentinel. -/
def Obligations.SentinelCollisionRange : Prop :=
  ∀ (s t : State) (lo hi : Byte), readByte s.sp 0 = some lo → readByte s.sp 1 = some hi →
    s.params.roundBias = 15 → exec .dsDecode s = .next t →
    (t.res = 0xFEEF#16 ↔ -4383 ≤ (hi ++ lo).toInt ∧ (hi ++ lo).toInt ≤ -4368)

/-- R51, R160: one byte is written, every other byte of the buffer reads as before; an index above 8
touches nothing and is malformed. -/
def Obligations.SpWrStoresOneByte : Prop :=
  (∀ imm : Half, decode (0x42#8 ++ imm) =
    if imm &&& 0xF000#16 ≠ 0#16 then .malformed .reservedBits
    else if (imm.extractLsb' 8 4).toNat ≤ 8 then
      .ok (.spWr (imm.extractLsb' 8 4) (imm.extractLsb' 0 8))
    else .malformed .indexRange) ∧
  (∀ (i : BitVec 4) (d : Byte) (s : State), i.toNat ≤ 8 → ∃ t, exec (.spWr i d) s = .next t ∧
    readByte t.sp i.toNat = some d ∧
    (∀ a, a ≠ i.toNat → readByte t.sp a = readByte s.sp a) ∧
    t.res = 0#16 ∧ { t with sp := s.sp, res := s.res } = s) ∧
  (∀ (i : BitVec 4) (d : Byte) (s : State), 8 < i.toNat →
    exec (.spWr i d) s = .next { s with err := true, res := 0xFFFF#16 })

/-- R51, R161: the byte, zero-extended; a byte never written stops the command (R42, log entry 2). That
the load changes `RES` alone is the model's reading, against R93 (log entry 19). -/
def Obligations.SpRdLoadsOneByte : Prop :=
  (∀ imm : Half, decode (0x43#8 ++ imm) =
    if imm &&& 0xF0FF#16 ≠ 0#16 then .malformed .reservedBits
    else if (imm.extractLsb' 8 4).toNat ≤ 8 then .ok (.spRd (imm.extractLsb' 8 4))
    else .malformed .indexRange) ∧
  (∀ (i : BitVec 4) (d : Byte) (s : State), i.toNat ≤ 8 → readByte s.sp i.toNat = some d →
    exec (.spRd i) s = .next { s with res := d.setWidth 16 }) ∧
  (∀ (i : BitVec 4) (s : State), i.toNat ≤ 8 → readByte s.sp i.toNat = none →
    exec (.spRd i) s = .fault (.unwrittenByte i.toNat)) ∧
  (∀ (i : BitVec 4) (s : State), 8 < i.toNat →
    exec (.spRd i) s = .next { s with err := true, res := 0xFFFF#16 })

/-- R154, R211 for the first reset: any result but `PRESENT` ends the read at once, with what that
reset alone left, and the sentinel. -/
def Obligations.DsReadAbortsAtTheFirstReset : Prop :=
  ∀ s r : State, exec .owReset s = .next r → r.pres ≠ .present →
    ∃ t, exec .dsRead s = .next t ∧ t.res = 0xFEEF#16 ∧ t.seq = 0#4 ∧ t.pres = r.pres ∧
      t.trace = r.trace ∧ t.now = r.now ∧
      { withRunOf s t with
        dirOw := s.dirOw, latOw := s.latOw, dly := s.dly, res := s.res, pres := s.pres
        retry := s.retry, iesave := s.iesave, seq := s.seq } = s

/-- 43_ds18b20.md section 1: on every path the read completes idle, with the pin released and `IE` as
on entry, and writes nothing but what R153 lists. -/
def Obligations.DsReadCompletesOnEveryPath : Prop :=
  (∀ imm : Half, decode (0x40#8 ++ imm) =
    if imm = 0#16 then .ok .dsRead else .malformed .reservedBits) ∧
  ∀ s : State, ∃ t, exec .dsRead s = .next t ∧
    t.seq = 0#4 ∧ t.dirOw = false ∧ t.latOw = false ∧ t.dly = 0#20 ∧
    { withRunOf s t with
      dirOw := s.dirOw, latOw := s.latOw, dly := s.dly, res := s.res, iesave := s.iesave
      retry := s.retry, pres := s.pres, sr := s.sr, rx := s.rx, bitcnt := s.bitcnt
      bytecnt := s.bytecnt, seq := s.seq, sp := s.sp, crc := s.crc, crcok := s.crcok
      raw := s.raw } = s

/-- 43_ds18b20.md section 1 with 20_memory.md R63: a device that answers each reset and sends nine
bytes. The buffer holds them; the check decides between the decoded temperature and the sentinel;
with interrupts off the read takes the time of 70 R251. -/
def Obligations.DsReadReadsTheDevice : Prop :=
  ∀ (s : State) (m : List Byte) (c : Byte) (rest : Env), m.length = 8 →
    s.env = deviceAnswers (m ++ [c]) rest →
    ∃ t, exec .dsRead s = .next t ∧ Holds t.sp (m ++ [c]) ∧ t.env = rest ∧
      t.pres = .present ∧ t.crc = crcOf m ∧ t.crcok = decide (crcOf m = c) ∧
      (crcOf m ≠ c → t.res = 0xFEEF#16 ∧ t.raw = s.raw) ∧
      (crcOf m = c → ∀ lo hi, m[0]? = some lo → m[1]? = some hi → t.raw = hi ++ lo ∧
        ∃ v : Int, t.res = BitVec.ofInt 16 v ∧
          16 * v ≤ (hi ++ lo).toInt + (s.params.roundBias : Int) ∧
          (hi ++ lo).toInt + (s.params.roundBias : Int) < 16 * v + 16) ∧
      (s.ie = false → t.now = s.now + 759120 + 104 * s.params.tRec.toNat)

/-- R155, R156: a device that answers the first reset, and then each way the second one can fail: a
line held low from the end of the conversion wait on (`BUS_ERROR`), a device that misses that one
reset (`NO_DEVICE`), and one that is gone for good. With `RST2_ABORT` the second reset ends the read
with the sentinel; without it the read goes on as if it had succeeded. What then comes of a line held
low (an all-zero buffer reads as 0 degrees) and of an absent device (nine 0xFF bytes fail the check) is
70 R245, an inference of the spec. -/
def Obligations.SecondResetEndsTheReadOnlyIfAsked : Prop :=
  (∀ s : State,
    s.env = presenceAnswers
      (slotAnswers 0xCC#8 0xFF#8 (slotAnswers 0x44#8 0xFF#8 (.level false))) →
    (s.params.rst2Abort = true → ∃ t, exec .dsRead s = .next t ∧
      t.res = 0xFEEF#16 ∧ t.pres = .busError ∧ t.seq = 0#4 ∧ t.sp = s.sp ∧ t.crc = s.crc ∧
      t.crcok = s.crcok ∧ t.raw = s.raw) ∧
    (s.params.rst2Abort = false → ∃ t, exec .dsRead s = .next t ∧
      t.pres = .busError ∧ t.crcok = true ∧ t.crc = 0x00#8 ∧ t.raw = 0#16 ∧
      Holds t.sp (List.replicate 9 0x00#8) ∧ (s.params.roundBias = 15 → t.res = 0#16))) ∧
  (∀ (s : State) (rest : Env),
    s.env = presenceAnswers (slotAnswers 0xCC#8 0xFF#8 (slotAnswers 0x44#8 0xFF#8
      (.answer true (.answer true rest)))) →
    (s.params.rst2Abort = true → ∃ t, exec .dsRead s = .next t ∧
      t.res = 0xFEEF#16 ∧ t.pres = .noDevice ∧ t.seq = 0#4 ∧ t.sp = s.sp ∧ t.crc = s.crc ∧
      t.crcok = s.crcok ∧ t.raw = s.raw ∧ t.env = rest) ∧
    (s.params.rst2Abort = false → ∀ (m : List Byte) (c : Byte) (rest' : Env), m.length = 8 →
      rest = slotAnswers 0xCC#8 0xFF#8 (slotAnswers 0xBE#8 0xFF#8
        (readAnswers (m ++ [c]) (presenceAnswers rest'))) →
      ∃ t, exec .dsRead s = .next t ∧ Holds t.sp (m ++ [c]) ∧ t.env = rest' ∧
        t.pres = .present ∧ t.crc = crcOf m ∧ t.crcok = decide (crcOf m = c) ∧
        (crcOf m ≠ c → t.res = 0xFEEF#16 ∧ t.raw = s.raw) ∧
        (crcOf m = c → ∀ lo hi, m[0]? = some lo → m[1]? = some hi → t.raw = hi ++ lo))) ∧
  (∀ s : State,
    s.env = presenceAnswers
      (slotAnswers 0xCC#8 0xFF#8 (slotAnswers 0x44#8 0xFF#8 (.level true))) →
    ∃ t, exec .dsRead s = .next t ∧ t.res = 0xFEEF#16 ∧ t.pres = .noDevice ∧ t.raw = s.raw ∧
      (s.params.rst2Abort = true → t.sp = s.sp ∧ t.crcok = s.crcok) ∧
      (s.params.rst2Abort = false → t.crcok = false ∧ Holds t.sp (List.replicate 9 0xFF#8)))

/-- R151 to R156, R85: a read is its procedures in the order of the step table, with the command bytes
0xCC, 0x44 and 0xBE and nine bytes of 0xFF, the i-th byte read stored at index i. It ends after the
first reset unless that found a device, after the second one only with `RST2_ABORT`, whatever it found,
and after the check unless that passed; the third reset decides nothing. `owReset` and `owByte` are
what `OW_RESET` and `OW_BYTE` run; the wait is 750000 us at least, exactly so with interrupts off, and
shows nothing. -/
def Obligations.DsReadRunsTheStepTable : Prop :=
  (∀ u : State, exec .owReset u = .next
    { owReset u with
      res := match (owReset u).pres with
        | .noDevice => 0#16
        | .present => 1#16
        | .busError => 2#16 }) ∧
  (∀ (d : Byte) (u : State), exec (.owByte d) u = .next
    { owByte d u with res := (owByte d u).rx.setWidth 16 }) ∧
  (∀ u : State, u.now + 750000 ≤ (wait 750000#20 u).now ∧
    (u.ie = false → (wait 750000#20 u).now = u.now + 750000) ∧
    (wait 750000#20 u).dly = 0#20 ∧
    { withRunOf u (wait 750000#20 u) with dly := u.dly } = u ∧
    (wait 750000#20 u).trace = u.trace ∧ (wait 750000#20 u).env = u.env) ∧
  ∀ s : State,
    let ends : State → Half → State := fun u v => { u with res := v, seq := 0#4 }
    let r1 := owReset s
    let r2 := owReset (wait 750000#20 (owByte 0x44#8 (owByte 0xCC#8 r1)))
    let full := (List.range 9).foldl
      (fun u k =>
        let b := owByte 0xFF#8 u
        { b with sp := writeByte b.sp k b.rx, bytecnt := BitVec.ofNat 4 (k + 1) })
      { owByte 0xBE#8 (owByte 0xCC#8 r2) with bytecnt := 0#4 }
    let r3 := owReset full
    (r1.pres ≠ .present → exec .dsRead s = .next (ends r1 0xFEEF#16)) ∧
    (r1.pres = .present → s.params.rst2Abort = true → r2.pres ≠ .present →
      exec .dsRead s = .next (ends r2 0xFEEF#16)) ∧
    (r1.pres = .present → (s.params.rst2Abort = false ∨ r2.pres = .present) →
      ∃ k, exec .crcChk r3 = .next k ∧
        (k.crcok = false → exec .dsRead s = .next (ends k 0xFEEF#16)) ∧
        (k.crcok = true → ∃ t, exec .dsDecode k = .next t ∧
          exec .dsRead s = .next (ends t t.res)))

/-! ### Serial transmitter -/

/-- R171, R172: check and set. Latch first, so the pin never drives low here. -/
def Obligations.TxInitSetsTheLineOnce : Prop :=
  (∀ imm : Half, decode (0x50#8 ++ imm) =
    if imm = 0#16 then .ok .txInit else .malformed .reservedBits) ∧
  (∀ s : State, s.serInit = true → exec .txInit s = .next { s with res := 0#16 }) ∧
  (∀ s : State, s.serInit = false → ∃ t, exec .txInit s = .next t ∧
    t.latTx = true ∧ t.dirTx = true ∧ t.serInit = true ∧ t.res = 0#16 ∧
    t.trace = s.trace ++ (if s.out .tx = .high then [] else [.pin s.now .tx .high]) ∧
    { t with
      latTx := s.latTx, dirTx := s.dirTx, serInit := s.serInit, res := s.res
      trace := s.trace } = s)

/-- R174: the frame completes from every state, masked for 1040 us, and its registers end as the rule
says. -/
def Obligations.TxByteSendsOneMaskedFrame : Prop :=
  (∀ imm : Half, decode (0x51#8 ++ imm) =
    if imm &&& 0xFF00#16 = 0#16 then .ok (.txByte (imm.extractLsb' 0 8))
    else .malformed .reservedBits) ∧
  ∀ (d : Byte) (s : State), ∃ t, exec (.txByte d) s = .next t ∧
    t.res = 0#16 ∧ t.serInit = true ∧ t.latTx = true ∧
    t.dirTx = (if s.serInit then s.dirTx else true) ∧ t.sr = 0#8 ∧ t.bitcnt = 8#4 ∧ t.dly = 0#20 ∧
    s.now + 1040 ≤ t.now ∧ (s.ie = false → t.now = s.now + 1040) ∧
    t.ports = s.ports ++ (if s.ie then [.ie s.now false, .ie (s.now + 1040) true] else []) ∧
    { withRunOf s t with
      res := s.res, serInit := s.serInit, latTx := s.latTx, dirTx := s.dirTx, sr := s.sr
      bitcnt := s.bitcnt, dly := s.dly, iesave := s.iesave } = s

/-- R56, R90: the level of the line over a frame: start bit, eight data bits least significant first,
stop bit, each held for one bit time, and the stop level after it. -/
def Obligations.TxByteWaveformIsTheFrame : Prop :=
  ∀ (d : Byte) (s : State), (s.serInit = true → s.dirTx = true) →
    ∃ t, exec (.txByte d) s = .next t ∧ s.trace <+: t.trace ∧
      (∀ e ∈ newTrace s t, e.on .tx = true ∧ e.isSample = false) ∧
      (∀ n τ, n < 10 → s.now + 104 * n ≤ τ → τ < s.now + 104 * (n + 1) →
        levelAt .tx (s.out .tx) (newTrace s t) τ = driven (frameLevel d n)) ∧
      (∀ τ, s.now + 1040 ≤ τ → levelAt .tx (s.out .tx) (newTrace s t) τ = .high)

/-- 44_serial.md section 2, corner case d of R175: with the pin made an input after initialisation,
nothing appears on it. -/
def Obligations.ReleasedTransmitterIsSilent : Prop :=
  ∀ (d : Byte) (s : State), s.serInit = true → s.dirTx = false →
    ∃ t, exec (.txByte d) s = .next t ∧ t.trace = s.trace ∧ t.dirTx = false

/-- R177, R178: `TX_DEC` sends the bytes of the decimal rendering, in order, as `TX_BYTE` would
(`txByte` is what `TX_BYTE` runs), and answers how many they are. The last two clauses, what `DECBUF`
holds after the command, are the model's choice (log entry 21): no rule fixes it between commands. -/
def Obligations.TxDecSendsTheDecimalText : Prop :=
  (∀ (d : Byte) (s : State), exec (.txByte d) s = .next { txByte d s with res := 0#16 }) ∧
  (∀ imm : Half, decode (0x52#8 ++ imm) = .ok (.txDec imm)) ∧
  ∀ (w : Half) (s : State),
    let text := decimalText s.params.decCrlf w
    ∃ t, exec (.txDec w) s = .next t ∧ t.res = BitVec.ofNat 16 text.length ∧
      t.decptr = 9#4 ∧
      { t with res := s.res, decptr := s.decptr, decbuf := s.decbuf } =
        text.foldl (fun u c => txByte c u) s ∧
      (∀ k, k < text.length → readByte t.decbuf (9 - text.length + k) = text[k]?) ∧
      (∀ a, a < 9 - text.length → readByte t.decbuf a = readByte s.decbuf a)

/-- 44_serial.md section 3: what a decimal transmission leaves alone, and its time. -/
def Obligations.TxDecFrame : Prop :=
  ∀ (w : Half) (s : State), ∃ t, exec (.txDec w) s = .next t ∧
    1 ≤ t.res.toNat ∧ t.res.toNat ≤ 8 ∧
    s.now + t.res.toNat * 1040 ≤ t.now ∧ (s.ie = false → t.now = s.now + t.res.toNat * 1040) ∧
    t.serInit = true ∧ t.latTx = true ∧
    { withRunOf s t with
      res := s.res, serInit := s.serInit, latTx := s.latTx, dirTx := s.dirTx, sr := s.sr
      bitcnt := s.bitcnt, dly := s.dly, iesave := s.iesave, decptr := s.decptr
      decbuf := s.decbuf } = s

/-! ### The whole machine -/

/-- 60_exceptions.md sections 1 and 5: no command is refused, and the only stops are the reads that
have no value: an unwritten byte (R42) and contention (R73). -/
def Obligations.CommandsStopOnlyWhereAReadHasNoValue : Prop :=
  ∀ (i : Instr) (s : State),
    (∃ t, exec i s = .next t) ∨
    ((∃ j, i = .spRd j ∧ j.toNat ≤ 8 ∧ readByte s.sp j.toNat = none ∧
        exec i s = .fault (.unwrittenByte j.toNat)) ∨
     (i = .crcChk ∧ ∃ j, j ≤ 8 ∧ readByte s.sp j = none ∧ exec i s = .fault (.unwrittenByte j)) ∨
     (i = .dsDecode ∧ ∃ j, j ≤ 1 ∧ readByte s.sp j = none ∧ exec i s = .fault (.unwrittenByte j)) ∨
     (i = .ldRead .ow ∧ s.dirOw = true ∧ s.latOw = true ∧ exec i s = .fault .contention))

/-- R205 as a rule over all commands: each one restores the exact prior `IE`; only `SET_IE` changes
it. -/
def Obligations.EveryCommandRestoresInterruptEnable : Prop :=
  ∀ (i : Instr) (s t : State), exec i s = .next t → (∀ b, i ≠ .setIe b) → t.ie = s.ie

/-- R30, R31: no command clears `ERR` or `SER_INIT`, and a well-formed command never sets `ERR`. -/
def Obligations.StickyFlagsStay : Prop :=
  ∀ (i : Instr) (s t : State), exec i s = .next t →
    (s.err = true → t.err = true) ∧ (s.serInit = true → t.serInit = true) ∧
    (i.wf = true → t.err = s.err)

/-- R24: every command but the raw line driver's keeps the 1-Wire pin released, and those of
41_onewire.md and the temperature read release it from any state. -/
def Obligations.OnlyTheLineDriverCanHoldTheBus : Prop :=
  ∀ (i : Instr) (s t : State), exec i s = .next t → (∀ v, i ≠ .ldDir .ow v) →
    (s.dirOw = false → t.dirOw = false) ∧
    ((i = .owReset ∨ (∃ b, i = .owBit b) ∨ (∃ d, i = .owByte d) ∨ i = .dsRead) →
      t.dirOw = false ∧ t.latOw = false)

/-- 44_serial.md section 4 and 41_onewire.md: a command of one line records nothing on the other
line and leaves its pin registers alone. -/
def Obligations.TheTwoLinesAreIndependent : Prop :=
  ∀ (i : Instr) (s t : State), exec i s = .next t →
    ((i = .owReset ∨ (∃ b, i = .owBit b) ∨ (∃ d, i = .owByte d) ∨ i = .dsRead) →
      t.dirTx = s.dirTx ∧ t.latTx = s.latTx ∧ t.serInit = s.serInit ∧
      ∀ e ∈ newTrace s t, e.on .ow = true) ∧
    ((i = .txInit ∨ (∃ d, i = .txByte d) ∨ (∃ w, i = .txDec w)) →
      t.dirOw = s.dirOw ∧ t.latOw = s.latOw ∧ t.env = s.env ∧
      ∀ e ∈ newTrace s t, e.on .tx = true)

/-- R67, R68: time never runs backward, the trace only grows, and every command but the timed ones
takes no time. -/
def Obligations.TimeAndTraceOnlyGrow : Prop :=
  ∀ (i : Instr) (s t : State), exec i s = .next t →
    s.now ≤ t.now ∧ s.trace <+: t.trace ∧ s.ports <+: t.ports ∧
    (i ≠ .owReset → (∀ b, i ≠ .owBit b) → (∀ d, i ≠ .owByte d) → i ≠ .dsRead →
      (∀ d, i ≠ .txByte d) → (∀ w, i ≠ .txDec w) → t.now = s.now)

/-- Every step keeps the invariant, from every state that meets it. -/
def Obligations.EveryStepKeepsTheInvariant : Prop :=
  ∀ s t : State, Inv s → step s = .next t → Inv t

/-- The machine right after reset meets the invariant. -/
def Obligations.ResetMeetsTheInvariant : Prop :=
  Inv State.reset
end

