-- ==== Sys2Proof/Laws/State.lean ====
section
/-! SUPPORT. What the shared operations leave alone and what they set, field by field, so that no
proof unfolds a record update. A `_keeps` lemma lists every field its operation leaves unchanged;
simp uses each conjunct as a rule of its own. -/

namespace Sys2Proof.Machine

/-- Recording a pin event touches the trace alone. -/
@[simp] theorem recordPin_keeps (p : Pin) (o : Out) (s : State) :
    (recordPin p o s).dirOw = s.dirOw ∧ (recordPin p o s).latOw = s.latOw ∧
    (recordPin p o s).dirTx = s.dirTx ∧ (recordPin p o s).latTx = s.latTx ∧
    (recordPin p o s).ie = s.ie ∧ (recordPin p o s).iesave = s.iesave ∧
    (recordPin p o s).busy = s.busy ∧ (recordPin p o s).pres = s.pres ∧
    (recordPin p o s).crcok = s.crcok ∧ (recordPin p o s).serInit = s.serInit ∧
    (recordPin p o s).err = s.err ∧ (recordPin p o s).opc = s.opc ∧
    (recordPin p o s).arg = s.arg ∧ (recordPin p o s).res = s.res ∧ (recordPin p o s).sr = s.sr ∧
    (recordPin p o s).rx = s.rx ∧ (recordPin p o s).crc = s.crc ∧ (recordPin p o s).raw = s.raw ∧
    (recordPin p o s).retry = s.retry ∧ (recordPin p o s).bitcnt = s.bitcnt ∧
    (recordPin p o s).bytecnt = s.bytecnt ∧ (recordPin p o s).decptr = s.decptr ∧
    (recordPin p o s).dly = s.dly ∧ (recordPin p o s).seq = s.seq ∧ (recordPin p o s).sp = s.sp ∧
    (recordPin p o s).decbuf = s.decbuf ∧ (recordPin p o s).now = s.now ∧
    (recordPin p o s).ports = s.ports ∧ (recordPin p o s).draws = s.draws ∧
    (recordPin p o s).env = s.env ∧ (recordPin p o s).jitters = s.jitters ∧
    (recordPin p o s).offers = s.offers ∧ (recordPin p o s).resets = s.resets ∧
    (recordPin p o s).params = s.params := by
  unfold recordPin
  split <;> simp

/-- `DIR[p] <- v` touches the directions and the trace alone. -/
@[simp] theorem setDir_keeps (p : Pin) (v : Bool) (s : State) :
    (setDir p v s).latOw = s.latOw ∧ (setDir p v s).latTx = s.latTx ∧ (setDir p v s).ie = s.ie ∧
    (setDir p v s).iesave = s.iesave ∧ (setDir p v s).busy = s.busy ∧
    (setDir p v s).pres = s.pres ∧ (setDir p v s).crcok = s.crcok ∧
    (setDir p v s).serInit = s.serInit ∧ (setDir p v s).err = s.err ∧ (setDir p v s).opc = s.opc ∧
    (setDir p v s).arg = s.arg ∧ (setDir p v s).res = s.res ∧ (setDir p v s).sr = s.sr ∧
    (setDir p v s).rx = s.rx ∧ (setDir p v s).crc = s.crc ∧ (setDir p v s).raw = s.raw ∧
    (setDir p v s).retry = s.retry ∧ (setDir p v s).bitcnt = s.bitcnt ∧
    (setDir p v s).bytecnt = s.bytecnt ∧ (setDir p v s).decptr = s.decptr ∧
    (setDir p v s).dly = s.dly ∧ (setDir p v s).seq = s.seq ∧ (setDir p v s).sp = s.sp ∧
    (setDir p v s).decbuf = s.decbuf ∧ (setDir p v s).now = s.now ∧
    (setDir p v s).ports = s.ports ∧ (setDir p v s).draws = s.draws ∧ (setDir p v s).env = s.env ∧
    (setDir p v s).jitters = s.jitters ∧ (setDir p v s).offers = s.offers ∧
    (setDir p v s).resets = s.resets ∧ (setDir p v s).params = s.params := by
  cases p <;> simp [setDir]

/-- `LAT[p] <- v` touches the latches and the trace alone. -/
@[simp] theorem setLat_keeps (p : Pin) (v : Bool) (s : State) :
    (setLat p v s).dirOw = s.dirOw ∧ (setLat p v s).dirTx = s.dirTx ∧ (setLat p v s).ie = s.ie ∧
    (setLat p v s).iesave = s.iesave ∧ (setLat p v s).busy = s.busy ∧
    (setLat p v s).pres = s.pres ∧ (setLat p v s).crcok = s.crcok ∧
    (setLat p v s).serInit = s.serInit ∧ (setLat p v s).err = s.err ∧ (setLat p v s).opc = s.opc ∧
    (setLat p v s).arg = s.arg ∧ (setLat p v s).res = s.res ∧ (setLat p v s).sr = s.sr ∧
    (setLat p v s).rx = s.rx ∧ (setLat p v s).crc = s.crc ∧ (setLat p v s).raw = s.raw ∧
    (setLat p v s).retry = s.retry ∧ (setLat p v s).bitcnt = s.bitcnt ∧
    (setLat p v s).bytecnt = s.bytecnt ∧ (setLat p v s).decptr = s.decptr ∧
    (setLat p v s).dly = s.dly ∧ (setLat p v s).seq = s.seq ∧ (setLat p v s).sp = s.sp ∧
    (setLat p v s).decbuf = s.decbuf ∧ (setLat p v s).now = s.now ∧
    (setLat p v s).ports = s.ports ∧ (setLat p v s).draws = s.draws ∧ (setLat p v s).env = s.env ∧
    (setLat p v s).jitters = s.jitters ∧ (setLat p v s).offers = s.offers ∧
    (setLat p v s).resets = s.resets ∧ (setLat p v s).params = s.params := by
  cases p <;> simp [setLat]

/-- The pin written has the new direction, the other keeps its own. -/
@[simp] theorem setDir_dir (v : Bool) (s : State) :
    (setDir .ow v s).dirOw = v ∧ (setDir .ow v s).dirTx = s.dirTx ∧
    (setDir .tx v s).dirTx = v ∧ (setDir .tx v s).dirOw = s.dirOw := by
  simp [setDir]

/-- The pin written has the new latch, the other keeps its own. -/
@[simp] theorem setLat_lat (v : Bool) (s : State) :
    (setLat .ow v s).latOw = v ∧ (setLat .ow v s).latTx = s.latTx ∧
    (setLat .tx v s).latTx = v ∧ (setLat .tx v s).latOw = s.latOw := by
  simp [setLat]

/-- An answer of the environment uses up an answer or a draw and nothing else. -/
@[simp] theorem envAnswer_keeps (p : Pin) (s : State) :
    ((envAnswer p s).2).dirOw = s.dirOw ∧ ((envAnswer p s).2).latOw = s.latOw ∧
    ((envAnswer p s).2).dirTx = s.dirTx ∧ ((envAnswer p s).2).latTx = s.latTx ∧
    ((envAnswer p s).2).ie = s.ie ∧ ((envAnswer p s).2).iesave = s.iesave ∧
    ((envAnswer p s).2).busy = s.busy ∧ ((envAnswer p s).2).pres = s.pres ∧
    ((envAnswer p s).2).crcok = s.crcok ∧ ((envAnswer p s).2).serInit = s.serInit ∧
    ((envAnswer p s).2).err = s.err ∧ ((envAnswer p s).2).opc = s.opc ∧
    ((envAnswer p s).2).arg = s.arg ∧ ((envAnswer p s).2).res = s.res ∧
    ((envAnswer p s).2).sr = s.sr ∧ ((envAnswer p s).2).rx = s.rx ∧
    ((envAnswer p s).2).crc = s.crc ∧ ((envAnswer p s).2).raw = s.raw ∧
    ((envAnswer p s).2).retry = s.retry ∧ ((envAnswer p s).2).bitcnt = s.bitcnt ∧
    ((envAnswer p s).2).bytecnt = s.bytecnt ∧ ((envAnswer p s).2).decptr = s.decptr ∧
    ((envAnswer p s).2).dly = s.dly ∧ ((envAnswer p s).2).seq = s.seq ∧
    ((envAnswer p s).2).sp = s.sp ∧ ((envAnswer p s).2).decbuf = s.decbuf ∧
    ((envAnswer p s).2).now = s.now ∧ ((envAnswer p s).2).trace = s.trace ∧
    ((envAnswer p s).2).ports = s.ports ∧ ((envAnswer p s).2).jitters = s.jitters ∧
    ((envAnswer p s).2).offers = s.offers ∧ ((envAnswer p s).2).resets = s.resets ∧
    ((envAnswer p s).2).params = s.params := by
  cases p
  · simp only [envAnswer]
    split <;> simp
  · simp [envAnswer]

/-- A sample touches the trace, the draws and the environment alone (20_memory.md R59). -/
@[simp] theorem sample_keeps (p : Pin) (s : State) :
    ((sample p s).2).dirOw = s.dirOw ∧ ((sample p s).2).latOw = s.latOw ∧
    ((sample p s).2).dirTx = s.dirTx ∧ ((sample p s).2).latTx = s.latTx ∧
    ((sample p s).2).ie = s.ie ∧ ((sample p s).2).iesave = s.iesave ∧
    ((sample p s).2).busy = s.busy ∧ ((sample p s).2).pres = s.pres ∧
    ((sample p s).2).crcok = s.crcok ∧ ((sample p s).2).serInit = s.serInit ∧
    ((sample p s).2).err = s.err ∧ ((sample p s).2).opc = s.opc ∧ ((sample p s).2).arg = s.arg ∧
    ((sample p s).2).res = s.res ∧ ((sample p s).2).sr = s.sr ∧ ((sample p s).2).rx = s.rx ∧
    ((sample p s).2).crc = s.crc ∧ ((sample p s).2).raw = s.raw ∧
    ((sample p s).2).retry = s.retry ∧ ((sample p s).2).bitcnt = s.bitcnt ∧
    ((sample p s).2).bytecnt = s.bytecnt ∧ ((sample p s).2).decptr = s.decptr ∧
    ((sample p s).2).dly = s.dly ∧ ((sample p s).2).seq = s.seq ∧ ((sample p s).2).sp = s.sp ∧
    ((sample p s).2).decbuf = s.decbuf ∧ ((sample p s).2).now = s.now ∧
    ((sample p s).2).ports = s.ports ∧ ((sample p s).2).jitters = s.jitters ∧
    ((sample p s).2).offers = s.offers ∧ ((sample p s).2).resets = s.resets ∧
    ((sample p s).2).params = s.params := by
  unfold sample
  split <;> simp

/-- Loading the delay generator touches `DLY` alone. -/
@[simp] theorem loadDelay_keeps (d : BitVec 20) (s : State) :
    (loadDelay d s).dirOw = s.dirOw ∧ (loadDelay d s).latOw = s.latOw ∧
    (loadDelay d s).dirTx = s.dirTx ∧ (loadDelay d s).latTx = s.latTx ∧
    (loadDelay d s).ie = s.ie ∧ (loadDelay d s).iesave = s.iesave ∧
    (loadDelay d s).busy = s.busy ∧ (loadDelay d s).pres = s.pres ∧
    (loadDelay d s).crcok = s.crcok ∧ (loadDelay d s).serInit = s.serInit ∧
    (loadDelay d s).err = s.err ∧ (loadDelay d s).opc = s.opc ∧ (loadDelay d s).arg = s.arg ∧
    (loadDelay d s).res = s.res ∧ (loadDelay d s).sr = s.sr ∧ (loadDelay d s).rx = s.rx ∧
    (loadDelay d s).crc = s.crc ∧ (loadDelay d s).raw = s.raw ∧ (loadDelay d s).retry = s.retry ∧
    (loadDelay d s).bitcnt = s.bitcnt ∧ (loadDelay d s).bytecnt = s.bytecnt ∧
    (loadDelay d s).decptr = s.decptr ∧ (loadDelay d s).seq = s.seq ∧ (loadDelay d s).sp = s.sp ∧
    (loadDelay d s).decbuf = s.decbuf ∧ (loadDelay d s).now = s.now ∧
    (loadDelay d s).trace = s.trace ∧ (loadDelay d s).ports = s.ports ∧
    (loadDelay d s).draws = s.draws ∧ (loadDelay d s).env = s.env ∧
    (loadDelay d s).jitters = s.jitters ∧ (loadDelay d s).offers = s.offers ∧
    (loadDelay d s).resets = s.resets ∧ (loadDelay d s).params = s.params := by
  simp [loadDelay]

/-- A delay that runs out touches time and `DLY` alone. -/
@[simp] theorem runDelay_keeps (e : Nat) (s : State) :
    (runDelay e s).dirOw = s.dirOw ∧ (runDelay e s).latOw = s.latOw ∧
    (runDelay e s).dirTx = s.dirTx ∧ (runDelay e s).latTx = s.latTx ∧ (runDelay e s).ie = s.ie ∧
    (runDelay e s).iesave = s.iesave ∧ (runDelay e s).busy = s.busy ∧
    (runDelay e s).pres = s.pres ∧ (runDelay e s).crcok = s.crcok ∧
    (runDelay e s).serInit = s.serInit ∧ (runDelay e s).err = s.err ∧ (runDelay e s).opc = s.opc ∧
    (runDelay e s).arg = s.arg ∧ (runDelay e s).res = s.res ∧ (runDelay e s).sr = s.sr ∧
    (runDelay e s).rx = s.rx ∧ (runDelay e s).crc = s.crc ∧ (runDelay e s).raw = s.raw ∧
    (runDelay e s).retry = s.retry ∧ (runDelay e s).bitcnt = s.bitcnt ∧
    (runDelay e s).bytecnt = s.bytecnt ∧ (runDelay e s).decptr = s.decptr ∧
    (runDelay e s).seq = s.seq ∧ (runDelay e s).sp = s.sp ∧ (runDelay e s).decbuf = s.decbuf ∧
    (runDelay e s).trace = s.trace ∧ (runDelay e s).ports = s.ports ∧
    (runDelay e s).draws = s.draws ∧ (runDelay e s).env = s.env ∧
    (runDelay e s).jitters = s.jitters ∧ (runDelay e s).offers = s.offers ∧
    (runDelay e s).resets = s.resets ∧ (runDelay e s).params = s.params := by
  simp [runDelay]

/-- `wait_ni` touches time and `DLY` alone. -/
@[simp] theorem waitNi_keeps (d : BitVec 20) (s : State) :
    (waitNi d s).dirOw = s.dirOw ∧ (waitNi d s).latOw = s.latOw ∧ (waitNi d s).dirTx = s.dirTx ∧
    (waitNi d s).latTx = s.latTx ∧ (waitNi d s).ie = s.ie ∧ (waitNi d s).iesave = s.iesave ∧
    (waitNi d s).busy = s.busy ∧ (waitNi d s).pres = s.pres ∧ (waitNi d s).crcok = s.crcok ∧
    (waitNi d s).serInit = s.serInit ∧ (waitNi d s).err = s.err ∧ (waitNi d s).opc = s.opc ∧
    (waitNi d s).arg = s.arg ∧ (waitNi d s).res = s.res ∧ (waitNi d s).sr = s.sr ∧
    (waitNi d s).rx = s.rx ∧ (waitNi d s).crc = s.crc ∧ (waitNi d s).raw = s.raw ∧
    (waitNi d s).retry = s.retry ∧ (waitNi d s).bitcnt = s.bitcnt ∧
    (waitNi d s).bytecnt = s.bytecnt ∧ (waitNi d s).decptr = s.decptr ∧ (waitNi d s).seq = s.seq ∧
    (waitNi d s).sp = s.sp ∧ (waitNi d s).decbuf = s.decbuf ∧ (waitNi d s).trace = s.trace ∧
    (waitNi d s).ports = s.ports ∧ (waitNi d s).draws = s.draws ∧ (waitNi d s).env = s.env ∧
    (waitNi d s).jitters = s.jitters ∧ (waitNi d s).offers = s.offers ∧
    (waitNi d s).resets = s.resets ∧ (waitNi d s).params = s.params := by
  simp [waitNi]

/-- A jitter draw uses up a scripted jitter or a draw and nothing else. -/
@[simp] theorem drawJitter_keeps (s : State) :
    ((drawJitter s).2).dirOw = s.dirOw ∧ ((drawJitter s).2).latOw = s.latOw ∧
    ((drawJitter s).2).dirTx = s.dirTx ∧ ((drawJitter s).2).latTx = s.latTx ∧
    ((drawJitter s).2).ie = s.ie ∧ ((drawJitter s).2).iesave = s.iesave ∧
    ((drawJitter s).2).busy = s.busy ∧ ((drawJitter s).2).pres = s.pres ∧
    ((drawJitter s).2).crcok = s.crcok ∧ ((drawJitter s).2).serInit = s.serInit ∧
    ((drawJitter s).2).err = s.err ∧ ((drawJitter s).2).opc = s.opc ∧
    ((drawJitter s).2).arg = s.arg ∧ ((drawJitter s).2).res = s.res ∧
    ((drawJitter s).2).sr = s.sr ∧ ((drawJitter s).2).rx = s.rx ∧ ((drawJitter s).2).crc = s.crc ∧
    ((drawJitter s).2).raw = s.raw ∧ ((drawJitter s).2).retry = s.retry ∧
    ((drawJitter s).2).bitcnt = s.bitcnt ∧ ((drawJitter s).2).bytecnt = s.bytecnt ∧
    ((drawJitter s).2).decptr = s.decptr ∧ ((drawJitter s).2).dly = s.dly ∧
    ((drawJitter s).2).seq = s.seq ∧ ((drawJitter s).2).sp = s.sp ∧
    ((drawJitter s).2).decbuf = s.decbuf ∧ ((drawJitter s).2).now = s.now ∧
    ((drawJitter s).2).trace = s.trace ∧ ((drawJitter s).2).ports = s.ports ∧
    ((drawJitter s).2).env = s.env ∧ ((drawJitter s).2).offers = s.offers ∧
    ((drawJitter s).2).resets = s.resets ∧ ((drawJitter s).2).params = s.params := by
  unfold drawJitter
  split <;> simp

/-- `wait` touches time, `DLY` and the jitter draws alone. -/
@[simp] theorem wait_keeps (d : BitVec 20) (s : State) :
    (wait d s).dirOw = s.dirOw ∧ (wait d s).latOw = s.latOw ∧ (wait d s).dirTx = s.dirTx ∧
    (wait d s).latTx = s.latTx ∧ (wait d s).ie = s.ie ∧ (wait d s).iesave = s.iesave ∧
    (wait d s).busy = s.busy ∧ (wait d s).pres = s.pres ∧ (wait d s).crcok = s.crcok ∧
    (wait d s).serInit = s.serInit ∧ (wait d s).err = s.err ∧ (wait d s).opc = s.opc ∧
    (wait d s).arg = s.arg ∧ (wait d s).res = s.res ∧ (wait d s).sr = s.sr ∧
    (wait d s).rx = s.rx ∧ (wait d s).crc = s.crc ∧ (wait d s).raw = s.raw ∧
    (wait d s).retry = s.retry ∧ (wait d s).bitcnt = s.bitcnt ∧ (wait d s).bytecnt = s.bytecnt ∧
    (wait d s).decptr = s.decptr ∧ (wait d s).seq = s.seq ∧ (wait d s).sp = s.sp ∧
    (wait d s).decbuf = s.decbuf ∧ (wait d s).trace = s.trace ∧ (wait d s).ports = s.ports ∧
    (wait d s).env = s.env ∧ (wait d s).offers = s.offers ∧ (wait d s).resets = s.resets ∧
    (wait d s).params = s.params := by
  unfold wait
  split <;> simp

/-- Writing `IE` touches the flag and the record of its port alone. -/
@[simp] theorem writeIe_keeps (v : Bool) (s : State) :
    (writeIe v s).dirOw = s.dirOw ∧ (writeIe v s).latOw = s.latOw ∧
    (writeIe v s).dirTx = s.dirTx ∧ (writeIe v s).latTx = s.latTx ∧
    (writeIe v s).iesave = s.iesave ∧ (writeIe v s).busy = s.busy ∧ (writeIe v s).pres = s.pres ∧
    (writeIe v s).crcok = s.crcok ∧ (writeIe v s).serInit = s.serInit ∧
    (writeIe v s).err = s.err ∧ (writeIe v s).opc = s.opc ∧ (writeIe v s).arg = s.arg ∧
    (writeIe v s).res = s.res ∧ (writeIe v s).sr = s.sr ∧ (writeIe v s).rx = s.rx ∧
    (writeIe v s).crc = s.crc ∧ (writeIe v s).raw = s.raw ∧ (writeIe v s).retry = s.retry ∧
    (writeIe v s).bitcnt = s.bitcnt ∧ (writeIe v s).bytecnt = s.bytecnt ∧
    (writeIe v s).decptr = s.decptr ∧ (writeIe v s).dly = s.dly ∧ (writeIe v s).seq = s.seq ∧
    (writeIe v s).sp = s.sp ∧ (writeIe v s).decbuf = s.decbuf ∧ (writeIe v s).now = s.now ∧
    (writeIe v s).trace = s.trace ∧ (writeIe v s).draws = s.draws ∧ (writeIe v s).env = s.env ∧
    (writeIe v s).jitters = s.jitters ∧ (writeIe v s).offers = s.offers ∧
    (writeIe v s).resets = s.resets ∧ (writeIe v s).params = s.params := by
  simp [writeIe]

/-- `crit_enter()` touches `IE`, `IESAVE` and the record of port `ie` alone. -/
@[simp] theorem critEnter_keeps (s : State) :
    (critEnter s).dirOw = s.dirOw ∧ (critEnter s).latOw = s.latOw ∧
    (critEnter s).dirTx = s.dirTx ∧ (critEnter s).latTx = s.latTx ∧ (critEnter s).busy = s.busy ∧
    (critEnter s).pres = s.pres ∧ (critEnter s).crcok = s.crcok ∧
    (critEnter s).serInit = s.serInit ∧ (critEnter s).err = s.err ∧ (critEnter s).opc = s.opc ∧
    (critEnter s).arg = s.arg ∧ (critEnter s).res = s.res ∧ (critEnter s).sr = s.sr ∧
    (critEnter s).rx = s.rx ∧ (critEnter s).crc = s.crc ∧ (critEnter s).raw = s.raw ∧
    (critEnter s).retry = s.retry ∧ (critEnter s).bitcnt = s.bitcnt ∧
    (critEnter s).bytecnt = s.bytecnt ∧ (critEnter s).decptr = s.decptr ∧
    (critEnter s).dly = s.dly ∧ (critEnter s).seq = s.seq ∧ (critEnter s).sp = s.sp ∧
    (critEnter s).decbuf = s.decbuf ∧ (critEnter s).now = s.now ∧ (critEnter s).trace = s.trace ∧
    (critEnter s).draws = s.draws ∧ (critEnter s).env = s.env ∧
    (critEnter s).jitters = s.jitters ∧ (critEnter s).offers = s.offers ∧
    (critEnter s).resets = s.resets ∧ (critEnter s).params = s.params := by
  simp [critEnter]

/-- `crit_exit()` touches `IE` and the record of its port alone. -/
@[simp] theorem critExit_keeps (s : State) :
    (critExit s).dirOw = s.dirOw ∧ (critExit s).latOw = s.latOw ∧ (critExit s).dirTx = s.dirTx ∧
    (critExit s).latTx = s.latTx ∧ (critExit s).iesave = s.iesave ∧ (critExit s).busy = s.busy ∧
    (critExit s).pres = s.pres ∧ (critExit s).crcok = s.crcok ∧ (critExit s).serInit = s.serInit ∧
    (critExit s).err = s.err ∧ (critExit s).opc = s.opc ∧ (critExit s).arg = s.arg ∧
    (critExit s).res = s.res ∧ (critExit s).sr = s.sr ∧ (critExit s).rx = s.rx ∧
    (critExit s).crc = s.crc ∧ (critExit s).raw = s.raw ∧ (critExit s).retry = s.retry ∧
    (critExit s).bitcnt = s.bitcnt ∧ (critExit s).bytecnt = s.bytecnt ∧
    (critExit s).decptr = s.decptr ∧ (critExit s).dly = s.dly ∧ (critExit s).seq = s.seq ∧
    (critExit s).sp = s.sp ∧ (critExit s).decbuf = s.decbuf ∧ (critExit s).now = s.now ∧
    (critExit s).trace = s.trace ∧ (critExit s).draws = s.draws ∧ (critExit s).env = s.env ∧
    (critExit s).jitters = s.jitters ∧ (critExit s).offers = s.offers ∧
    (critExit s).resets = s.resets ∧ (critExit s).params = s.params := by
  simp [critExit]

/-- A response touches `RES` alone. -/
@[simp] theorem respond_keeps (v : Half) (s : State) :
    (respond v s).dirOw = s.dirOw ∧ (respond v s).latOw = s.latOw ∧
    (respond v s).dirTx = s.dirTx ∧ (respond v s).latTx = s.latTx ∧ (respond v s).ie = s.ie ∧
    (respond v s).iesave = s.iesave ∧ (respond v s).busy = s.busy ∧ (respond v s).pres = s.pres ∧
    (respond v s).crcok = s.crcok ∧ (respond v s).serInit = s.serInit ∧
    (respond v s).err = s.err ∧ (respond v s).opc = s.opc ∧ (respond v s).arg = s.arg ∧
    (respond v s).sr = s.sr ∧ (respond v s).rx = s.rx ∧ (respond v s).crc = s.crc ∧
    (respond v s).raw = s.raw ∧ (respond v s).retry = s.retry ∧ (respond v s).bitcnt = s.bitcnt ∧
    (respond v s).bytecnt = s.bytecnt ∧ (respond v s).decptr = s.decptr ∧
    (respond v s).dly = s.dly ∧ (respond v s).seq = s.seq ∧ (respond v s).sp = s.sp ∧
    (respond v s).decbuf = s.decbuf ∧ (respond v s).now = s.now ∧ (respond v s).trace = s.trace ∧
    (respond v s).ports = s.ports ∧ (respond v s).draws = s.draws ∧ (respond v s).env = s.env ∧
    (respond v s).jitters = s.jitters ∧ (respond v s).offers = s.offers ∧
    (respond v s).resets = s.resets ∧ (respond v s).params = s.params := by
  simp [respond]

/-- A malformed command touches `ERR` and `RES` alone (R92). -/
@[simp] theorem malformed_keeps (s : State) :
    (malformed s).dirOw = s.dirOw ∧ (malformed s).latOw = s.latOw ∧
    (malformed s).dirTx = s.dirTx ∧ (malformed s).latTx = s.latTx ∧ (malformed s).ie = s.ie ∧
    (malformed s).iesave = s.iesave ∧ (malformed s).busy = s.busy ∧ (malformed s).pres = s.pres ∧
    (malformed s).crcok = s.crcok ∧ (malformed s).serInit = s.serInit ∧
    (malformed s).opc = s.opc ∧ (malformed s).arg = s.arg ∧ (malformed s).sr = s.sr ∧
    (malformed s).rx = s.rx ∧ (malformed s).crc = s.crc ∧ (malformed s).raw = s.raw ∧
    (malformed s).retry = s.retry ∧ (malformed s).bitcnt = s.bitcnt ∧
    (malformed s).bytecnt = s.bytecnt ∧ (malformed s).decptr = s.decptr ∧
    (malformed s).dly = s.dly ∧ (malformed s).seq = s.seq ∧ (malformed s).sp = s.sp ∧
    (malformed s).decbuf = s.decbuf ∧ (malformed s).now = s.now ∧ (malformed s).trace = s.trace ∧
    (malformed s).ports = s.ports ∧ (malformed s).draws = s.draws ∧ (malformed s).env = s.env ∧
    (malformed s).jitters = s.jitters ∧ (malformed s).offers = s.offers ∧
    (malformed s).resets = s.resets ∧ (malformed s).params = s.params := by
  simp [malformed]

/-- What the shared operations set. -/
@[simp] theorem waitNi_sets (d : BitVec 20) (s : State) :
    (waitNi d s).now = s.now + d.toNat ∧ (waitNi d s).dly = 0#20 := by
  simp [waitNi, runDelay, loadDelay]

@[simp] theorem wait_dly (d : BitVec 20) (s : State) : (wait d s).dly = 0#20 := by
  unfold wait
  split <;> simp [runDelay]

@[simp] theorem runDelay_sets (e : Nat) (s : State) :
    (runDelay e s).now = s.now + s.dly.toNat + e ∧ (runDelay e s).dly = 0#20 := by
  simp [runDelay]

@[simp] theorem loadDelay_dly (d : BitVec 20) (s : State) : (loadDelay d s).dly = d := rfl

@[simp] theorem writeIe_ie (v : Bool) (s : State) : (writeIe v s).ie = v := rfl

@[simp] theorem critEnter_sets (s : State) :
    (critEnter s).ie = false ∧ (critEnter s).iesave = s.ie := by
  simp [critEnter]

@[simp] theorem critExit_ie (s : State) : (critExit s).ie = s.iesave := rfl

@[simp] theorem respond_res (v : Half) (s : State) : (respond v s).res = v := rfl

@[simp] theorem malformed_sets (s : State) :
    (malformed s).err = true ∧ (malformed s).res = 0xFFFF#16 := by
  simp [malformed]

end Sys2Proof.Machine
end

