-- ==== Sys2Proof/Laws/Line.lean ====
section
/-! SUPPORT. What a write to a pin records, what a sample answers, and how long a delay lasts
(20_memory.md R60 to R66, 60_exceptions.md R205). -/

namespace Sys2Proof.Machine

/-! ### Pin writes -/

theorem outOf_dir_inj {v d l : Bool} : outOf v l = outOf d l ↔ v = d := by
  cases v <;> cases d <;> cases l <;> simp [outOf]

/-- A direction that changes is the pin event of R111; one that does not records nothing. -/
theorem setDir_trace (p : Pin) (v : Bool) (s : State) :
    (setDir p v s).trace =
      if v = s.dir p then s.trace else s.trace ++ [.pin s.now p (outOf v (s.lat p))] := by
  cases p <;>
    simp only [setDir, recordPin, State.out, State.dir, State.lat, outOf_dir_inj] <;>
    split <;> simp_all

/-- A latch that changes is the pin event of R112 on an output, and nothing on an input. -/
theorem setLat_trace (p : Pin) (v : Bool) (s : State) :
    (setLat p v s).trace =
      if s.dir p = true ∧ v ≠ s.lat p then s.trace ++ [.pin s.now p (outOf true v)]
      else s.trace := by
  cases p <;>
    simp only [setLat, recordPin, State.out, State.dir, State.lat, outOf]
  · cases v <;> by_cases h : s.dirOw = true <;> by_cases h' : s.latOw = true <;> simp [h, h']
  · cases v <;> by_cases h : s.dirTx = true <;> by_cases h' : s.latTx = true <;> simp [h, h']

/-- Driving `OW` low records one event, unless the pin is low already. -/
theorem driveLow_trace (s : State) :
    (setDir .ow true (setLat .ow false s)).trace =
      s.trace ++ (if s.out .ow = .low then [] else [.pin s.now .ow .low]) := by
  rw [setDir_trace, setLat_trace]
  simp only [State.dir, State.lat, State.out, setLat_keeps, setLat_lat, outOf]
  by_cases h : s.dirOw = true <;> by_cases h' : s.latOw = true <;> simp [h, h']

/-- Releasing a driven `OW` records one event. -/
theorem release_trace {s : State} (h : s.dirOw = true) :
    (setDir .ow false s).trace = s.trace ++ [.pin s.now .ow .z] := by
  rw [setDir_trace]
  simp [State.dir, h, outOf]

/-- Releasing a released `OW` records nothing. -/
theorem released_trace {s : State} (h : s.dirOw = false) :
    (setDir .ow false s).trace = s.trace := by
  rw [setDir_trace]
  simp [State.dir, h]

/-- The first two writes of `ow_reset()` on a released pin record nothing. -/
theorem latchLow_trace {s : State} (h : s.dirOw = false) :
    (setDir .ow false (setLat .ow false s)).trace = s.trace := by
  rw [setDir_trace, setLat_trace]
  simp [State.dir, h]

/-! ### Samples -/

/-- A sample records itself and nothing else. -/
theorem sample_trace (p : Pin) (s : State) :
    (sample p s).2.trace = s.trace ++ [.sample s.now p (sample p s).1 (!s.dir p)] := by
  unfold sample
  split
  · next h => simp [h]
  · next h => simp [h]

/-- A driven pin reads its latch (R61). -/
theorem sample_driven {p : Pin} {s : State} (h : s.dir p = true) :
    (sample p s).1 = s.lat p ∧ (sample p s).2.env = s.env := by
  simp [sample, h]

/-- A sample of a pin driven low draws nothing. -/
theorem sample_driven_low_draws {p : Pin} {s : State} (h : s.dir p = true) (hl : s.lat p = false) :
    (sample p s).2.draws = s.draws := by
  simp [sample, h, hl]

/-- An undriven `OW` on a constant line reads that level (R63 a, b). -/
theorem sample_level {s : State} (h : s.dirOw = false) {v : Bool} (he : s.env = .level v) :
    (sample .ow s).1 = v ∧ (sample .ow s).2.env = .level v ∧ (sample .ow s).2.draws = s.draws := by
  simp [sample, State.dir, h, envAnswer, he]

/-- An undriven `OW` under a script reads the next answer and uses it up (R63 c). -/
theorem sample_answer {s : State} (h : s.dirOw = false) {v : Bool} {rest : Env}
    (he : s.env = .answer v rest) :
    (sample .ow s).1 = v ∧ (sample .ow s).2.env = rest ∧ (sample .ow s).2.draws = s.draws := by
  simp [sample, State.dir, h, envAnswer, he]

/-! ### Delays -/

/-- With `IE = 0` a `wait` is exact and draws nothing (R66). -/
theorem wait_of_ie_false {s : State} (h : s.ie = false) (d : BitVec 20) : wait d s = waitNi d s := by
  simp [wait, h]

/-- A `wait` never ends early (R66). -/
theorem wait_now_le (d : BitVec 20) (s : State) : s.now + d.toNat ≤ (wait d s).now := by
  unfold wait
  split
  · simp only [runDelay_sets, loadDelay_keeps, loadDelay_dly, drawJitter_keeps]
    omega
  · simp

/-- A `wait` of zero may still let time pass when `IE = 1`, never when `IE = 0`. -/
theorem wait_now_of_ie_false {s : State} (h : s.ie = false) (d : BitVec 20) :
    (wait d s).now = s.now + d.toNat := by
  simp [wait_of_ie_false h]

/-! ### The record of port `ie` -/

theorem writeIe_ports (v : Bool) (s : State) :
    (writeIe v s).ports = s.ports ++ (if s.ie = v then [] else [.ie s.now v]) := by
  unfold writeIe
  split <;> simp_all

theorem critEnter_ports (s : State) :
    (critEnter s).ports = s.ports ++ (if s.ie then [.ie s.now false] else []) := by
  rw [critEnter, writeIe_ports]
  cases s.ie <;> simp

theorem critExit_ports {s : State} (h : s.ie = false) :
    (critExit s).ports = s.ports ++ (if s.iesave then [.ie s.now true] else []) := by
  rw [critExit, writeIe_ports, h]
  cases s.iesave <;> simp

end Sys2Proof.Machine
end

