-- ==== Sys2Proof/Laws/OneWireFrames.lean ====
section
/-! SUPPORT. What the procedures of the OneWire bus master leave alone, and the state each of them
ends in: pin released, latch low, `IE` as on entry (41_onewire.md R122, R127, R131). -/

namespace Sys2Proof.Machine

/-- The idle check releases nothing, masks nothing, and leaves every register but `RETRY` alone. -/
@[simp] theorem idleCheck_keeps (n : Nat) (s : State) :
    ((idleCheck n s).2).dirOw = s.dirOw ∧ ((idleCheck n s).2).latOw = s.latOw ∧
    ((idleCheck n s).2).dirTx = s.dirTx ∧ ((idleCheck n s).2).latTx = s.latTx ∧
    ((idleCheck n s).2).ie = s.ie ∧ ((idleCheck n s).2).iesave = s.iesave ∧
    ((idleCheck n s).2).busy = s.busy ∧ ((idleCheck n s).2).pres = s.pres ∧
    ((idleCheck n s).2).crcok = s.crcok ∧ ((idleCheck n s).2).serInit = s.serInit ∧
    ((idleCheck n s).2).err = s.err ∧ ((idleCheck n s).2).opc = s.opc ∧
    ((idleCheck n s).2).arg = s.arg ∧ ((idleCheck n s).2).res = s.res ∧
    ((idleCheck n s).2).sr = s.sr ∧ ((idleCheck n s).2).rx = s.rx ∧
    ((idleCheck n s).2).crc = s.crc ∧ ((idleCheck n s).2).raw = s.raw ∧
    ((idleCheck n s).2).bitcnt = s.bitcnt ∧ ((idleCheck n s).2).bytecnt = s.bytecnt ∧
    ((idleCheck n s).2).decptr = s.decptr ∧ ((idleCheck n s).2).seq = s.seq ∧
    ((idleCheck n s).2).sp = s.sp ∧ ((idleCheck n s).2).decbuf = s.decbuf ∧
    ((idleCheck n s).2).ports = s.ports ∧ ((idleCheck n s).2).offers = s.offers ∧
    ((idleCheck n s).2).resets = s.resets ∧ ((idleCheck n s).2).params = s.params := by
  induction n generalizing s with
  | zero => simp [idleCheck]
  | succ n ih =>
    simp only [idleCheck]
    split
    · simp
    · split
      · simp
      · simp only [ih]; simp

/-- The reset pulse and presence sample touch the pin, the critical section and the run alone. -/
@[simp] theorem resetPulse_keeps (s : State) :
    ((resetPulse s).2).dirTx = s.dirTx ∧ ((resetPulse s).2).latTx = s.latTx ∧
    ((resetPulse s).2).busy = s.busy ∧ ((resetPulse s).2).pres = s.pres ∧
    ((resetPulse s).2).crcok = s.crcok ∧ ((resetPulse s).2).serInit = s.serInit ∧
    ((resetPulse s).2).err = s.err ∧ ((resetPulse s).2).opc = s.opc ∧
    ((resetPulse s).2).arg = s.arg ∧ ((resetPulse s).2).res = s.res ∧
    ((resetPulse s).2).sr = s.sr ∧ ((resetPulse s).2).rx = s.rx ∧ ((resetPulse s).2).crc = s.crc ∧
    ((resetPulse s).2).raw = s.raw ∧ ((resetPulse s).2).retry = s.retry ∧
    ((resetPulse s).2).bitcnt = s.bitcnt ∧ ((resetPulse s).2).bytecnt = s.bytecnt ∧
    ((resetPulse s).2).decptr = s.decptr ∧ ((resetPulse s).2).seq = s.seq ∧
    ((resetPulse s).2).sp = s.sp ∧ ((resetPulse s).2).decbuf = s.decbuf ∧
    ((resetPulse s).2).jitters = s.jitters ∧ ((resetPulse s).2).offers = s.offers ∧
    ((resetPulse s).2).resets = s.resets ∧ ((resetPulse s).2).params = s.params := by
  simp [resetPulse]

/-- `ow_reset()` writes what R122 lists and nothing else. -/
@[simp] theorem owReset_keeps (s : State) :
    (owReset s).dirTx = s.dirTx ∧ (owReset s).latTx = s.latTx ∧ (owReset s).busy = s.busy ∧
    (owReset s).crcok = s.crcok ∧ (owReset s).serInit = s.serInit ∧ (owReset s).err = s.err ∧
    (owReset s).opc = s.opc ∧ (owReset s).arg = s.arg ∧ (owReset s).res = s.res ∧
    (owReset s).sr = s.sr ∧ (owReset s).rx = s.rx ∧ (owReset s).crc = s.crc ∧
    (owReset s).raw = s.raw ∧ (owReset s).bitcnt = s.bitcnt ∧ (owReset s).bytecnt = s.bytecnt ∧
    (owReset s).decptr = s.decptr ∧ (owReset s).seq = s.seq ∧ (owReset s).sp = s.sp ∧
    (owReset s).decbuf = s.decbuf ∧ (owReset s).offers = s.offers ∧
    (owReset s).resets = s.resets ∧ (owReset s).params = s.params := by
  simp only [owReset]
  split <;> simp

/-- Opening a slot touches the pin, the critical section and the run alone. -/
@[simp] theorem slotOpen_keeps (b : Bool) (s : State) :
    (slotOpen b s).dirTx = s.dirTx ∧ (slotOpen b s).latTx = s.latTx ∧
    (slotOpen b s).busy = s.busy ∧ (slotOpen b s).pres = s.pres ∧ (slotOpen b s).crcok = s.crcok ∧
    (slotOpen b s).serInit = s.serInit ∧ (slotOpen b s).err = s.err ∧ (slotOpen b s).opc = s.opc ∧
    (slotOpen b s).arg = s.arg ∧ (slotOpen b s).res = s.res ∧ (slotOpen b s).sr = s.sr ∧
    (slotOpen b s).rx = s.rx ∧ (slotOpen b s).crc = s.crc ∧ (slotOpen b s).raw = s.raw ∧
    (slotOpen b s).retry = s.retry ∧ (slotOpen b s).bitcnt = s.bitcnt ∧
    (slotOpen b s).bytecnt = s.bytecnt ∧ (slotOpen b s).decptr = s.decptr ∧
    (slotOpen b s).seq = s.seq ∧ (slotOpen b s).sp = s.sp ∧ (slotOpen b s).decbuf = s.decbuf ∧
    (slotOpen b s).draws = s.draws ∧ (slotOpen b s).env = s.env ∧
    (slotOpen b s).jitters = s.jitters ∧ (slotOpen b s).offers = s.offers ∧
    (slotOpen b s).resets = s.resets ∧ (slotOpen b s).params = s.params := by
  cases b <;> simp [slotOpen]

/-- `ow_bit(b)` writes what R127 lists and nothing else. -/
@[simp] theorem owBit_keeps (b : Bool) (s : State) :
    ((owBit b s).2).dirTx = s.dirTx ∧ ((owBit b s).2).latTx = s.latTx ∧
    ((owBit b s).2).busy = s.busy ∧ ((owBit b s).2).pres = s.pres ∧
    ((owBit b s).2).crcok = s.crcok ∧ ((owBit b s).2).serInit = s.serInit ∧
    ((owBit b s).2).err = s.err ∧ ((owBit b s).2).opc = s.opc ∧ ((owBit b s).2).arg = s.arg ∧
    ((owBit b s).2).res = s.res ∧ ((owBit b s).2).sr = s.sr ∧ ((owBit b s).2).rx = s.rx ∧
    ((owBit b s).2).crc = s.crc ∧ ((owBit b s).2).raw = s.raw ∧ ((owBit b s).2).retry = s.retry ∧
    ((owBit b s).2).bitcnt = s.bitcnt ∧ ((owBit b s).2).bytecnt = s.bytecnt ∧
    ((owBit b s).2).decptr = s.decptr ∧ ((owBit b s).2).seq = s.seq ∧ ((owBit b s).2).sp = s.sp ∧
    ((owBit b s).2).decbuf = s.decbuf ∧ ((owBit b s).2).offers = s.offers ∧
    ((owBit b s).2).resets = s.resets ∧ ((owBit b s).2).params = s.params := by
  simp [owBit]

/-- The loop of `ow_byte` writes what R131 lists and nothing else. -/
@[simp] theorem owBits_keeps (n : Nat) (s : State) :
    (owBits n s).dirTx = s.dirTx ∧ (owBits n s).latTx = s.latTx ∧ (owBits n s).busy = s.busy ∧
    (owBits n s).pres = s.pres ∧ (owBits n s).crcok = s.crcok ∧ (owBits n s).serInit = s.serInit ∧
    (owBits n s).err = s.err ∧ (owBits n s).opc = s.opc ∧ (owBits n s).arg = s.arg ∧
    (owBits n s).res = s.res ∧ (owBits n s).crc = s.crc ∧ (owBits n s).raw = s.raw ∧
    (owBits n s).retry = s.retry ∧ (owBits n s).bytecnt = s.bytecnt ∧
    (owBits n s).decptr = s.decptr ∧ (owBits n s).seq = s.seq ∧ (owBits n s).sp = s.sp ∧
    (owBits n s).decbuf = s.decbuf ∧ (owBits n s).offers = s.offers ∧
    (owBits n s).resets = s.resets ∧ (owBits n s).params = s.params := by
  induction n generalizing s with
  | zero => simp [owBits]
  | succ n ih => simp only [owBits, ih]; simp

/-- `ow_byte(d)` writes what R131 lists and nothing else. -/
@[simp] theorem owByte_keeps (d : Byte) (s : State) :
    (owByte d s).dirTx = s.dirTx ∧ (owByte d s).latTx = s.latTx ∧ (owByte d s).busy = s.busy ∧
    (owByte d s).pres = s.pres ∧ (owByte d s).crcok = s.crcok ∧ (owByte d s).serInit = s.serInit ∧
    (owByte d s).err = s.err ∧ (owByte d s).opc = s.opc ∧ (owByte d s).arg = s.arg ∧
    (owByte d s).res = s.res ∧ (owByte d s).crc = s.crc ∧ (owByte d s).raw = s.raw ∧
    (owByte d s).retry = s.retry ∧ (owByte d s).bytecnt = s.bytecnt ∧
    (owByte d s).decptr = s.decptr ∧ (owByte d s).seq = s.seq ∧ (owByte d s).sp = s.sp ∧
    (owByte d s).decbuf = s.decbuf ∧ (owByte d s).offers = s.offers ∧
    (owByte d s).resets = s.resets ∧ (owByte d s).params = s.params := by
  simp [owByte]

end Sys2Proof.Machine
end

