-- ==== Sys2Proof/Laws/OneWire.lean ====
section
/-! SUPPORT. What the procedures of the OneWire bus master do: the slot, the byte, the reset
(41_onewire.md R121 to R133). -/

namespace Sys2Proof.Machine

/-! ### One slot -/

/-- The state at the sample of a slot: released or held by the bit written, 15 us in, masked. -/
theorem slotOpen_sets (b : Bool) (s : State) :
    (slotOpen b s).dirOw = !b ∧ (slotOpen b s).latOw = false ∧ (slotOpen b s).ie = false ∧
    (slotOpen b s).iesave = s.ie ∧ (slotOpen b s).now = s.now + 15 ∧
    (slotOpen b s).dly = 0#20 := by
  cases b <;> simp [slotOpen, Config.tSmp, Config.tRel]

theorem slotOpen_ports (b : Bool) (s : State) :
    (slotOpen b s).ports = s.ports ++ (if s.ie then [.ie s.now false] else []) := by
  cases b <;> simp [slotOpen, critEnter_ports]

theorem slotOpen_trace (b : Bool) (s : State) :
    (slotOpen b s).trace = s.trace ++ (if s.out .ow = .low then [] else [.pin s.now .ow .low]) ++
      (if b then [.pin (s.now + 2) .ow .z] else []) := by
  have hout : (critEnter s).out .ow = s.out .ow := by simp [State.out, State.dir, State.lat]
  cases b
  · simp [slotOpen, driveLow_trace, hout]
  · simp only [slotOpen, if_true, waitNi_keeps]
    rw [release_trace (by simp)]
    simp [driveLow_trace, hout, Config.tRel]

/-- A hold-low slot samples the block's own low (R129). -/
theorem owBit_low (s : State) : (owBit false s).1 = false ∧ (owBit false s).2.env = s.env := by
  have h := slotOpen_sets false s
  have hd : (slotOpen false s).dir .ow = true := by simp [State.dir, h.1]
  have hs := sample_driven hd
  simp only [owBit, wait_keeps, critExit_keeps, setDir_keeps, waitNi_keeps, hs, slotOpen_keeps]
  exact ⟨h.2.1, trivial⟩

/-- A release-early slot on a constant line reads that level. -/
theorem owBit_level {s : State} {v : Bool} (he : s.env = .level v) :
    (owBit true s).1 = v ∧ (owBit true s).2.env = .level v := by
  have h := slotOpen_sets true s
  have hs := sample_level (s := slotOpen true s) (by simp [h.1]) (v := v) (by simp [he])
  simp [owBit, hs]

/-- A release-early slot under a script reads the next answer. -/
theorem owBit_answer {s : State} {v : Bool} {rest : Env} (he : s.env = .answer v rest) :
    (owBit true s).1 = v ∧ (owBit true s).2.env = rest := by
  have h := slotOpen_sets true s
  have hs := sample_answer (s := slotOpen true s) (by simp [h.1]) (v := v) (rest := rest)
    (by simp [he])
  simp [owBit, hs]

/-- After a slot the pin is released, `IE` is as before, no delay runs. -/
@[simp] theorem owBit_sets (b : Bool) (s : State) :
    (owBit b s).2.dirOw = false ∧ (owBit b s).2.latOw = false ∧ (owBit b s).2.ie = s.ie ∧
    (owBit b s).2.dly = 0#20 := by
  have h := slotOpen_sets b s
  simp [owBit, h]

/-- What a slot records (R127). -/
theorem owBit_trace (b : Bool) (s : State) :
    (owBit b s).2.trace =
      s.trace ++ (if s.out .ow = .low then [] else [.pin s.now .ow .low]) ++
      (if b then [.pin (s.now + 2) .ow .z, .sample (s.now + 15) .ow (owBit b s).1 true]
       else [.sample (s.now + 15) .ow (owBit b s).1 false, .pin (s.now + 60) .ow .z]) := by
  have h := slotOpen_sets b s
  have ht := slotOpen_trace b s
  cases b
  · simp only [owBit, wait_keeps, critExit_keeps]
    rw [release_trace (by simp [h])]
    simp [sample_trace, ht, h, State.dir, Config.tSlot, Config.tSmp]
  · simp only [owBit, wait_keeps, critExit_keeps]
    rw [released_trace (by simp [h])]
    simp [sample_trace, ht, h, State.dir]

/-- The slot is masked for its whole 60 us (R206). -/
theorem owBit_ports (b : Bool) (s : State) :
    (owBit b s).2.ports =
      s.ports ++ (if s.ie then [.ie s.now false, .ie (s.now + 60) true] else []) := by
  have h := slotOpen_sets b s
  have hp := slotOpen_ports b s
  simp only [owBit, wait_keeps]
  rw [critExit_ports (by simp [h])]
  cases hie : s.ie <;> simp [hp, h, hie, Config.tSlot, Config.tSmp]

/-- How long a slot and its gap last (R127, R130). -/
theorem owBit_now_le (b : Bool) (s : State) :
    s.now + 60 + s.params.tRec.toNat ≤ (owBit b s).2.now := by
  have h := slotOpen_sets b s
  simp only [owBit]
  refine le_trans (le_of_eq ?_) (wait_now_le _ _)
  simp [h, Config.tSlot, Config.tSmp]

theorem owBit_now {s : State} (hie : s.ie = false) (b : Bool) :
    (owBit b s).2.now = s.now + 60 + s.params.tRec.toNat := by
  have h := slotOpen_sets b s
  simp only [owBit]
  rw [wait_now_of_ie_false (by simp [h, hie])]
  simp [h, Config.tSlot, Config.tSmp]

/-! ### One byte -/

/-- One turn of the loop of `ow_byte` (R131). -/
def owTurn (s : State) : State :=
  let r := owBit (s.sr.getLsbD 0) s
  { r.2 with
    rx := putBit r.2.rx r.2.bitcnt.toNat r.1
    sr := r.2.sr >>> 1
    bitcnt := r.2.bitcnt + 1#4 }

/-- A turn leaves the environment as its slot does. -/
theorem owTurn_env {s : State} {b : Bool} (hb : s.sr.getLsbD 0 = b) :
    (owTurn s).env = (owBit b s).2.env := by
  rw [← hb]
  rfl

theorem owBits_succ (n : Nat) (s : State) : owBits (n + 1) s = owBits n (owTurn s) := rfl

/-- A loop fact: what holds before the loop and is kept by every turn holds after it. -/
theorem owBits_induct {P : Nat → State → Prop} (step : ∀ n s, P (n + 1) s → P n (owTurn s)) :
    ∀ n s, P n s → P 0 (owBits n s) := by
  intro n
  induction n with
  | zero => intro s h; exact h
  | succ n ih => intro s h; rw [owBits_succ]; exact ih _ (step n s h)

theorem putBit_getLsbD (x : Byte) (k j : Nat) (v : Bool) (hk : k < 8) :
    (putBit x k v).getLsbD j = if j = k then v else x.getLsbD j := by
  by_cases hj : j < 8
  · have : ∀ (x : Byte) (k j : Fin 8) (v : Bool),
        (putBit x k v).getLsbD j = if j = k then v else x.getLsbD j := by decide
    simpa [Fin.ext_iff] using this x ⟨k, hk⟩ ⟨j, hj⟩ v
  · rw [if_neg (by omega)]
    simp [BitVec.getLsbD_of_ge _ _ (Nat.le_of_not_lt hj)]

/-- The registers of the loop with `n` bits of `d` to go, after the bits `r` were read: `SR` holds
the bits to go, `BITCNT` counts those done, `RX` holds those read. -/
structure ByteLoop (d r : Byte) (n : Nat) (s : State) : Prop where
  count : n ≤ 8
  bitcnt : s.bitcnt.toNat = 8 - n
  sr : ∀ j, s.sr.getLsbD j = d.getLsbD (j + (8 - n))
  rx : ∀ j, s.rx.getLsbD j = (decide (j < 8 - n) && r.getLsbD j)

theorem byteLoop_start (d r : Byte) (s : State) :
    ByteLoop d r 8 { s with sr := d, rx := 0#8, bitcnt := 0#4 } where
  count := le_refl _
  bitcnt := rfl
  sr := by simp
  rx := by simp

/-- One turn moves the loop on by the bit it read. -/
theorem byteLoop_turn {d r : Byte} {n : Nat} {s : State} (h : ByteLoop d r (n + 1) s)
    (hv : (owBit (s.sr.getLsbD 0) s).1 = r.getLsbD (7 - n)) : ByteLoop d r n (owTurn s) where
  count := by have := h.count; omega
  bitcnt := by
    have h1 := h.bitcnt
    have h2 := h.count
    simp only [owTurn, owBit_keeps, BitVec.toNat_add]
    rw [h1]
    simp
    omega
  sr := by
    intro j
    have h2 := h.count
    have := h.sr (1 + j)
    simp only [owTurn, owBit_keeps, BitVec.getLsbD_ushiftRight]
    rw [this]
    congr 1
    omega
  rx := by
    intro j
    have h1 := h.bitcnt
    have h2 := h.count
    simp only [owTurn, owBit_keeps]
    rw [putBit_getLsbD _ _ _ _ (by omega), hv, h1, h.rx]
    by_cases hj : j = 7 - n
    · rw [if_pos (by omega), hj, decide_eq_true (show 7 - n < 8 - n by omega), Bool.true_and]
    · rw [if_neg (by omega)]
      congr 1
      exact decide_eq_decide.mpr ⟨fun _ => by omega, fun _ => by omega⟩

theorem byteLoop_end {d r : Byte} {s : State} (h : ByteLoop d r 0 s) :
    s.rx = r ∧ s.sr = 0#8 ∧ s.bitcnt = 8#4 := by
  refine ⟨?_, ?_, ?_⟩
  · apply BitVec.eq_of_getLsbD_eq
    intro j hj
    rw [h.rx]
    simp [hj]
  · apply BitVec.eq_of_getLsbD_eq
    intro j hj
    rw [h.sr]
    simp
  · apply BitVec.eq_of_toNat_eq
    rw [h.bitcnt]
    rfl

/-- The bit of `SR` that is next is the bit of `d` of this slot. -/
theorem byteLoop_next {d r : Byte} {n : Nat} {s : State} (h : ByteLoop d r (n + 1) s) :
    s.sr.getLsbD 0 = d.getLsbD (7 - n) := by
  have := h.count
  rw [h.sr]
  congr 1
  omega

/-- `RES[k] = d[k] and e_k` (R132). -/
theorem owByte_answers (d e : Byte) (rest : Env) {s : State} (he : s.env = slotAnswers d e rest) :
    (owByte d s).rx = d &&& e ∧ (owByte d s).env = rest := by
  let P : Nat → State → Prop := fun n s =>
    ByteLoop d (d &&& e) n s ∧ s.env = slotAnswersFrom d e rest n
  have key : P 0 (owByte d s) := by
    refine owBits_induct (P := P) ?_ 8 _ ⟨byteLoop_start d _ s, he⟩
    rintro n u ⟨hl, hu⟩
    have hb := byteLoop_next hl
    cases hd : d.getLsbD (7 - n) with
    | false =>
      rw [hd] at hb
      have hv := owBit_low u
      refine ⟨byteLoop_turn hl (by rw [hb, hv.1]; simp [hd]), ?_⟩
      simp only [slotAnswersFrom, hd] at hu
      rw [owTurn_env hb, hv.2]
      simpa using hu
    | true =>
      rw [hd] at hb
      simp only [slotAnswersFrom, hd, if_true] at hu
      have hv := owBit_answer hu
      refine ⟨byteLoop_turn hl (by rw [hb, hv.1]; simp [hd]), ?_⟩
      rw [owTurn_env hb, hv.2]
  exact ⟨(byteLoop_end key.1).1, key.2⟩

/-- On a constant line a byte reads as itself, or as zero (R132, R133). -/
theorem owByte_level (d : Byte) {v : Bool} {s : State} (he : s.env = .level v) :
    (owByte d s).rx = (if v then d else 0#8) ∧ (owByte d s).env = .level v := by
  let P : Nat → State → Prop := fun n s =>
    ByteLoop d (if v then d else 0#8) n s ∧ s.env = .level v
  have key : P 0 (owByte d s) := by
    refine owBits_induct (P := P) ?_ 8 _ ⟨byteLoop_start d _ s, he⟩
    rintro n u ⟨hl, hu⟩
    have hb := byteLoop_next hl
    cases hd : d.getLsbD (7 - n) with
    | false =>
      rw [hd] at hb
      have hv := owBit_low u
      exact ⟨byteLoop_turn hl (by rw [hb, hv.1]; cases v <;> simp [hd]), by
        rw [owTurn_env hb, hv.2, hu]⟩
    | true =>
      rw [hd] at hb
      have hv := owBit_level hu
      exact ⟨byteLoop_turn hl (by rw [hb, hv.1]; cases v <;> simp [hd]), by
        rw [owTurn_env hb, hv.2]⟩
  exact ⟨(byteLoop_end key.1).1, key.2⟩

/-- On every line: some byte is read, and a written 0 reads 0 (R129, R131). -/
theorem owByte_reads (d : Byte) (s : State) :
    (owByte d s).rx &&& ~~~d = 0#8 ∧ (owByte d s).sr = 0#8 ∧ (owByte d s).bitcnt = 8#4 := by
  let P : Nat → State → Prop := fun n s => ∃ r : Byte, r &&& ~~~d = 0#8 ∧ ByteLoop d r n s
  have key : P 0 (owByte d s) := by
    refine owBits_induct (P := P) ?_ 8 _ ⟨0#8, by simp, byteLoop_start d _ s⟩
    rintro n u ⟨r, hr, hl⟩
    have hb := byteLoop_next hl
    have hn := hl.count
    let w := putBit r (7 - n) (owBit (u.sr.getLsbD 0) u).1
    have hw : ByteLoop d w (n + 1) u :=
      { count := hl.count, bitcnt := hl.bitcnt, sr := hl.sr,
        rx := by
          intro j
          rw [hl.rx, putBit_getLsbD _ _ _ _ (by omega)]
          by_cases hj : j < 8 - (n + 1)
          · rw [if_neg (show j ≠ 7 - n by omega)]
          · rw [decide_eq_false hj, Bool.false_and, Bool.false_and] }
    refine ⟨w, ?_, byteLoop_turn hw ?_⟩
    · apply BitVec.eq_of_getLsbD_eq
      intro j hj
      have hrj : (r.getLsbD j && (~~~d).getLsbD j) = (0#8).getLsbD j := by
        rw [← BitVec.getLsbD_and, hr]
      simp only [BitVec.getLsbD_and, w, putBit_getLsbD _ _ _ _ (show 7 - n < 8 by omega)]
      by_cases hjn : j = 7 - n
      · rw [if_pos hjn, hb, hjn]
        cases hd : d.getLsbD (7 - n) with
        | true => simp [hd]
        | false => simp [(owBit_low u).1]
      · rw [if_neg hjn]
        exact hrj
    · rw [putBit_getLsbD _ _ _ _ (by omega), if_pos rfl]
  obtain ⟨r, hr, hl⟩ := key
  have := byteLoop_end hl
  exact ⟨by rw [this.1]; exact hr, this.2⟩

/-- After a byte the pin is released, `IE` is as before, no delay runs. -/
@[simp] theorem owByte_sets (d : Byte) (s : State) :
    (owByte d s).dirOw = false ∧ (owByte d s).latOw = false ∧ (owByte d s).ie = s.ie ∧
    (owByte d s).dly = 0#20 := by
  have key : ∀ n u, (owBits (n + 1) u).dirOw = false ∧ (owBits (n + 1) u).latOw = false ∧
      (owBits (n + 1) u).ie = u.ie ∧ (owBits (n + 1) u).dly = 0#20 := by
    intro n
    induction n with
    | zero => intro u; simp [owBits]
    | succ n ih =>
      intro u
      rw [owBits_succ]
      have := ih (owTurn u)
      simpa [owTurn] using this
  simpa [owByte] using key 7 { s with sr := d, rx := 0#8, bitcnt := 0#4 }

/-- How long a byte lasts (R131). -/
theorem owByte_now_le (d : Byte) (s : State) :
    s.now + 8 * (60 + s.params.tRec.toNat) ≤ (owByte d s).now := by
  have key : ∀ n u, u.now + n * (60 + u.params.tRec.toNat) ≤ (owBits n u).now := by
    intro n
    induction n with
    | zero => intro u; simp [owBits]
    | succ n ih =>
      intro u
      rw [owBits_succ]
      have h1 := ih (owTurn u)
      have h2 := owBit_now_le (u.sr.getLsbD 0) u
      simp only [owTurn, owBit_keeps] at h1 ⊢
      refine le_trans ?_ h1
      rw [Nat.succ_mul]
      omega
  simpa [owByte] using key 8 { s with sr := d, rx := 0#8, bitcnt := 0#4 }

theorem owByte_now {s : State} (hie : s.ie = false) (d : Byte) :
    (owByte d s).now = s.now + 8 * (60 + s.params.tRec.toNat) := by
  have key : ∀ n u, u.ie = false → (owBits n u).now = u.now + n * (60 + u.params.tRec.toNat) := by
    intro n
    induction n with
    | zero => intro u _; simp [owBits]
    | succ n ih =>
      intro u hu
      rw [owBits_succ, ih (owTurn u) (by simp [owTurn, hu])]
      have h2 := owBit_now hu (u.sr.getLsbD 0)
      simp only [owTurn, owBit_keeps, h2]
      rw [Nat.succ_mul]
      omega
  simpa [owByte] using key 8 { s with sr := d, rx := 0#8, bitcnt := 0#4 } hie

end Sys2Proof.Machine
end

