-- ==== Sys2Proof/Laws/OneWireReset.lean ====
section
/-! SUPPORT. What the reset sequence does: the idle check on a line that rises and on one that does
not, the pulse, the presence decision (41_onewire.md R121 to R125). -/

namespace Sys2Proof.Machine

/-! ### The idle check -/

/-- One low sample of the idle check, with its count and its delay. -/
def idleTurn (s : State) : State :=
  wait Config.tPoll { (sample .ow s).2 with retry := (sample .ow s).2.retry - 1#8 }

/-- The idle check, one sample unfolded. -/
theorem idleCheck_succ (n : Nat) (s : State) :
    idleCheck (n + 1) s =
      if (sample .ow s).1 then (true, (sample .ow s).2)
      else if s.retry = 1#8 then
        (false, { (sample .ow s).2 with retry := (sample .ow s).2.retry - 1#8 })
      else idleCheck n (idleTurn s) := by
  have h : ((sample .ow s).2.retry - 1#8 = 0#8) ↔ s.retry = 1#8 := by
    rw [(sample_keeps .ow s).2.2.2.2.2.2.2.2.2.2.2.2.2.2.2.2.2.2.1]
    constructor
    · intro h
      have := congrArg (· + 1#8) h
      simpa using this
    · rintro h
      simp [h]
  simp only [idleCheck, h, idleTurn]

/-- A turn of the idle check leaves the pin, the masking and the rest of the block alone. -/
theorem idleTurn_sets (s : State) :
    (idleTurn s).dirOw = s.dirOw ∧ (idleTurn s).ie = s.ie ∧ (idleTurn s).ports = s.ports ∧
    (idleTurn s).dly = 0#20 ∧ (idleTurn s).retry = s.retry - 1#8 ∧
    (idleTurn s).trace = (sample .ow s).2.trace ∧ (idleTurn s).env = (sample .ow s).2.env ∧
    s.now + 1 ≤ (idleTurn s).now ∧ (s.ie = false → (idleTurn s).now = s.now + 1) := by
  refine ⟨by simp [idleTurn], by simp [idleTurn], by simp [idleTurn], by simp [idleTurn],
    by simp [idleTurn], by simp [idleTurn], by simp [idleTurn], ?_, ?_⟩
  · have := wait_now_le Config.tPoll
      { (sample .ow s).2 with retry := (sample .ow s).2.retry - 1#8 }
    simpa [idleTurn, Config.tPoll] using this
  · intro h
    rw [idleTurn, wait_now_of_ie_false (by simp [h])]
    simp [Config.tPoll]

/-- On a line that reads low `k` times and then high, within the budget, the check succeeds at the
first high sample (R121). -/
theorem idleCheck_rises (k n : Nat) (rest : Env) {s : State} (hd : s.dirOw = false)
    (he : s.env = lowsThen k (.answer true rest)) (hn : k < n) (hr : s.retry.toNat = n) :
    ∃ lows, (idleCheck n s).1 = true ∧ (idleCheck n s).2.env = rest ∧
      s.now + k ≤ (idleCheck n s).2.now ∧
      (s.ie = false → (idleCheck n s).2.now = s.now + k) ∧
      (idleCheck n s).2.trace =
        s.trace ++ lows ++ [.sample (idleCheck n s).2.now .ow true true] ∧
      lows.length = k ∧ (∀ e ∈ lows, ∃ m, e = .sample m .ow false true) ∧
      (idleCheck n s).2.retry.toNat = n - k := by
  induction k generalizing n s with
  | zero =>
    obtain ⟨n, rfl⟩ : ∃ m, n = m + 1 := ⟨n - 1, by omega⟩
    have hs := sample_answer hd he
    have ht := sample_trace .ow s
    rw [hs.1] at ht
    rw [idleCheck_succ, if_pos hs.1]
    exact ⟨[], rfl, hs.2.1, by simp, by simp, by simpa [State.dir, hd] using ht, rfl, by simp,
      by simp [hr]⟩
  | succ k ih =>
    obtain ⟨n, rfl⟩ : ∃ m, n = m + 1 := ⟨n - 1, by omega⟩
    have hs := sample_answer hd he
    have ht := sample_trace .ow s
    rw [hs.1] at ht
    have hr1 : s.retry ≠ 1#8 := by
      intro h
      rw [h] at hr
      simp at hr
      omega
    have hlt := s.retry.isLt
    have hi := idleTurn_sets s
    rw [idleCheck_succ, if_neg (by simp [hs.1]), if_neg hr1]
    obtain ⟨lows, h1, h2, h3, h4, h5, h6, h7, h8⟩ := ih n (s := idleTurn s)
      (by rw [hi.1, hd]) (by rw [hi.2.2.2.2.2.2.1, hs.2.1]) (by omega) (by
        rw [hi.2.2.2.2.1, BitVec.toNat_sub]
        simp
        omega)
    have hnow := hi.2.2.2.2.2.2.2.1
    refine ⟨.sample s.now .ow false true :: lows, h1, h2, by omega, ?_, ?_, by simp [h6], ?_,
      by omega⟩
    · intro h
      have := hi.2.2.2.2.2.2.2.2 h
      rw [h4 (by rw [hi.2.1, h])]
      omega
    · rw [h5, hi.2.2.2.2.2.1, ht]
      simp [State.dir, hd]
    · intro e he'
      rcases List.mem_cons.mp he' with rfl | he'
      · exact ⟨_, rfl⟩
      · exact h7 e he'

/-- On a line that reads low as often as the budget allows the check fails (R121). -/
theorem idleCheck_stuck (n : Nat) (rest : Env) {s : State} (hd : s.dirOw = false)
    (he : s.env = lowsThen (n + 1) rest) (hr : s.retry.toNat = n + 1) :
    ∃ lows, (idleCheck (n + 1) s).1 = false ∧ (idleCheck (n + 1) s).2.env = rest ∧
      s.now + n ≤ (idleCheck (n + 1) s).2.now ∧
      (s.ie = false → (idleCheck (n + 1) s).2.now = s.now + n) ∧
      (idleCheck (n + 1) s).2.trace = s.trace ++ lows ∧ lows.length = n + 1 ∧
      (∀ e ∈ lows, ∃ m, e = .sample m .ow false true) ∧
      (idleCheck (n + 1) s).2.retry = 0#8 := by
  induction n generalizing s with
  | zero =>
    have hs := sample_answer hd he
    have ht := sample_trace .ow s
    rw [hs.1] at ht
    have hr1 : s.retry = 1#8 := BitVec.eq_of_toNat_eq (by simpa using hr)
    rw [idleCheck_succ, if_neg (by simp [hs.1]), if_pos hr1]
    exact ⟨[.sample s.now .ow false true], rfl, hs.2.1, by simp, by simp,
      by simpa [State.dir, hd] using ht, rfl, by simp, by simp [hr1]⟩
  | succ n ih =>
    have hs := sample_answer hd he
    have ht := sample_trace .ow s
    rw [hs.1] at ht
    have hr1 : s.retry ≠ 1#8 := by
      intro h
      rw [h] at hr
      simp at hr
    have hlt := s.retry.isLt
    have hi := idleTurn_sets s
    rw [idleCheck_succ, if_neg (by simp [hs.1]), if_neg hr1]
    obtain ⟨lows, h1, h2, h3, h4, h5, h6, h7, h8⟩ := ih (s := idleTurn s)
      (by rw [hi.1, hd]) (by rw [hi.2.2.2.2.2.2.1, hs.2.1]) (by
        rw [hi.2.2.2.2.1, BitVec.toNat_sub]
        simp
        omega)
    have hnow := hi.2.2.2.2.2.2.2.1
    refine ⟨.sample s.now .ow false true :: lows, h1, h2, by omega, ?_, ?_, by simp [h6], ?_, h8⟩
    · intro h
      have := hi.2.2.2.2.2.2.2.2 h
      rw [h4 (by rw [hi.2.1, h])]
      omega
    · rw [h5, hi.2.2.2.2.2.1, ht]
      simp [State.dir, hd]
    · intro e he'
      rcases List.mem_cons.mp he' with rfl | he'
      · exact ⟨_, rfl⟩
      · exact h7 e he'

/-- On a line held low for good the check fails and the environment is as it was. -/
theorem idleCheck_level_low (n : Nat) {s : State} (hd : s.dirOw = false)
    (he : s.env = .level false) (hr : s.retry.toNat = n + 1) :
    (idleCheck (n + 1) s).1 = false ∧ (idleCheck (n + 1) s).2.env = .level false := by
  induction n generalizing s with
  | zero =>
    have hs := sample_level hd he
    have hr1 : s.retry = 1#8 := BitVec.eq_of_toNat_eq (by simpa using hr)
    rw [idleCheck_succ, if_neg (by simp [hs.1]), if_pos hr1]
    exact ⟨rfl, hs.2.1⟩
  | succ n ih =>
    have hs := sample_level hd he
    have hr1 : s.retry ≠ 1#8 := by
      intro h
      rw [h] at hr
      simp at hr
    have hlt := s.retry.isLt
    have hi := idleTurn_sets s
    rw [idleCheck_succ, if_neg (by simp [hs.1]), if_neg hr1]
    exact ih (s := idleTurn s) (by rw [hi.1, hd]) (by rw [hi.2.2.2.2.2.2.1, hs.2.1]) (by
      rw [hi.2.2.2.2.1, BitVec.toNat_sub]
      simp
      omega)

/-- A failed check of more than one sample has waited, so no delay is left loaded. -/
theorem idleCheck_dly (n : Nat) (s : State) (hr : s.retry.toNat = n) (h : s.dly = 0#20 ∨ 2 ≤ n)
    (hf : (idleCheck n s).1 = false) : (idleCheck n s).2.dly = 0#20 := by
  induction n generalizing s with
  | zero => simpa [idleCheck] using h
  | succ n ih =>
    have hi := idleTurn_sets s
    have hlt := s.retry.isLt
    rw [idleCheck_succ] at hf ⊢
    split at hf
    · cases hf
    · next h1 =>
      rw [if_neg h1]
      split at hf
      · next h2 =>
        rw [if_pos h2]
        rw [h2] at hr
        simp at hr
        rcases h with h | h
        · simpa using h
        · omega
      · next h2 =>
        rw [if_neg h2]
        refine ih (idleTurn s) ?_ (.inl hi.2.2.2.1) hf
        rw [hi.2.2.2.2.1, BitVec.toNat_sub]
        simp
        omega

/-- The idle check never ends before it starts. -/
theorem idleCheck_now_le (n : Nat) (s : State) : s.now ≤ (idleCheck n s).2.now := by
  induction n generalizing s with
  | zero => simp [idleCheck]
  | succ n ih =>
    have hi := idleTurn_sets s
    rw [idleCheck_succ]
    split
    · simp
    · split
      · simp
      · have := ih (idleTurn s)
        omega

/-! ### The pulse and the whole sequence -/

/-- After the presence sample: pin released, `IE` restored, 550 us gone (R122). -/
theorem resetPulse_sets (s : State) :
    (resetPulse s).2.dirOw = false ∧ (resetPulse s).2.latOw = false ∧
    (resetPulse s).2.ie = s.ie ∧ (resetPulse s).2.dly = 0#20 ∧
    (resetPulse s).2.now = s.now + 550 := by
  simp [resetPulse, Config.tRstl, Config.tPds]

theorem resetPulse_trace {s : State} (h : s.dirOw = false) :
    (resetPulse s).2.trace = s.trace ++
      [.pin s.now .ow .low, .pin (s.now + 480) .ow .z,
       .sample (s.now + 550) .ow (resetPulse s).1 true] := by
  have hout : (critEnter s).out .ow = .z := by simp [State.out, State.dir, outOf, h]
  simp only [resetPulse, critExit_keeps, sample_trace, waitNi_keeps]
  rw [release_trace (by simp)]
  simp [driveLow_trace, hout, State.dir, Config.tRstl, Config.tPds]

theorem resetPulse_ports (s : State) :
    (resetPulse s).2.ports =
      s.ports ++ (if s.ie then [.ie s.now false, .ie (s.now + 550) true] else []) := by
  simp only [resetPulse]
  rw [critExit_ports (by simp)]
  cases hie : s.ie <;> simp [critEnter_ports, hie, Config.tRstl, Config.tPds]

theorem resetPulse_answer {s : State} {v : Bool} {rest : Env} (he : s.env = .answer v rest) :
    (resetPulse s).1 = v ∧ (resetPulse s).2.env = rest := by
  have hs := sample_answer
    (s := waitNi Config.tPds (setDir .ow false (waitNi Config.tRstl
      (setDir .ow true (setLat .ow false (critEnter s)))))) (by simp) (v := v) (rest := rest)
    (by simp [he])
  simp [resetPulse, hs]

theorem resetPulse_level {s : State} {v : Bool} (he : s.env = .level v) :
    (resetPulse s).1 = v ∧ (resetPulse s).2.env = .level v := by
  have hs := sample_level
    (s := waitNi Config.tPds (setDir .ow false (waitNi Config.tRstl
      (setDir .ow true (setLat .ow false (critEnter s)))))) (by simp) (v := v) (by simp [he])
  simp [resetPulse, hs]

/-- The start of a reset sequence: latch low, pin released, the budget loaded (R122). -/
def resetStart (s : State) : State :=
  { setDir .ow false (setLat .ow false s) with retry := BitVec.ofNat 8 Config.nPoll }

/-- The start of a reset sequence releases the pin and masks nothing. -/
theorem resetStart_sets (s : State) :
    (resetStart s).dirOw = false ∧ (resetStart s).latOw = false ∧ (resetStart s).ie = s.ie ∧
    (resetStart s).now = s.now ∧ (resetStart s).ports = s.ports ∧ (resetStart s).env = s.env := by
  simp [resetStart]

/-- Either the idle check fails, or the pulse decides (R120). -/
theorem owReset_cases (s : State) :
    ((idleCheck 128 (resetStart s)).1 = false ∧
      owReset s = { (idleCheck 128 (resetStart s)).2 with pres := .busError }) ∨
    ((idleCheck 128 (resetStart s)).1 = true ∧
      owReset s =
        { wait Config.tPdh (resetPulse (idleCheck 128 (resetStart s)).2).2 with
          pres := if (resetPulse (idleCheck 128 (resetStart s)).2).1 then .noDevice
            else .present }) := by
  have h : owReset s = (if (idleCheck 128 (resetStart s)).1 then
        { wait Config.tPdh (resetPulse (idleCheck 128 (resetStart s)).2).2 with
          pres := if (resetPulse (idleCheck 128 (resetStart s)).2).1 then .noDevice
            else .present }
      else { (idleCheck 128 (resetStart s)).2 with pres := .busError }) := rfl
  cases hc : (idleCheck 128 (resetStart s)).1 with
  | false => exact .inl ⟨rfl, by rw [h, hc]; rfl⟩
  | true => exact .inr ⟨rfl, by rw [h, hc]; rfl⟩

/-- On every path a reset ends with the pin released, the latch low, `IE` as on entry and no delay
loaded (R122). -/
@[simp] theorem owReset_sets (s : State) :
    (owReset s).dirOw = false ∧ (owReset s).latOw = false ∧ (owReset s).ie = s.ie ∧
    (owReset s).dly = 0#20 := by
  have hp := resetPulse_sets (idleCheck 128 (resetStart s)).2
  rcases owReset_cases s with ⟨hf, h⟩ | ⟨-, h⟩
  · rw [h]
    have := idleCheck_dly 128 (resetStart s) rfl (.inr (by omega)) hf
    have hs := resetStart_sets s
    simp [hs, this]
  · rw [h]
    have hs := resetStart_sets s
    simp [hp, hs]

/-- A reset never ends before it starts. -/
theorem owReset_now_le (s : State) : s.now ≤ (owReset s).now := by
  have hi := idleCheck_now_le 128 (resetStart s)
  have hs : (resetStart s).now = s.now := by simp [resetStart]
  have hp := resetPulse_sets (idleCheck 128 (resetStart s)).2
  have hw := wait_now_le Config.tPdh (resetPulse (idleCheck 128 (resetStart s)).2).2
  rcases owReset_cases s with ⟨-, h⟩ | ⟨-, h⟩
  · rw [h]
    show s.now ≤ (idleCheck 128 (resetStart s)).2.now
    omega
  · rw [h]
    show s.now ≤ (wait Config.tPdh (resetPulse (idleCheck 128 (resetStart s)).2).2).now
    omega

/-- A reset on a line that reads low `k` times, then high, with the answer `v` to the presence
sample (R124, R125). -/
theorem owReset_rises (k : Nat) (hk : k ≤ 127) (v : Bool) (rest : Env) {s : State}
    (he : s.env = lowsThen k (.answer true (.answer v rest))) :
    ∃ t1 lows, s.now + k ≤ t1 ∧ t1 + 960 ≤ (owReset s).now ∧
      (s.ie = false → t1 = s.now + k ∧ (owReset s).now = t1 + 960) ∧
      (owReset s).trace = (resetStart s).trace ++ lows ++
        [.sample t1 .ow true true, .pin t1 .ow .low, .pin (t1 + 480) .ow .z,
         .sample (t1 + 550) .ow v true] ∧
      lows.length = k ∧ (∀ e ∈ lows, ∃ n, e = .sample n .ow false true) ∧
      (owReset s).ports = s.ports ++ (if s.ie then [.ie t1 false, .ie (t1 + 550) true] else []) ∧
      (owReset s).pres = (if v then .noDevice else .present) ∧
      (owReset s).retry = BitVec.ofNat 8 (128 - k) ∧ (owReset s).env = rest := by
  obtain ⟨lows, h1, h2, h3, h4, h5, h6, h7, h8⟩ := idleCheck_rises k 128 (.answer v rest)
    (s := resetStart s) (by simp [resetStart]) (by simp [resetStart, he]) (by omega) rfl
  have hc := owReset_cases s
  rw [h1] at hc
  rcases hc with ⟨hf, -⟩ | ⟨-, h⟩
  · cases hf
  generalize hr : (idleCheck 128 (resetStart s)).2 = r at *
  have hrd : r.dirOw = false := by rw [← hr]; simp [resetStart]
  have hrie : r.ie = s.ie := by rw [← hr]; simp [resetStart]
  have hrports : r.ports = s.ports := by rw [← hr]; simp [resetStart]
  have hsn : (resetStart s).now = s.now := by simp [resetStart]
  have hsi : (resetStart s).ie = s.ie := by simp [resetStart]
  have hp := resetPulse_sets r
  have ha := resetPulse_answer h2
  have hw := wait_now_le Config.tPdh (resetPulse r).2
  have hT : Config.tPdh.toNat = 410 := rfl
  rw [hT] at hw
  refine ⟨r.now, lows, by omega, ?_, ?_, ?_, h6, h7, ?_, ?_, ?_, ?_⟩
  · rw [h]
    show r.now + 960 ≤ (wait Config.tPdh (resetPulse r).2).now
    omega
  · intro hie
    refine ⟨by rw [h4 (by rw [hsi, hie]), hsn], ?_⟩
    rw [h]
    show (wait Config.tPdh (resetPulse r).2).now = r.now + 960
    rw [wait_now_of_ie_false (by rw [hp.2.2.1, hrie, hie])]
    omega
  · rw [h]
    simp only [wait_keeps, resetPulse_trace hrd, h5, ha.1]
    simp
  · rw [h]
    simp only [wait_keeps, resetPulse_ports, hrports, hrie]
  · rw [h, ha.1]
  · rw [h]
    simp only [wait_keeps, resetPulse_keeps]
    exact BitVec.eq_of_toNat_eq (by rw [h8]; simp; omega)
  · rw [h]
    simp [ha.2]

/-- A reset on a line that reads low 128 times: no pulse (R121). -/
theorem owReset_stuck (rest : Env) {s : State} (he : s.env = lowsThen 128 rest) :
    ∃ lows, (owReset s).pres = .busError ∧ (owReset s).retry = 0#8 ∧ (owReset s).env = rest ∧
      s.now + 127 ≤ (owReset s).now ∧ (s.ie = false → (owReset s).now = s.now + 127) ∧
      (owReset s).trace = (resetStart s).trace ++ lows ∧ lows.length = 128 ∧
      (∀ e ∈ lows, ∃ n, e = .sample n .ow false true) ∧ (owReset s).ports = s.ports := by
  obtain ⟨lows, h1, h2, h3, h4, h5, h6, h7, h8⟩ := idleCheck_stuck 127 rest
    (s := resetStart s) (by simp [resetStart]) (by simp [resetStart, he]) rfl
  have hc := owReset_cases s
  rw [h1] at hc
  rcases hc with ⟨-, h⟩ | ⟨hf, -⟩
  · have hsn : (resetStart s).now = s.now := by simp [resetStart]
    have hsi : (resetStart s).ie = s.ie := by simp [resetStart]
    rw [h]
    refine ⟨lows, rfl, h8, h2, ?_, ?_, ?_, h6, h7, by simp [resetStart]⟩
    · rw [← hsn]
      exact h3
    · intro hie
      rw [← hsn]
      exact h4 (by rw [hsi, hie])
    · exact h5
  · cases hf

/-- A reset on a line held low for good: a bus error, the environment as it was. -/
theorem owReset_level_low {s : State} (he : s.env = .level false) :
    (owReset s).pres = .busError ∧ (owReset s).env = .level false := by
  have h1 := idleCheck_level_low 127 (s := resetStart s) (by simp [resetStart])
    (by simp [resetStart, he]) rfl
  rcases owReset_cases s with ⟨-, h⟩ | ⟨hf, -⟩
  · rw [h]
    exact ⟨rfl, h1.2⟩
  · rw [h1.1] at hf
    cases hf

/-- A reset on a line that is always high: no device, the environment as it was. -/
theorem owReset_level_high {s : State} (he : s.env = .level true) :
    (owReset s).pres = .noDevice ∧ (owReset s).env = .level true := by
  have hl := sample_level (s := resetStart s) (by simp [resetStart]) (v := true)
    (by simp [resetStart, he])
  have hi : idleCheck 128 (resetStart s) = (true, (sample .ow (resetStart s)).2) := by
    rw [show (128 : Nat) = 127 + 1 from rfl, idleCheck_succ, if_pos hl.1]
  rcases owReset_cases s with ⟨hf, h⟩ | ⟨-, h⟩
  · rw [hi] at hf
    cases hf
  · have hp := resetPulse_level (s := (idleCheck 128 (resetStart s)).2) (v := true)
      (by rw [hi]; exact hl.2.1)
    rw [h]
    simp [hp]

/-- A reset on a line that is high at once and high at the presence sample: no device (R124). -/
theorem owReset_absence (rest : Env) {s : State}
    (he : s.env = .answer true (.answer true rest)) :
    (owReset s).pres = .noDevice ∧ (owReset s).env = rest := by
  obtain ⟨t1, lows, h⟩ := owReset_rises 0 (by omega) true rest (s := s) he
  exact ⟨h.2.2.2.2.2.2.2.1, h.2.2.2.2.2.2.2.2.2⟩

/-- A reset of a device that answers: present (R124). -/
theorem owReset_presence (rest : Env) {s : State} (he : s.env = presenceAnswers rest) :
    (owReset s).pres = .present ∧ (owReset s).env = rest := by
  have h1 := idleCheck_rises 0 128 (.answer false rest) (s := resetStart s)
    (by simp [resetStart]) (by simp [resetStart, he, presenceAnswers, lowsThen]) (by omega) rfl
  obtain ⟨lows, h1, h2, -⟩ := h1
  rcases owReset_cases s with ⟨hf, -⟩ | ⟨-, h⟩
  · rw [h1] at hf
    cases hf
  · have ha := resetPulse_answer h2
    rw [h]
    simp [ha]

/-- Such a reset takes 960 us with interrupts off (R251). -/
theorem owReset_presence_now (rest : Env) {s : State} (hie : s.ie = false)
    (he : s.env = presenceAnswers rest) : (owReset s).now = s.now + 960 := by
  have hx := idleCheck_rises 0 128 (.answer false rest) (s := resetStart s)
    (by simp [resetStart]) (by simp [resetStart, he, presenceAnswers, lowsThen]) (by omega) rfl
  obtain ⟨lows, h1, -, -, h4, -⟩ := hx
  have h4 := h4 (by simp [resetStart, hie])
  rcases owReset_cases s with ⟨hf, -⟩ | ⟨-, h⟩
  · rw [h1] at hf
    cases hf
  · rw [h]
    show (wait Config.tPdh (resetPulse (idleCheck 128 (resetStart s)).2).2).now = s.now + 960
    have hp := resetPulse_sets (idleCheck 128 (resetStart s)).2
    have hT : Config.tPdh.toNat = 410 := rfl
    have hsn : (resetStart s).now = s.now := by simp [resetStart]
    rw [wait_now_of_ie_false (by rw [hp.2.2.1]; simp [resetStart, hie]), hp.2.2.2.2, h4, hsn, hT]

end Sys2Proof.Machine
end

