-- ==== Sys2Proof/Laws/Memory.lean ====
section
/-! SUPPORT. The laws of the two buffers: what a read after a write gives, and that every memory
operation keeps the canonical form (10_state.md R37, R42, 20_memory.md R51, R59). -/

namespace Sys2Proof.Machine

@[simp] theorem readByte_writeByte_same (m : Memory) (a : Nat) (v : Byte) :
    readByte (writeByte m a v) a = some v := by
  induction m with
  | nil => simp [writeByte, readByte]
  | cons c m ih =>
    unfold writeByte
    split
    · simp [readByte]
    · split
      · simp [readByte]
      · next h => simp [readByte, h, ih]

theorem readByte_writeByte_other (m : Memory) {a b : Nat} (v : Byte) (h : b ≠ a) :
    readByte (writeByte m a v) b = readByte m b := by
  induction m with
  | nil => simp [writeByte, readByte, h.symm]
  | cons c m ih =>
    unfold writeByte
    split
    · simp [readByte, h.symm]
    · split
      · next hc => simp [readByte, h.symm, hc]
      · simp [readByte, ih]

theorem readByte_writeByte (m : Memory) (a b : Nat) (v : Byte) :
    readByte (writeByte m a v) b = if b = a then some v else readByte m b := by
  split
  · next h => subst h; simp
  · next h => exact readByte_writeByte_other m v h

@[simp] theorem readByte_nil (a : Nat) : readByte ([] : Memory) a = none := rfl

/-- A byte that holds a value is that value. -/
theorem byteAt_of_read {m : Memory} {a : Nat} {v : Byte} (h : readByte m a = some v) :
    byteAt m a = v := by
  simp [byteAt, h]

/-- The tail of a buffer in canonical form is in canonical form. -/
theorem wf_tail {c : Host.Cell} {m : Memory} (h : Memory.wf (c :: m) = true) :
    Memory.wf m = true := by
  cases m with
  | nil => rfl
  | cons d m => simpa [Memory.wf] using (Bool.and_eq_true_iff.mp h).2

/-- Every index of a buffer in canonical form is below nine. -/
theorem wf_head_lt {c : Host.Cell} {m : Memory} (h : Memory.wf (c :: m) = true) : c.1 < 9 := by
  induction m generalizing c with
  | nil => simpa [Memory.wf] using h
  | cons d m ih =>
    simp only [Memory.wf, Bool.and_eq_true, decide_eq_true_eq] at h
    exact lt_trans h.1 (ih h.2)

/-- Putting a smaller index in front keeps the canonical form. -/
theorem wf_cons {c : Host.Cell} {m : Memory} (hm : Memory.wf m = true) (hc : c.1 < 9)
    (h : ∀ d ∈ m.head?, c.1 < d.1) : Memory.wf (c :: m) = true := by
  cases m with
  | nil => simpa [Memory.wf] using hc
  | cons d m => simpa [Memory.wf] using ⟨h d (by simp), hm⟩

/-- The first index of a buffer after a write. -/
theorem writeByte_head (m : Memory) (a : Nat) (v : Byte) :
    ∀ d ∈ (writeByte m a v).head?, d.1 = a ∨ d ∈ m.head? := by
  cases m with
  | nil => simp [writeByte]
  | cons c m =>
    unfold writeByte
    split
    · simp
    · split <;> simp

/-- A write below nine keeps the canonical form. -/
theorem writeByte_wf {m : Memory} (hm : Memory.wf m = true) {a : Nat} (ha : a < 9) (v : Byte) :
    Memory.wf (writeByte m a v) = true := by
  induction m with
  | nil => simpa [writeByte, Memory.wf] using ha
  | cons c m ih =>
    unfold writeByte
    split
    · next h => exact wf_cons hm ha (by simpa using h)
    · split
      · next hc =>
        refine wf_cons (wf_tail hm) ha fun d hd => ?_
        cases m with
        | nil => cases hd
        | cons e m =>
          simp only [Memory.wf, Bool.and_eq_true, decide_eq_true_eq] at hm
          simp only [List.head?_cons, Option.mem_def, Option.some.injEq] at hd
          subst hd
          simpa [hc] using hm.1
      · next h1 h2 =>
        refine wf_cons (ih (wf_tail hm)) (wf_head_lt hm) fun d hd => ?_
        rcases writeByte_head m a v d hd with h | h
        · omega
        · cases m with
          | nil => cases h
          | cons e m =>
            simp only [Memory.wf, Bool.and_eq_true, decide_eq_true_eq] at hm
            simp only [List.head?_cons, Option.mem_def, Option.some.injEq] at h
            subst h
            exact hm.1

/-- The buffers of the machine after reset are in canonical form. -/
theorem reset_buffers_wf :
    Memory.wf State.reset.sp = true ∧ Memory.wf State.reset.decbuf = true := by
  decide

/-- Nothing is unwritten among the indexes `is` exactly when each of them holds a value. -/
theorem firstUnwritten_none (m : Memory) (is : List Nat) :
    firstUnwritten m is = none ↔ ∀ i ∈ is, readByte m i ≠ none := by
  induction is with
  | nil => simp [firstUnwritten]
  | cons i is ih =>
    unfold firstUnwritten
    split
    · next h => simp_all
    · next h => simp_all

/-- The first unwritten index is one of those asked, holds no value, and all before it hold one. -/
theorem firstUnwritten_some {m : Memory} {is : List Nat} {j : Nat}
    (h : firstUnwritten m is = some j) : j ∈ is ∧ readByte m j = none := by
  induction is with
  | nil => cases h
  | cons i is ih =>
    unfold firstUnwritten at h
    split at h
    · next hi => cases h; exact ⟨by simp, by simpa using hi⟩
    · exact ⟨by simp [(ih h).1], (ih h).2⟩

/-- Among rising indexes, an unwritten one makes the first unwritten one come no later. -/
theorem firstUnwritten_le {m : Memory} {is : List Nat} {i : Nat} (hs : is.Pairwise (· ≤ ·))
    (hi : i ∈ is) (h : readByte m i = none) :
    ∃ j, firstUnwritten m is = some j ∧ j ≤ i ∧ readByte m j = none := by
  induction is with
  | nil => cases hi
  | cons k is ih =>
    unfold firstUnwritten
    split
    · next hk =>
      refine ⟨k, rfl, ?_, by simpa using hk⟩
      rcases List.mem_cons.mp hi with rfl | hi
      · exact le_refl _
      · exact (List.pairwise_cons.mp hs).1 i hi
    · next hk =>
      rcases List.mem_cons.mp hi with rfl | hi
      · simp [h] at hk
      · exact ih (List.pairwise_cons.mp hs).2 hi

/-- An index below every listed one holds no value. -/
theorem readByte_below {m : Memory} {a : Nat} (hm : Memory.wf m = true)
    (h : ∀ d ∈ m.head?, a < d.1) : readByte m a = none := by
  induction m with
  | nil => rfl
  | cons c m ih =>
    have hc : a < c.1 := h c (by simp)
    simp only [readByte, if_neg (Nat.ne_of_gt hc)]
    refine ih (wf_tail hm) fun d hd => ?_
    cases m with
    | nil => cases hd
    | cons e m =>
      simp only [Memory.wf, Bool.and_eq_true, decide_eq_true_eq] at hm
      simp only [List.head?_cons, Option.mem_def, Option.some.injEq] at hd
      subst hd
      exact lt_trans hc hm.1

/-- In canonical form, buffers that read the same are the same data. -/
theorem eq_of_reads {m n : Memory} (hm : Memory.wf m = true) (hn : Memory.wf n = true)
    (h : ∀ a, readByte m a = readByte n a) : m = n := by
  induction m generalizing n with
  | nil =>
    cases n with
    | nil => rfl
    | cons d n => simpa [readByte] using h d.1
  | cons c m ih =>
    cases n with
    | nil => simpa [readByte] using h c.1
    | cons d n =>
      have hc := h c.1
      have hd := h d.1
      simp only [readByte, if_true] at hc hd
      have key : c.1 = d.1 := by
        rcases Nat.lt_trichotomy c.1 d.1 with hlt | heq | hgt
        · rw [readByte_below (wf_tail hn), if_neg (Nat.ne_of_gt hlt)] at hc
          · cases hc
          · intro e he
            cases n with
            | nil => cases he
            | cons f n =>
              simp only [Memory.wf, Bool.and_eq_true, decide_eq_true_eq] at hn
              simp only [List.head?_cons, Option.mem_def, Option.some.injEq] at he
              subst he
              exact lt_trans hlt hn.1
        · exact heq
        · rw [readByte_below (wf_tail hm), if_neg (Nat.ne_of_gt hgt)] at hd
          · cases hd
          · intro e he
            cases m with
            | nil => cases he
            | cons f m =>
              simp only [Memory.wf, Bool.and_eq_true, decide_eq_true_eq] at hm
              simp only [List.head?_cons, Option.mem_def, Option.some.injEq] at he
              subst he
              exact lt_trans hgt hm.1
      rw [if_pos key.symm] at hc
      have hcd : c = d := Prod.ext key (by simpa using hc)
      subst hcd
      rw [ih (wf_tail hm) (wf_tail hn)]
      intro a
      by_cases ha : c.1 = a
      · have below : ∀ {k : Memory}, Memory.wf (c :: k) = true → readByte k a = none := by
          intro k hk
          refine readByte_below (wf_tail hk) fun e he => ?_
          cases k with
          | nil => cases he
          | cons f k =>
            simp only [Memory.wf, Bool.and_eq_true, decide_eq_true_eq] at hk
            simp only [List.head?_cons, Option.mem_def, Option.some.injEq] at he
            subst he
            exact ha ▸ hk.1
        rw [below hm, below hn]
      · simpa [readByte, ha] using h a

end Sys2Proof.Machine
end

