-- ==== Sys2Proof/Laws/SerialFrames.lean ====
section
/-! SUPPORT. What the procedures of the serial transmitter leave alone (44_serial.md R171, R174,
R178). -/

namespace Sys2Proof.Machine

/-- `tx_init()` writes the `TX` pin and `SER_INIT` alone. -/
@[simp] theorem txInit_keeps (s : State) :
    (txInit s).dirOw = s.dirOw ∧ (txInit s).latOw = s.latOw ∧ (txInit s).ie = s.ie ∧
    (txInit s).iesave = s.iesave ∧ (txInit s).busy = s.busy ∧ (txInit s).pres = s.pres ∧
    (txInit s).crcok = s.crcok ∧ (txInit s).err = s.err ∧ (txInit s).opc = s.opc ∧
    (txInit s).arg = s.arg ∧ (txInit s).res = s.res ∧ (txInit s).sr = s.sr ∧
    (txInit s).rx = s.rx ∧ (txInit s).crc = s.crc ∧ (txInit s).raw = s.raw ∧
    (txInit s).retry = s.retry ∧ (txInit s).bitcnt = s.bitcnt ∧ (txInit s).bytecnt = s.bytecnt ∧
    (txInit s).decptr = s.decptr ∧ (txInit s).dly = s.dly ∧ (txInit s).seq = s.seq ∧
    (txInit s).sp = s.sp ∧ (txInit s).decbuf = s.decbuf ∧ (txInit s).now = s.now ∧
    (txInit s).ports = s.ports ∧ (txInit s).draws = s.draws ∧ (txInit s).env = s.env ∧
    (txInit s).jitters = s.jitters ∧ (txInit s).offers = s.offers ∧ (txInit s).resets = s.resets ∧
    (txInit s).params = s.params := by
  unfold txInit
  split <;> simp

/-- A slot of a frame writes `LAT[TX]` and lets time pass. -/
@[simp] theorem txSlot_keeps (v : Bool) (s : State) :
    (txSlot v s).dirOw = s.dirOw ∧ (txSlot v s).latOw = s.latOw ∧ (txSlot v s).dirTx = s.dirTx ∧
    (txSlot v s).ie = s.ie ∧ (txSlot v s).iesave = s.iesave ∧ (txSlot v s).busy = s.busy ∧
    (txSlot v s).pres = s.pres ∧ (txSlot v s).crcok = s.crcok ∧ (txSlot v s).serInit = s.serInit ∧
    (txSlot v s).err = s.err ∧ (txSlot v s).opc = s.opc ∧ (txSlot v s).arg = s.arg ∧
    (txSlot v s).res = s.res ∧ (txSlot v s).sr = s.sr ∧ (txSlot v s).rx = s.rx ∧
    (txSlot v s).crc = s.crc ∧ (txSlot v s).raw = s.raw ∧ (txSlot v s).retry = s.retry ∧
    (txSlot v s).bitcnt = s.bitcnt ∧ (txSlot v s).bytecnt = s.bytecnt ∧
    (txSlot v s).decptr = s.decptr ∧ (txSlot v s).seq = s.seq ∧ (txSlot v s).sp = s.sp ∧
    (txSlot v s).decbuf = s.decbuf ∧ (txSlot v s).ports = s.ports ∧ (txSlot v s).draws = s.draws ∧
    (txSlot v s).env = s.env ∧ (txSlot v s).jitters = s.jitters ∧ (txSlot v s).offers = s.offers ∧
    (txSlot v s).resets = s.resets ∧ (txSlot v s).params = s.params := by
  simp [txSlot]

/-- The data bits write `LAT[TX]`, `SR`, `BITCNT` and let time pass. -/
@[simp] theorem txBits_keeps (n : Nat) (s : State) :
    (txBits n s).dirOw = s.dirOw ∧ (txBits n s).latOw = s.latOw ∧ (txBits n s).dirTx = s.dirTx ∧
    (txBits n s).ie = s.ie ∧ (txBits n s).iesave = s.iesave ∧ (txBits n s).busy = s.busy ∧
    (txBits n s).pres = s.pres ∧ (txBits n s).crcok = s.crcok ∧ (txBits n s).serInit = s.serInit ∧
    (txBits n s).err = s.err ∧ (txBits n s).opc = s.opc ∧ (txBits n s).arg = s.arg ∧
    (txBits n s).res = s.res ∧ (txBits n s).rx = s.rx ∧ (txBits n s).crc = s.crc ∧
    (txBits n s).raw = s.raw ∧ (txBits n s).retry = s.retry ∧ (txBits n s).bytecnt = s.bytecnt ∧
    (txBits n s).decptr = s.decptr ∧ (txBits n s).seq = s.seq ∧ (txBits n s).sp = s.sp ∧
    (txBits n s).decbuf = s.decbuf ∧ (txBits n s).ports = s.ports ∧ (txBits n s).draws = s.draws ∧
    (txBits n s).env = s.env ∧ (txBits n s).jitters = s.jitters ∧ (txBits n s).offers = s.offers ∧
    (txBits n s).resets = s.resets ∧ (txBits n s).params = s.params := by
  induction n generalizing s with
  | zero => simp [txBits]
  | succ n ih => simp [txBits, ih]

/-- `tx_byte(d)` writes what R174 lists and nothing else. -/
@[simp] theorem txByte_keeps (d : Byte) (s : State) :
    (txByte d s).dirOw = s.dirOw ∧ (txByte d s).latOw = s.latOw ∧ (txByte d s).busy = s.busy ∧
    (txByte d s).pres = s.pres ∧ (txByte d s).crcok = s.crcok ∧ (txByte d s).err = s.err ∧
    (txByte d s).opc = s.opc ∧ (txByte d s).arg = s.arg ∧ (txByte d s).res = s.res ∧
    (txByte d s).rx = s.rx ∧ (txByte d s).crc = s.crc ∧ (txByte d s).raw = s.raw ∧
    (txByte d s).retry = s.retry ∧ (txByte d s).bytecnt = s.bytecnt ∧
    (txByte d s).decptr = s.decptr ∧ (txByte d s).seq = s.seq ∧ (txByte d s).sp = s.sp ∧
    (txByte d s).decbuf = s.decbuf ∧ (txByte d s).env = s.env ∧ (txByte d s).offers = s.offers ∧
    (txByte d s).resets = s.resets ∧ (txByte d s).params = s.params := by
  simp [txByte]

/-- A byte pushed into `DECBUF` moves `DECPTR` and nothing else. -/
@[simp] theorem pushDec_keeps (c : Byte) (s : State) :
    (pushDec c s).dirOw = s.dirOw ∧ (pushDec c s).latOw = s.latOw ∧
    (pushDec c s).dirTx = s.dirTx ∧ (pushDec c s).latTx = s.latTx ∧ (pushDec c s).ie = s.ie ∧
    (pushDec c s).iesave = s.iesave ∧ (pushDec c s).busy = s.busy ∧ (pushDec c s).pres = s.pres ∧
    (pushDec c s).crcok = s.crcok ∧ (pushDec c s).serInit = s.serInit ∧
    (pushDec c s).err = s.err ∧ (pushDec c s).opc = s.opc ∧ (pushDec c s).arg = s.arg ∧
    (pushDec c s).res = s.res ∧ (pushDec c s).sr = s.sr ∧ (pushDec c s).rx = s.rx ∧
    (pushDec c s).crc = s.crc ∧ (pushDec c s).raw = s.raw ∧ (pushDec c s).retry = s.retry ∧
    (pushDec c s).bitcnt = s.bitcnt ∧ (pushDec c s).bytecnt = s.bytecnt ∧
    (pushDec c s).dly = s.dly ∧ (pushDec c s).seq = s.seq ∧ (pushDec c s).sp = s.sp ∧
    (pushDec c s).now = s.now ∧ (pushDec c s).trace = s.trace ∧ (pushDec c s).ports = s.ports ∧
    (pushDec c s).draws = s.draws ∧ (pushDec c s).env = s.env ∧
    (pushDec c s).jitters = s.jitters ∧ (pushDec c s).offers = s.offers ∧
    (pushDec c s).resets = s.resets ∧ (pushDec c s).params = s.params := by
  simp [pushDec]

/-- The digit loop writes `DECBUF` and `DECPTR` alone. -/
@[simp] theorem pushDigits_keeps (n m : Nat) (s : State) :
    (pushDigits n m s).dirOw = s.dirOw ∧ (pushDigits n m s).latOw = s.latOw ∧
    (pushDigits n m s).dirTx = s.dirTx ∧ (pushDigits n m s).latTx = s.latTx ∧
    (pushDigits n m s).ie = s.ie ∧ (pushDigits n m s).iesave = s.iesave ∧
    (pushDigits n m s).busy = s.busy ∧ (pushDigits n m s).pres = s.pres ∧
    (pushDigits n m s).crcok = s.crcok ∧ (pushDigits n m s).serInit = s.serInit ∧
    (pushDigits n m s).err = s.err ∧ (pushDigits n m s).opc = s.opc ∧
    (pushDigits n m s).arg = s.arg ∧ (pushDigits n m s).res = s.res ∧
    (pushDigits n m s).sr = s.sr ∧ (pushDigits n m s).rx = s.rx ∧ (pushDigits n m s).crc = s.crc ∧
    (pushDigits n m s).raw = s.raw ∧ (pushDigits n m s).retry = s.retry ∧
    (pushDigits n m s).bitcnt = s.bitcnt ∧ (pushDigits n m s).bytecnt = s.bytecnt ∧
    (pushDigits n m s).dly = s.dly ∧ (pushDigits n m s).seq = s.seq ∧
    (pushDigits n m s).sp = s.sp ∧ (pushDigits n m s).now = s.now ∧
    (pushDigits n m s).trace = s.trace ∧ (pushDigits n m s).ports = s.ports ∧
    (pushDigits n m s).draws = s.draws ∧ (pushDigits n m s).env = s.env ∧
    (pushDigits n m s).jitters = s.jitters ∧ (pushDigits n m s).offers = s.offers ∧
    (pushDigits n m s).resets = s.resets ∧ (pushDigits n m s).params = s.params := by
  induction n generalizing m s with
  | zero => simp [pushDigits]
  | succ n ih =>
    unfold pushDigits
    split
    · simp
    · simp [ih]

/-- The fill writes `DECBUF` and `DECPTR` alone. -/
@[simp] theorem fillDec_keeps (w : Half) (s : State) :
    (fillDec w s).dirOw = s.dirOw ∧ (fillDec w s).latOw = s.latOw ∧
    (fillDec w s).dirTx = s.dirTx ∧ (fillDec w s).latTx = s.latTx ∧ (fillDec w s).ie = s.ie ∧
    (fillDec w s).iesave = s.iesave ∧ (fillDec w s).busy = s.busy ∧ (fillDec w s).pres = s.pres ∧
    (fillDec w s).crcok = s.crcok ∧ (fillDec w s).serInit = s.serInit ∧
    (fillDec w s).err = s.err ∧ (fillDec w s).opc = s.opc ∧ (fillDec w s).arg = s.arg ∧
    (fillDec w s).res = s.res ∧ (fillDec w s).sr = s.sr ∧ (fillDec w s).rx = s.rx ∧
    (fillDec w s).crc = s.crc ∧ (fillDec w s).raw = s.raw ∧ (fillDec w s).retry = s.retry ∧
    (fillDec w s).bitcnt = s.bitcnt ∧ (fillDec w s).bytecnt = s.bytecnt ∧
    (fillDec w s).dly = s.dly ∧ (fillDec w s).seq = s.seq ∧ (fillDec w s).sp = s.sp ∧
    (fillDec w s).now = s.now ∧ (fillDec w s).trace = s.trace ∧ (fillDec w s).ports = s.ports ∧
    (fillDec w s).draws = s.draws ∧ (fillDec w s).env = s.env ∧
    (fillDec w s).jitters = s.jitters ∧ (fillDec w s).offers = s.offers ∧
    (fillDec w s).resets = s.resets ∧ (fillDec w s).params = s.params := by
  simp only [fillDec]
  (repeat' split) <;> simp

/-- The send loop writes `DECPTR` and what `tx_byte` writes. -/
@[simp] theorem sendDec_keeps (n : Nat) (s : State) :
    (sendDec n s).dirOw = s.dirOw ∧ (sendDec n s).latOw = s.latOw ∧ (sendDec n s).busy = s.busy ∧
    (sendDec n s).pres = s.pres ∧ (sendDec n s).crcok = s.crcok ∧ (sendDec n s).err = s.err ∧
    (sendDec n s).opc = s.opc ∧ (sendDec n s).arg = s.arg ∧ (sendDec n s).res = s.res ∧
    (sendDec n s).rx = s.rx ∧ (sendDec n s).crc = s.crc ∧ (sendDec n s).raw = s.raw ∧
    (sendDec n s).retry = s.retry ∧ (sendDec n s).bytecnt = s.bytecnt ∧
    (sendDec n s).seq = s.seq ∧ (sendDec n s).sp = s.sp ∧ (sendDec n s).decbuf = s.decbuf ∧
    (sendDec n s).env = s.env ∧ (sendDec n s).offers = s.offers ∧
    (sendDec n s).resets = s.resets ∧ (sendDec n s).params = s.params := by
  induction n generalizing s with
  | zero => simp [sendDec]
  | succ n ih =>
    simp only [sendDec]
    split
    · simp only [ih]; simp
    · simp

end Sys2Proof.Machine
end

