-- ==== Sys2Proof/Laws/Serial.lean ====
section
/-! SUPPORT. What a frame does to the line and to time, what the decimal helper leaves in `DECBUF`,
and how its send loop reads that back (44_serial.md R171 to R179). -/

namespace Sys2Proof.Machine

/-! ### Initialisation -/

/-- `tx_init()` on a line not initialised (R171). -/
theorem txInit_first {s : State} (h : s.serInit = false) :
    txInit s = { setDir .tx true (setLat .tx true s) with serInit := true } := by
  simp [txInit, h]

theorem txInit_again {s : State} (h : s.serInit = true) : txInit s = s := by
  simp [txInit, h]

@[simp] theorem txInit_sets (s : State) :
    (txInit s).serInit = true ∧ (txInit s).dirTx = (if s.serInit then s.dirTx else true) ∧
    (txInit s).latTx = (if s.serInit then s.latTx else true) := by
  cases h : s.serInit
  · simp [txInit_first h]
  · simp [txInit_again h, h]

/-- The latch is written first, so the pin goes to 1 without a 0 (R171). -/
theorem txInit_trace (s : State) :
    (txInit s).trace =
      s.trace ++ (if s.serInit ∨ s.out .tx = .high then [] else [.pin s.now .tx .high]) := by
  cases h : s.serInit
  · simp only [txInit_first h]
    show (setDir .tx true (setLat .tx true s)).trace = _
    rw [setDir_trace, setLat_trace]
    simp only [State.dir, State.lat, State.out, setLat_keeps, setLat_lat, outOf]
    by_cases hd : s.dirTx = true <;> by_cases hl : s.latTx = true <;> simp [hd, hl]
  · simp [txInit_again h]

/-! ### One frame -/

/-- A slot on an output pin: an edge if the level changes, then one bit time (R174). -/
theorem txSlot_sets (v : Bool) (s : State) :
    (txSlot v s).latTx = v ∧ (txSlot v s).now = s.now + 104 ∧ (txSlot v s).dly = 0#20 := by
  simp [txSlot, Config.tBit, Config.baud]

theorem txSlot_trace (v : Bool) {s : State} (h : s.dirTx = true) :
    (txSlot v s).trace =
      s.trace ++ (if driven v = s.out .tx then [] else [.pin s.now .tx (driven v)]) := by
  show (setLat .tx v s).trace = _
  rw [setLat_trace]
  have ho : s.out .tx = driven s.latTx := by
    show outOf s.dirTx s.latTx = _
    rw [h]
    rfl
  rw [ho]
  simp only [State.dir, State.lat, h]
  cases v <;> by_cases hl : s.latTx = true <;> simp [hl, driven, outOf]

theorem txSlot_out (v : Bool) {s : State} (h : s.dirTx = true) :
    (txSlot v s).out .tx = driven v := by
  simp [State.out, State.dir, State.lat, txSlot_sets, h, outOf, driven]

/-- A slot on a pin that is not an output records nothing. -/
theorem txSlot_silent (v : Bool) {s : State} (h : s.dirTx = false) :
    (txSlot v s).trace = s.trace := by
  show (setLat .tx v s).trace = _
  rw [setLat_trace]
  simp [State.dir, h]

/-- One turn of the data loop (R174). -/
def txTurn (s : State) : State :=
  let s1 := txSlot (s.sr.getLsbD 0) s
  { s1 with sr := s1.sr >>> 1, bitcnt := s1.bitcnt + 1#4 }

theorem txBits_succ (n : Nat) (s : State) : txBits (n + 1) s = txBits n (txTurn s) := rfl

theorem txTurn_sets (s : State) :
    (txTurn s).dirTx = s.dirTx ∧ (txTurn s).now = s.now + 104 ∧ (txTurn s).sr = s.sr >>> 1 ∧
    (txTurn s).bitcnt = s.bitcnt + 1#4 ∧ (txTurn s).dly = 0#20 := by
  simp [txTurn, txSlot_sets]

/-- The levels of the next `n` data bits of `x`. -/
def dataLevels : Nat → Byte → List Bool
  | 0, _ => []
  | n + 1, x => x.getLsbD 0 :: dataLevels n (x >>> 1)

/-- The edges of a line that shows `o` and then holds each of the levels `vs` for one bit time, the
first from `t` on. -/
def edges : Out → Nat → List Bool → List Event
  | _, _, [] => []
  | o, t, v :: vs =>
    (if driven v = o then [] else [.pin t .tx (driven v)]) ++ edges (driven v) (t + 104) vs

/-- What a line shows after those levels, if it showed `o` before them. -/
def lastLevel : Out → List Bool → Out
  | o, [] => o
  | _, v :: vs => lastLevel (driven v) vs

/-- A stop bit after the levels `vs`. -/
theorem edges_stop (vs : List Bool) (o : Out) (t : Nat) :
    edges o t (vs ++ [true]) = edges o t vs ++
      (if driven true = lastLevel o vs then [] else [.pin (t + 104 * vs.length) .tx .high]) := by
  induction vs generalizing o t with
  | nil => simp [edges, lastLevel, driven]
  | cons v vs ih =>
    simp only [List.cons_append, edges, ih, lastLevel, List.length_cons, List.append_assoc]
    rw [show t + 104 + 104 * vs.length = t + 104 * (vs.length + 1) by ring]
    rfl

theorem txBits_sets (n : Nat) (s : State) :
    (txBits n s).now = s.now + 104 * n ∧ (txBits n s).sr = s.sr >>> n ∧
    (txBits n s).bitcnt = s.bitcnt + BitVec.ofNat 4 n := by
  induction n generalizing s with
  | zero => simp [txBits]
  | succ n ih =>
    have ht := txTurn_sets s
    rw [txBits_succ]
    refine ⟨?_, ?_, ?_⟩
    · rw [(ih _).1, ht.2.1]; ring
    · rw [(ih _).2.1, ht.2.2.1, ← BitVec.shiftRight_add, Nat.add_comm]
    · rw [(ih _).2.2, ht.2.2.2.1]
      apply BitVec.eq_of_toNat_eq
      simp only [BitVec.toNat_add, BitVec.toNat_ofNat]
      omega

theorem txBits_trace (n : Nat) {s : State} (h : s.dirTx = true) :
    (txBits n s).trace = s.trace ++ edges (s.out .tx) s.now (dataLevels n s.sr) ∧
    (txBits n s).out .tx = lastLevel (s.out .tx) (dataLevels n s.sr) := by
  induction n generalizing s with
  | zero => simp [txBits, dataLevels, edges, lastLevel]
  | succ n ih =>
    have ht := txTurn_sets s
    have htr : (txTurn s).trace = _ := txSlot_trace (s.sr.getLsbD 0) h
    have hout : (txTurn s).out .tx = driven (s.sr.getLsbD 0) := txSlot_out (s.sr.getLsbD 0) h
    have hi := ih (s := txTurn s) (by rw [ht.1, h])
    rw [htr, hout, ht.2.1, ht.2.2.1] at hi
    rw [txBits_succ]
    simp only [dataLevels, edges, lastLevel]
    exact ⟨by rw [hi.1, List.append_assoc], hi.2⟩

theorem txBits_silent (n : Nat) {s : State} (h : s.dirTx = false) :
    (txBits n s).trace = s.trace := by
  induction n generalizing s with
  | zero => rfl
  | succ n ih =>
    rw [txBits_succ, ih (by rw [(txTurn_sets s).1, h])]
    exact txSlot_silent _ h

/-- The ten levels of the frame of `d`: start, data, stop (R90). -/
def frameLevels (d : Byte) : List Bool := false :: (dataLevels 8 d ++ [true])

theorem frameLevels_get (d : Byte) {n : Nat} (h : n < 10) :
    (frameLevels d)[n]? = some (frameLevel d n) := by
  obtain rfl | rfl | rfl | rfl | rfl | rfl | rfl | rfl | rfl | rfl : n = 0 ∨ n = 1 ∨ n = 2 ∨ n = 3 ∨
      n = 4 ∨ n = 5 ∨ n = 6 ∨ n = 7 ∨ n = 8 ∨ n = 9 := by omega
  all_goals simp [frameLevels, dataLevels, frameLevel]

theorem frameLevels_length (d : Byte) : (frameLevels d).length = 10 := rfl

/-- The state at the first slot of a frame (R174). -/
def txStart (d : Byte) (s : State) : State := { critEnter (txInit s) with sr := d }

/-- A frame up to the end of its critical section (R174). -/
def txFrame (d : Byte) (s : State) : State :=
  txSlot true (txBits 8 { txSlot false (txStart d s) with bitcnt := 0#4 })

theorem txByte_eq (d : Byte) (s : State) : txByte d s = wait 0#20 (critExit (txFrame d s)) := rfl

theorem txFrame_sets (d : Byte) (s : State) :
    (txFrame d s).now = s.now + 1040 ∧ (txFrame d s).latTx = true ∧ (txFrame d s).sr = 0#8 ∧
    (txFrame d s).bitcnt = 8#4 ∧ (txFrame d s).ie = false ∧ (txFrame d s).iesave = s.ie ∧
    (txFrame d s).serInit = true ∧ (txFrame d s).ports = (critEnter s).ports := by
  have hp : (critEnter (txInit s)).ports = (critEnter s).ports := by
    rw [critEnter_ports, critEnter_ports]
    simp
  have hz : d >>> 8 = 0#8 := by
    apply BitVec.eq_of_toNat_eq
    rw [BitVec.toNat_ushiftRight]
    simp only [Nat.shiftRight_eq_div_pow]
    have := d.isLt
    simp
    omega
  simp [txFrame, txSlot_sets, txBits_sets, txStart, hz, hp]

theorem txFrame_dirTx (d : Byte) (s : State) :
    (txFrame d s).dirTx = if s.serInit then s.dirTx else true := by
  simp [txFrame, txStart]

@[simp] theorem txByte_sets (d : Byte) (s : State) :
    (txByte d s).latTx = true ∧ (txByte d s).sr = 0#8 ∧ (txByte d s).bitcnt = 8#4 ∧
    (txByte d s).ie = s.ie ∧ (txByte d s).serInit = true ∧ (txByte d s).dly = 0#20 ∧
    (txByte d s).dirTx = (if s.serInit then s.dirTx else true) := by
  simp [txByte_eq, txFrame_sets, txFrame_dirTx]

theorem txByte_now_le (d : Byte) (s : State) : s.now + 1040 ≤ (txByte d s).now := by
  have := wait_now_le 0#20 (critExit (txFrame d s))
  simp [txFrame_sets] at this
  exact this

theorem txByte_now {s : State} (h : s.ie = false) (d : Byte) :
    (txByte d s).now = s.now + 1040 := by
  rw [txByte_eq, wait_now_of_ie_false (by simp [txFrame_sets, h])]
  simp [txFrame_sets]

theorem txByte_ports (d : Byte) (s : State) :
    (txByte d s).ports =
      s.ports ++ (if s.ie then [.ie s.now false, .ie (s.now + 1040) true] else []) := by
  have h := txFrame_sets d s
  rw [txByte_eq]
  simp only [wait_keeps]
  rw [critExit_ports h.2.2.2.2.1]
  simp only [h]
  rw [critEnter_ports]
  cases s.ie <;> simp

/-- The edges of a frame on an output pin (R56, R90). -/
theorem txByte_trace (d : Byte) {s : State} (h : s.serInit = true → s.dirTx = true) :
    (txByte d s).trace = (txInit s).trace ++
      edges ((txInit s).out .tx) s.now (frameLevels d) := by
  have hd : (txInit s).dirTx = true := by
    cases hs : s.serInit
    · simp [hs]
    · simp [hs, h hs]
  have hd0 : (txStart d s).dirTx = true := by simpa [txStart] using hd
  have h0 := txSlot_trace false hd0
  have ho := txSlot_out false hd0
  have hout : (txStart d s).out .tx = (txInit s).out .tx := by
    simp [txStart, State.out, State.dir, State.lat]
  have htr : (txStart d s).trace = (txInit s).trace := by simp [txStart]
  have hn : (txStart d s).now = s.now := by simp [txStart]
  have hb := txBits_trace 8 (s := { txSlot false (txStart d s) with bitcnt := 0#4 })
    (by simpa using hd0)
  have hb1 : (txBits 8 { txSlot false (txStart d s) with bitcnt := 0#4 }).trace =
      (txSlot false (txStart d s)).trace ++ edges (driven false) (s.now + 104) (dataLevels 8 d) := by
    rw [hb.1]
    show _ ++ edges ((txSlot false (txStart d s)).out .tx) (txSlot false (txStart d s)).now
      (dataLevels 8 (txSlot false (txStart d s)).sr) = _
    rw [ho, (txSlot_sets false _).2.1, hn]
    simp [txStart]
  have hb2 : (txBits 8 { txSlot false (txStart d s) with bitcnt := 0#4 }).out .tx =
      lastLevel (driven false) (dataLevels 8 d) := by
    rw [hb.2]
    show lastLevel ((txSlot false (txStart d s)).out .tx)
      (dataLevels 8 (txSlot false (txStart d s)).sr) = _
    rw [ho]
    simp [txStart]
  have hfin : (txFrame d s).trace = _ := txSlot_trace true
    (s := txBits 8 { txSlot false (txStart d s) with bitcnt := 0#4 }) (by simpa using hd0)
  have hlen : (dataLevels 8 d).length = 8 := rfl
  have hnow := (txBits_sets 8 { txSlot false (txStart d s) with bitcnt := 0#4 }).1
  rw [show ({ txSlot false (txStart d s) with bitcnt := 0#4 } : State).now =
    (txSlot false (txStart d s)).now from rfl, (txSlot_sets false _).2.1, hn] at hnow
  rw [txByte_eq]
  simp only [wait_keeps, critExit_keeps]
  rw [hfin, hb1, hb2, hnow, h0, hout, htr, hn]
  simp only [frameLevels, edges, edges_stop, hlen, List.append_assoc]
  rfl

/-- On a pin that is not an output a frame records nothing. -/
theorem txByte_silent (d : Byte) {s : State} (hs : s.serInit = true) (hd : s.dirTx = false) :
    (txByte d s).trace = s.trace := by
  have hd0 : (txStart d s).dirTx = false := by simp [txStart, hs, hd]
  have h0 := txSlot_silent false hd0
  have hb := txBits_silent 8 (s := { txSlot false (txStart d s) with bitcnt := 0#4 })
    (by simpa using hd0)
  have hf : (txFrame d s).trace = _ := txSlot_silent true
    (s := txBits 8 { txSlot false (txStart d s) with bitcnt := 0#4 }) (by simpa using hd0)
  rw [txByte_eq]
  simp only [wait_keeps, critExit_keeps]
  rw [hf, hb]
  show (txSlot false (txStart d s)).trace = _
  rw [h0]
  simp [txStart, txInit_again hs]

/-! ### Levels over time -/

theorem edges_time (vs : List Bool) (o : Out) (t : Nat) :
    ∀ e ∈ edges o t vs, t ≤ e.time ∧ e.time < t + 104 * vs.length ∧ e.on .tx = true ∧
      e.isSample = false := by
  induction vs generalizing o t with
  | nil => simp [edges]
  | cons v vs ih =>
    intro e he
    simp only [edges, List.mem_append] at he
    rcases he with he | he
    · split at he
      · cases he
      · rw [List.mem_singleton] at he
        subst he
        simp [Event.time, Event.on, Event.isSample]
    · obtain ⟨h1, h2, h3⟩ := ih _ _ e he
      refine ⟨by omega, ?_, h3⟩
      simp only [List.length_cons]
      omega

/-- A line holds each level for its bit time, and the last one after that. -/
theorem edges_level (vs : List Bool) (o : Out) (t τ : Nat) (h : t ≤ τ) :
    levelAt .tx o (edges o t vs) τ =
      (match vs[(τ - t) / 104]? with
       | some v => driven v
       | none => lastLevel o vs) := by
  induction vs generalizing o t with
  | nil => rfl
  | cons v vs ih =>
    have hone : outAfter .tx o (if driven v = o then [] else [.pin t .tx (driven v)]) = driven v := by
      split
      · next hv => simp [outAfter, hv]
      · simp [outAfter]
    have happ : ∀ (xs ys : List Event) (o : Out),
        outAfter .tx o (xs ++ ys) = outAfter .tx (outAfter .tx o xs) ys := by
      intro xs
      induction xs with
      | nil => intro ys o; rfl
      | cons x xs ihx => intro ys o; cases x <;> simp [outAfter, ihx]
    have hfil : (if driven v = o then [] else [Event.pin t .tx (driven v)]).filter
        (fun e => decide (e.time ≤ τ)) = if driven v = o then [] else [.pin t .tx (driven v)] := by
      split
      · rfl
      · simp [Event.time, h]
    have hl : levelAt .tx o (edges o t (v :: vs)) τ =
        levelAt .tx (driven v) (edges (driven v) (t + 104) vs) τ := by
      simp only [levelAt, edges, List.filter_append, happ, hfil, hone]
    rw [hl]
    by_cases hn : t + 104 ≤ τ
    · rw [ih _ _ hn, show (τ - t) / 104 = (τ - (t + 104)) / 104 + 1 by omega]
      simp only [List.getElem?_cons_succ, lastLevel]
    · rw [show (τ - t) / 104 = 0 by omega]
      have hnil : (edges (driven v) (t + 104) vs).filter (fun e => decide (e.time ≤ τ)) = [] := by
        rw [List.filter_eq_nil_iff]
        intro e he
        have := edges_time vs _ _ e he
        simp
        omega
      simp [levelAt, hnil, outAfter]

end Sys2Proof.Machine
end

