-- ==== Sys2Proof/Laws/Beside.lean ====
section
/-! SUPPORT. Registers and buffers that no pin write, sample, delay or critical section looks at: the
procedures over those commute with every update of them, said once for all of them. -/

namespace Sys2Proof.Machine

/-- An update of registers and buffers beside the line; what it does not name it leaves. -/
structure Beside where
  sr : Byte → Byte := id
  rx : Byte → Byte := id
  bitcnt : BitVec 4 → BitVec 4 := id
  bytecnt : BitVec 4 → BitVec 4 := id
  decptr : BitVec 4 → BitVec 4 := id
  seq : BitVec 4 → BitVec 4 := id
  sp : Memory → Memory := id
  decbuf : Memory → Memory := id

/-- The update, made. -/
def beside (g : Beside) (s : State) : State :=
  { s with
    sr := g.sr s.sr
    rx := g.rx s.rx
    bitcnt := g.bitcnt s.bitcnt
    bytecnt := g.bytecnt s.bytecnt
    decptr := g.decptr s.decptr
    seq := g.seq s.seq
    sp := g.sp s.sp
    decbuf := g.decbuf s.decbuf }

/-- The part of an update that leaves the registers of a byte transfer and of a frame alone. -/
def Beside.bytes (g : Beside) : Beside := { g with sr := id, rx := id, bitcnt := id }

/-! ### The shared operations -/

theorem recordPin_beside (p : Pin) (o : Out) (g : Beside) (s : State) :
    recordPin p o (beside g s) = beside g (recordPin p o s) := by
  have hout : (beside g s).out p = s.out p := by cases p <;> rfl
  by_cases h : s.out p = o
  · simp only [recordPin, hout, if_pos h]
  · simp only [recordPin, hout, if_neg h]
    rfl

theorem setDir_beside (p : Pin) (v : Bool) (g : Beside) (s : State) :
    setDir p v (beside g s) = beside g (setDir p v s) := by
  cases p
  · exact recordPin_beside .ow (s.out .ow) g { s with dirOw := v }
  · exact recordPin_beside .tx (s.out .tx) g { s with dirTx := v }

theorem setLat_beside (p : Pin) (v : Bool) (g : Beside) (s : State) :
    setLat p v (beside g s) = beside g (setLat p v s) := by
  cases p
  · exact recordPin_beside .ow (s.out .ow) g { s with latOw := v }
  · exact recordPin_beside .tx (s.out .tx) g { s with latTx := v }

theorem sample_beside (g : Beside) (s : State) :
    sample .ow (beside g s) = ((sample .ow s).1, beside g (sample .ow s).2) := by
  have hd : (beside g s).dir .ow = s.dir .ow := rfl
  have he : envAnswer .ow (beside g s) =
      ((envAnswer .ow s).1, beside g (envAnswer .ow s).2) := by
    have he : (beside g s).env = s.env := rfl
    simp only [envAnswer, he]
    cases s.env <;> rfl
  by_cases h : s.dir .ow = true
  · simp only [sample, hd, if_pos h]
    rfl
  · simp only [sample, hd, if_neg h, he]
    rfl

theorem waitNi_beside (d : BitVec 20) (g : Beside) (s : State) :
    waitNi d (beside g s) = beside g (waitNi d s) := rfl

theorem wait_beside (d : BitVec 20) (g : Beside) (s : State) :
    wait d (beside g s) = beside g (wait d s) := by
  have hi : (beside g s).ie = s.ie := rfl
  have hj : drawJitter (beside g s) = ((drawJitter s).1, beside g (drawJitter s).2) := by
    have hj : (beside g s).jitters = s.jitters := rfl
    simp only [drawJitter, hj]
    cases s.jitters <;> rfl
  by_cases h : s.ie = true
  · simp only [wait, hi, if_pos h, hj]
    rfl
  · simp only [wait, hi, if_neg h]
    rfl

theorem critEnter_beside (g : Beside) (s : State) :
    critEnter (beside g s) = beside g (critEnter s) := rfl

theorem critExit_beside (g : Beside) (s : State) :
    critExit (beside g s) = beside g (critExit s) := rfl

/-! ### The OneWire bus master -/

theorem idleCheck_beside (k : Nat) (g : Beside) (s : State) :
    idleCheck k (beside g s) = ((idleCheck k s).1, beside g (idleCheck k s).2) := by
  induction k generalizing s with
  | zero => rfl
  | succ k ih =>
    have ht : idleTurn (beside g s) = beside g (idleTurn s) := by
      simp only [idleTurn, sample_beside]
      exact wait_beside _ g { (sample .ow s).2 with retry := (sample .ow s).2.retry - 1#8 }
    rw [idleCheck_succ, idleCheck_succ, ht, ih, sample_beside]
    show (if (sample .ow s).1 = true then _ else if s.retry = 1#8 then _ else _) = _
    split
    · rfl
    · split <;> rfl

theorem resetPulse_beside (g : Beside) (s : State) :
    resetPulse (beside g s) = ((resetPulse s).1, beside g (resetPulse s).2) := by
  simp only [resetPulse, critEnter_beside, setLat_beside, setDir_beside, waitNi_beside,
    sample_beside, critExit_beside]

/-- A reset depends on none of these registers. -/
theorem owReset_beside (g : Beside) (s : State) :
    owReset (beside g s) = beside g (owReset s) := by
  have hs : resetStart (beside g s) = beside g (resetStart s) := by
    simp only [resetStart, setLat_beside, setDir_beside]
    rfl
  have hc := owReset_cases (beside g s)
  have hd := owReset_cases s
  rw [hs, idleCheck_beside] at hc
  rcases hc with ⟨hf, h⟩ | ⟨hf, h⟩ <;> rcases hd with ⟨hg, k⟩ | ⟨hg, k⟩
  · rw [h, k]; rfl
  · rw [hg] at hf; cases hf
  · rw [hg] at hf; cases hf
  · rw [h, k, resetPulse_beside, wait_beside]; rfl

theorem slotOpen_beside (b : Bool) (g : Beside) (s : State) :
    slotOpen b (beside g s) = beside g (slotOpen b s) := by
  unfold slotOpen
  rw [critEnter_beside, setLat_beside, setDir_beside]
  generalize setDir .ow true (setLat .ow false (critEnter s)) = u
  cases b
  · exact waitNi_beside Config.tSmp g u
  · rw [if_pos rfl, if_pos rfl, waitNi_beside, setDir_beside, waitNi_beside]

/-- A slot depends on none of these registers. -/
theorem owBit_beside (b : Bool) (g : Beside) (s : State) :
    owBit b (beside g s) = ((owBit b s).1, beside g (owBit b s).2) := by
  have h : ∀ u, owBit b u =
      ((sample .ow (slotOpen b u)).1, wait u.params.tRec (critExit (setDir .ow false
        (waitNi (Config.tSlot - Config.tSmp) (sample .ow (slotOpen b u)).2)))) := fun _ => rfl
  have hp : (beside g s).params = s.params := rfl
  rw [h, h, hp, slotOpen_beside, sample_beside]
  generalize sample .ow (slotOpen b s) = r
  rw [← wait_beside, ← critExit_beside, ← setDir_beside, ← waitNi_beside]

/-- A byte transfer depends on none of these registers but its own. -/
theorem owByte_beside (d : Byte) (g : Beside) (s : State) :
    owByte d (beside g.bytes s) = beside g.bytes (owByte d s) := by
  have key : ∀ n u, owBits n (beside g.bytes u) = beside g.bytes (owBits n u) := by
    intro n
    induction n with
    | zero => intro u; rfl
    | succ n ih =>
      intro u
      have ht : owTurn (beside g.bytes u) = beside g.bytes (owTurn u) := by
        show ({ (owBit (u.sr.getLsbD 0) (beside g.bytes u)).2 with
          rx := putBit (owBit (u.sr.getLsbD 0) (beside g.bytes u)).2.rx
            (owBit (u.sr.getLsbD 0) (beside g.bytes u)).2.bitcnt.toNat
            (owBit (u.sr.getLsbD 0) (beside g.bytes u)).1
          sr := (owBit (u.sr.getLsbD 0) (beside g.bytes u)).2.sr >>> 1
          bitcnt := (owBit (u.sr.getLsbD 0) (beside g.bytes u)).2.bitcnt + 1#4 } : State) = _
        rw [owBit_beside]
        rfl
      rw [owBits_succ, owBits_succ, ht, ih]
  have hd : ∀ u, owByte d u = owBits 8 { u with sr := d, rx := 0#8, bitcnt := 0#4 } := fun _ => rfl
  have hs : ({ beside g.bytes s with sr := d, rx := 0#8, bitcnt := 0#4 } : State) =
      beside g.bytes { s with sr := d, rx := 0#8, bitcnt := 0#4 } := rfl
  rw [hd, hd, hs, key]

/-! ### The serial transmitter -/

theorem txInit_beside (g : Beside) (s : State) : txInit (beside g s) = beside g (txInit s) := by
  cases h : s.serInit
  · rw [txInit_first h, txInit_first (s := beside g s) h, setLat_beside, setDir_beside]
    rfl
  · rw [txInit_again h, txInit_again (s := beside g s) h]

theorem txSlot_beside (v : Bool) (g : Beside) (s : State) :
    txSlot v (beside g s) = beside g (txSlot v s) := by
  rw [txSlot, setLat_beside]
  rfl

theorem txBits_beside (n : Nat) (g : Beside) (s : State) :
    txBits n (beside g.bytes s) = beside g.bytes (txBits n s) := by
  induction n generalizing s with
  | zero => rfl
  | succ n ih =>
    have ht : txTurn (beside g.bytes s) = beside g.bytes (txTurn s) := by
      show ({ txSlot (s.sr.getLsbD 0) (beside g.bytes s) with
        sr := (txSlot (s.sr.getLsbD 0) (beside g.bytes s)).sr >>> 1
        bitcnt := (txSlot (s.sr.getLsbD 0) (beside g.bytes s)).bitcnt + 1#4 } : State) = _
      rw [txSlot_beside]
      rfl
    rw [txBits_succ, txBits_succ, ht, ih]

/-- A frame depends on none of these registers but its own. -/
theorem txByte_beside (c : Byte) (g : Beside) (s : State) :
    txByte c (beside g.bytes s) = beside g.bytes (txByte c s) := by
  have hs : txStart c (beside g.bytes s) = beside g.bytes (txStart c s) := by
    simp only [txStart, txInit_beside]
    rfl
  have h0 : ({ txSlot false (txStart c (beside g.bytes s)) with bitcnt := 0#4 } : State) =
      beside g.bytes { txSlot false (txStart c s) with bitcnt := 0#4 } := by
    rw [hs, txSlot_beside]
    rfl
  have hf : txFrame c (beside g.bytes s) = beside g.bytes (txFrame c s) := by
    rw [txFrame, h0, txBits_beside, txSlot_beside, txFrame]
  rw [txByte_eq, txByte_eq, hf, critExit_beside, wait_beside]

end Sys2Proof.Machine
end

