-- ==== Sys2Proof/Laws/CrcFrames.lean ====
section
/-! SUPPORT. What the CRC8 procedures leave alone (42_crc8.md R145). -/

namespace Sys2Proof.Machine

/-- The loop of `crc_check` writes `CRC` and `BYTECNT` alone. -/
@[simp] theorem crcLoop_keeps (n : Nat) (s : State) :
    (crcLoop n s).dirOw = s.dirOw ∧ (crcLoop n s).latOw = s.latOw ∧
    (crcLoop n s).dirTx = s.dirTx ∧ (crcLoop n s).latTx = s.latTx ∧ (crcLoop n s).ie = s.ie ∧
    (crcLoop n s).iesave = s.iesave ∧ (crcLoop n s).busy = s.busy ∧ (crcLoop n s).pres = s.pres ∧
    (crcLoop n s).crcok = s.crcok ∧ (crcLoop n s).serInit = s.serInit ∧
    (crcLoop n s).err = s.err ∧ (crcLoop n s).opc = s.opc ∧ (crcLoop n s).arg = s.arg ∧
    (crcLoop n s).res = s.res ∧ (crcLoop n s).sr = s.sr ∧ (crcLoop n s).rx = s.rx ∧
    (crcLoop n s).raw = s.raw ∧ (crcLoop n s).retry = s.retry ∧ (crcLoop n s).bitcnt = s.bitcnt ∧
    (crcLoop n s).decptr = s.decptr ∧ (crcLoop n s).dly = s.dly ∧ (crcLoop n s).seq = s.seq ∧
    (crcLoop n s).sp = s.sp ∧ (crcLoop n s).decbuf = s.decbuf ∧ (crcLoop n s).now = s.now ∧
    (crcLoop n s).trace = s.trace ∧ (crcLoop n s).ports = s.ports ∧
    (crcLoop n s).draws = s.draws ∧ (crcLoop n s).env = s.env ∧
    (crcLoop n s).jitters = s.jitters ∧ (crcLoop n s).offers = s.offers ∧
    (crcLoop n s).resets = s.resets ∧ (crcLoop n s).params = s.params := by
  induction n generalizing s with
  | zero => simp [crcLoop]
  | succ n ih => simp [crcLoop, ih]

/-- `crc_check()` writes `CRC`, `BYTECNT` and `CRCOK` alone. -/
@[simp] theorem crcCheck_keeps (s : State) :
    (crcCheck s).dirOw = s.dirOw ∧ (crcCheck s).latOw = s.latOw ∧ (crcCheck s).dirTx = s.dirTx ∧
    (crcCheck s).latTx = s.latTx ∧ (crcCheck s).ie = s.ie ∧ (crcCheck s).iesave = s.iesave ∧
    (crcCheck s).busy = s.busy ∧ (crcCheck s).pres = s.pres ∧ (crcCheck s).serInit = s.serInit ∧
    (crcCheck s).err = s.err ∧ (crcCheck s).opc = s.opc ∧ (crcCheck s).arg = s.arg ∧
    (crcCheck s).res = s.res ∧ (crcCheck s).sr = s.sr ∧ (crcCheck s).rx = s.rx ∧
    (crcCheck s).raw = s.raw ∧ (crcCheck s).retry = s.retry ∧ (crcCheck s).bitcnt = s.bitcnt ∧
    (crcCheck s).decptr = s.decptr ∧ (crcCheck s).dly = s.dly ∧ (crcCheck s).seq = s.seq ∧
    (crcCheck s).sp = s.sp ∧ (crcCheck s).decbuf = s.decbuf ∧ (crcCheck s).now = s.now ∧
    (crcCheck s).trace = s.trace ∧ (crcCheck s).ports = s.ports ∧ (crcCheck s).draws = s.draws ∧
    (crcCheck s).env = s.env ∧ (crcCheck s).jitters = s.jitters ∧ (crcCheck s).offers = s.offers ∧
    (crcCheck s).resets = s.resets ∧ (crcCheck s).params = s.params := by
  simp [crcCheck]

end Sys2Proof.Machine
end

