-- ==== Sys2Proof/Laws/Crc.lean ====
section
/-! SUPPORT. The CRC8 update is linear and one to one, and what the check computes on a buffer whose
bytes are written (42_crc8.md R141 to R147). -/

namespace Sys2Proof.Machine

theorem crcStep_xor (a b x y : Byte) :
    crcStep (a ^^^ b) (x ^^^ y) = crcStep a x ^^^ crcStep b y := by
  have hs : (a ^^^ b) >>> 1 = a >>> 1 ^^^ b >>> 1 := BitVec.ushiftRight_xor_distrib a b 1
  simp only [crcStep, BitVec.getLsbD_xor, hs]
  generalize a.getLsbD 0 = a0
  generalize b.getLsbD 0 = b0
  generalize x.getLsbD 0 = x0
  generalize y.getLsbD 0 = y0
  generalize a >>> 1 = a1
  generalize b >>> 1 = b1
  have h1 : a1 ^^^ b1 ^^^ Config.crcPoly = a1 ^^^ Config.crcPoly ^^^ b1 := by ac_rfl
  have h2 : a1 ^^^ b1 ^^^ Config.crcPoly = a1 ^^^ (b1 ^^^ Config.crcPoly) := by ac_rfl
  have h3 : a1 ^^^ Config.crcPoly ^^^ (b1 ^^^ Config.crcPoly) = a1 ^^^ b1 := by
    rw [show a1 ^^^ Config.crcPoly ^^^ (b1 ^^^ Config.crcPoly) =
      a1 ^^^ b1 ^^^ (Config.crcPoly ^^^ Config.crcPoly) by ac_rfl]
    simp
  cases a0 <;> cases b0 <;> cases x0 <;> cases y0 <;>
    simp only [Bool.xor_true, Bool.xor_false, Bool.not_true, Bool.not_false, if_true,
      Bool.false_eq_true, if_false, h1, h3] <;> exact h1.symm.trans h2

/-- The update is linear over exclusive or. -/
theorem crcBits_xor (n : Nat) (a b x y : Byte) :
    crcBits n (a ^^^ b) (x ^^^ y) = crcBits n a x ^^^ crcBits n b y := by
  induction n generalizing a b x y with
  | zero => rfl
  | succ n ih =>
    simp only [crcBits, crcStep_xor, BitVec.ushiftRight_xor_distrib, ih]

/-- What the check's loop computes (R144, R145). -/
theorem crcLoop_eq (bs : List Byte) {s : State}
    (hr : ∀ k, k < bs.length → readByte s.sp (s.bytecnt.toNat + k) = bs[k]?)
    (hl : s.bytecnt.toNat + bs.length < 16) :
    crcLoop bs.length s =
      { s with
        crc := bs.foldl crc8Update s.crc
        bytecnt := s.bytecnt + BitVec.ofNat 4 bs.length } := by
  induction bs generalizing s with
  | nil => simp [crcLoop]
  | cons b bs ih =>
    simp only [List.length_cons] at hr hl
    have h0 := hr 0 (by omega)
    rw [Nat.add_zero, List.getElem?_cons_zero] at h0
    have hn : (s.bytecnt + 1#4).toNat = s.bytecnt.toNat + 1 := by
      rw [BitVec.toNat_add]
      show (_ + 1) % 16 = _
      omega
    have hi := ih
      (s := { s with crc := crc8Update s.crc b, bytecnt := s.bytecnt + 1#4 })
      (by
        intro k hk
        show readByte s.sp ((s.bytecnt + 1#4).toNat + k) = _
        have := hr (k + 1) (by omega)
        rw [List.getElem?_cons_succ] at this
        rw [← this, hn]
        congr 1
        omega)
      (by
        show (s.bytecnt + 1#4).toNat + bs.length < 16
        omega)
    rw [List.length_cons, crcLoop, byteAt_of_read h0, hi]
    have hb : s.bytecnt + 1#4 + BitVec.ofNat 4 bs.length =
        s.bytecnt + BitVec.ofNat 4 (bs.length + 1) := by
      apply BitVec.eq_of_toNat_eq
      simp only [BitVec.toNat_add, BitVec.toNat_ofNat]
      omega
    simp only [List.foldl_cons, hb]

/-- What the check leaves on a buffer whose nine bytes are written. -/
theorem crcCheck_eq {s : State} {m : List Byte} {c : Byte} (hm : m.length = 8)
    (h : Holds s.sp (m ++ [c])) :
    crcCheck s =
      { s with crc := crcOf m, bytecnt := 8#4, crcok := decide (crcOf m = c) } := by
  have hl := crcLoop_eq m (s := { s with crc := Config.crcInit, bytecnt := 0#4 })
    (by
      intro k hk
      show readByte s.sp ((0#4).toNat + k) = _
      have := h k (by simp; omega)
      rw [List.getElem?_append_left hk] at this
      simpa using this)
    (by simp [hm])
  rw [hm] at hl
  have h8 : readByte s.sp 8 = some c := by
    have := h 8 (by simp [hm])
    rw [this, List.getElem?_append_right (by omega), hm]
    rfl
  simp only [crcCheck, hl, byteAt_of_read h8]
  rfl

end Sys2Proof.Machine
end

