-- ==== Sys2Proof/Laws/Decode.lean ====
section
/-! SUPPORT. Taking a command word and its operand apart and putting them together again, format by
format (30_encoding.md R80, R81). -/

namespace Sys2Proof

@[simp] theorem extract_opcode (o : Byte) (m : Half) : (o ++ m).extractLsb' 16 8 = o := by
  ext k hk
  simp only [BitVec.getElem_extractLsb']
  rw [BitVec.getLsbD_append]
  simp [hk]

@[simp] theorem extract_operand (o : Byte) (m : Half) : (o ++ m).extractLsb' 0 16 = m := by
  ext k hk
  simp only [BitVec.getElem_extractLsb']
  rw [BitVec.getLsbD_append]
  simp [hk]

/-- A word is its opcode and its operand (R80). -/
theorem append_extract (w : Word) : (w.extractLsb' 16 8 ++ w.extractLsb' 0 16 : Word) = w := by
  apply BitVec.eq_of_getLsbD_eq
  intro k hk
  rw [BitVec.getLsbD_append]
  by_cases h : k < 16
  · simp [h]
  · simp [h, show 16 + (k - 16) = k by omega, show k - 16 < 8 by omega]

/-- Decoding a word put together from its fields. -/
theorem decode_append (o : Byte) (m : Half) : decode (o ++ m) = decodeFields o m := by
  rw [decode, extract_opcode, extract_operand]

@[simp] theorem regOfNum_regNum (r : Reg) : regOfNum (regNum r) = r := by
  cases r <;> rfl

@[simp] theorem regNum_regOfNum (r : BitVec 3) : regNum (regOfNum r) = r := by
  decide +revert

@[simp] theorem pinOfBit_pinBit (p : Pin) : pinOfBit (pinBit p) = p := by
  cases p <;> rfl

@[simp] theorem pinBit_pinOfBit (b : Bool) : pinBit (pinOfBit b) = b := by
  cases b <;> rfl

/-- A decoded operand has no reserved bit set. -/
theorem unlessReserved_ok {r m : Half} {d : Decoded} {i : Instr}
    (h : unlessReserved r m d = .ok i) : m &&& r = 0#16 ∧ d = .ok i := by
  unfold unlessReserved at h
  split at h
  · exact ⟨‹_›, h⟩
  · cases h

/-- A decoded index names a byte of `SP`. -/
theorem checkIndex_ok {k : BitVec 4} {j i : Instr} (h : checkIndex k j = .ok i) :
    indexOk k = true ∧ j = i := by
  unfold checkIndex at h
  split at h
  · exact ⟨‹_›, by cases h; rfl⟩
  · cases h

/-- Bit by bit: a reserved bit is 0. -/
theorem reserved_bit {m r : Half} (h : m &&& r = 0#16) (k : Nat) (hr : r.getLsbD k = true) :
    m.getLsbD k = false := by
  have := congrArg (fun v : Half => v.getLsbD k) h
  simpa [hr] using this

/-- An operand is determined by its fields when its reserved bits are 0: two operands that agree on
the bits outside `r`, and have 0 in `r`, are the same. -/
theorem operand_eq {m n r : Half} (hm : m &&& r = 0#16) (hn : n &&& r = 0#16)
    (h : ∀ k, k < 16 → r.getLsbD k = false → m.getLsbD k = n.getLsbD k) : m = n := by
  apply BitVec.eq_of_getLsbD_eq
  intro k hk
  cases hr : r.getLsbD k with
  | true => rw [reserved_bit hm k hr, reserved_bit hn k hr]
  | false => exact h k hk hr

/-- A format with no field allows no bit. -/
theorem formatN_eq (m : Half) (i : Instr) :
    formatN m i = if m = 0#16 then .ok i else .malformed .reservedBits := by
  have h : m &&& 0xFFFF#16 = m := BitVec.and_allOnes
  rw [formatN, unlessReserved, h]

end Sys2Proof
end

