-- ==== Sys2Proof/Laws/Ds18b20Frames.lean ====
section
/-! SUPPORT. What the DS18B20 sequencer leaves alone (43_ds18b20.md R153). -/

namespace Sys2Proof.Machine

/-- The state one row of the step table leaves. -/
def SeqStep.after : SeqStep → State
  | .goto s => s
  | .done s _ => s

/-- `decode_raw()` writes `RAW` alone. -/
@[simp] theorem decodeRaw_keeps (s : State) :
    (decodeRaw s).dirOw = s.dirOw ∧ (decodeRaw s).latOw = s.latOw ∧
    (decodeRaw s).dirTx = s.dirTx ∧ (decodeRaw s).latTx = s.latTx ∧ (decodeRaw s).ie = s.ie ∧
    (decodeRaw s).iesave = s.iesave ∧ (decodeRaw s).busy = s.busy ∧ (decodeRaw s).pres = s.pres ∧
    (decodeRaw s).crcok = s.crcok ∧ (decodeRaw s).serInit = s.serInit ∧
    (decodeRaw s).err = s.err ∧ (decodeRaw s).opc = s.opc ∧ (decodeRaw s).arg = s.arg ∧
    (decodeRaw s).res = s.res ∧ (decodeRaw s).sr = s.sr ∧ (decodeRaw s).rx = s.rx ∧
    (decodeRaw s).crc = s.crc ∧ (decodeRaw s).retry = s.retry ∧ (decodeRaw s).bitcnt = s.bitcnt ∧
    (decodeRaw s).bytecnt = s.bytecnt ∧ (decodeRaw s).decptr = s.decptr ∧
    (decodeRaw s).dly = s.dly ∧ (decodeRaw s).seq = s.seq ∧ (decodeRaw s).sp = s.sp ∧
    (decodeRaw s).decbuf = s.decbuf ∧ (decodeRaw s).now = s.now ∧ (decodeRaw s).trace = s.trace ∧
    (decodeRaw s).ports = s.ports ∧ (decodeRaw s).draws = s.draws ∧ (decodeRaw s).env = s.env ∧
    (decodeRaw s).jitters = s.jitters ∧ (decodeRaw s).offers = s.offers ∧
    (decodeRaw s).resets = s.resets ∧ (decodeRaw s).params = s.params := by
  simp [decodeRaw]

/-- Step 8 writes one byte of `SP`, `BYTECNT` and what a byte transfer writes. -/
@[simp] theorem readScratchByte_keeps (s : State) :
    (readScratchByte s).dirTx = s.dirTx ∧ (readScratchByte s).latTx = s.latTx ∧
    (readScratchByte s).busy = s.busy ∧ (readScratchByte s).pres = s.pres ∧
    (readScratchByte s).crcok = s.crcok ∧ (readScratchByte s).serInit = s.serInit ∧
    (readScratchByte s).err = s.err ∧ (readScratchByte s).opc = s.opc ∧
    (readScratchByte s).arg = s.arg ∧ (readScratchByte s).res = s.res ∧
    (readScratchByte s).crc = s.crc ∧ (readScratchByte s).raw = s.raw ∧
    (readScratchByte s).retry = s.retry ∧ (readScratchByte s).decptr = s.decptr ∧
    (readScratchByte s).seq = s.seq ∧ (readScratchByte s).decbuf = s.decbuf ∧
    (readScratchByte s).offers = s.offers ∧ (readScratchByte s).resets = s.resets ∧
    (readScratchByte s).params = s.params := by
  simp [readScratchByte]

/-- Every row of the step table writes within the list of R153. -/
@[simp] theorem dsStep_keeps (s : State) :
    ((dsStep s).after).dirTx = s.dirTx ∧ ((dsStep s).after).latTx = s.latTx ∧
    ((dsStep s).after).busy = s.busy ∧ ((dsStep s).after).serInit = s.serInit ∧
    ((dsStep s).after).err = s.err ∧ ((dsStep s).after).opc = s.opc ∧
    ((dsStep s).after).arg = s.arg ∧ ((dsStep s).after).res = s.res ∧
    ((dsStep s).after).decptr = s.decptr ∧ ((dsStep s).after).decbuf = s.decbuf ∧
    ((dsStep s).after).offers = s.offers ∧ ((dsStep s).after).resets = s.resets ∧
    ((dsStep s).after).params = s.params := by
  simp only [dsStep, gotoStep]
  (repeat' split) <;> simp [SeqStep.after]

/-- The run of the step table writes within the list of R153. -/
@[simp] theorem dsRun_keeps (n : Nat) (s : State) :
    ((dsRun n s).1).dirTx = s.dirTx ∧ ((dsRun n s).1).latTx = s.latTx ∧
    ((dsRun n s).1).busy = s.busy ∧ ((dsRun n s).1).serInit = s.serInit ∧
    ((dsRun n s).1).err = s.err ∧ ((dsRun n s).1).opc = s.opc ∧ ((dsRun n s).1).arg = s.arg ∧
    ((dsRun n s).1).res = s.res ∧ ((dsRun n s).1).decptr = s.decptr ∧
    ((dsRun n s).1).decbuf = s.decbuf ∧ ((dsRun n s).1).offers = s.offers ∧
    ((dsRun n s).1).resets = s.resets ∧ ((dsRun n s).1).params = s.params := by
  induction n generalizing s with
  | zero => simp [dsRun]
  | succ n ih =>
    have h := dsStep_keeps s
    simp only [dsRun]
    split
    · next r hr =>
      rw [hr] at h
      simp only [ih]
      exact h
    · next r t hr =>
      rw [hr] at h
      exact h

/-- `DS_READ` writes what R153 lists and nothing else. -/
@[simp] theorem dsRead_keeps (s : State) :
    (dsRead s).dirTx = s.dirTx ∧ (dsRead s).latTx = s.latTx ∧ (dsRead s).busy = s.busy ∧
    (dsRead s).serInit = s.serInit ∧ (dsRead s).err = s.err ∧ (dsRead s).opc = s.opc ∧
    (dsRead s).arg = s.arg ∧ (dsRead s).decptr = s.decptr ∧ (dsRead s).decbuf = s.decbuf ∧
    (dsRead s).offers = s.offers ∧ (dsRead s).resets = s.resets ∧ (dsRead s).params = s.params := by
  simp [dsRead]

end Sys2Proof.Machine
end

