-- ==== Sys2Proof/Laws/Ds18b20.lean ====
section
/-! SUPPORT. The paths of the DS18B20 sequencer: the step table row by row, the three ways a read
ends, the buffer it fills (43_ds18b20.md R151 to R158). -/

namespace Sys2Proof.Machine

/-! ### The step counter and the operations below it -/

/-- `s` with the step counter at `n`. -/
def atStep (n : BitVec 4) (s : State) : State := { s with seq := n }

/-- A reset does not depend on the step counter. -/
theorem owReset_atStep (n : BitVec 4) (s : State) :
    owReset (atStep n s) = atStep n (owReset s) := owReset_beside { seq := fun _ => n } s

/-- Nor does a byte transfer. -/
theorem owByte_atStep (d : Byte) (n : BitVec 4) (s : State) :
    owByte d (atStep n s) = atStep n (owByte d s) := owByte_beside d { seq := fun _ => n } s

theorem wait_atStep (d : BitVec 20) (n : BitVec 4) (s : State) :
    wait d (atStep n s) = atStep n (wait d s) := wait_beside d { seq := fun _ => n } s

theorem atStep_atStep (m n : BitVec 4) (s : State) : atStep m (atStep n s) = atStep m s := rfl

/-! ### The rows of the step table -/

theorem dsStep_1 {s : State} (h : s.seq = 1#4) :
    dsStep s = if (owReset s).pres = .present then .goto (atStep 2#4 (owReset s))
      else .done (owReset s) Config.sentinel := by
  simp only [dsStep, h]; rfl

theorem dsStep_2 {s : State} (h : s.seq = 2#4) :
    dsStep s = .goto (atStep 3#4 (owByte Config.cmdSkipRom s)) := by
  simp only [dsStep, h]; rfl

theorem dsStep_3 {s : State} (h : s.seq = 3#4) :
    dsStep s = .goto (atStep 4#4 (owByte Config.cmdConvert s)) := by
  simp only [dsStep, h]; rfl

theorem dsStep_4 {s : State} (h : s.seq = 4#4) :
    dsStep s = .goto (atStep 5#4 (wait Config.tConv s)) := by
  simp only [dsStep, h]; rfl

theorem dsStep_5 {s : State} (h : s.seq = 5#4) :
    dsStep s = if s.params.rst2Abort = true ∧ (owReset s).pres ≠ .present then
        .done (owReset s) Config.sentinel
      else .goto (atStep 6#4 (owReset s)) := by
  simp only [dsStep, h]
  have hp : (owReset s).params = s.params := by simp
  rw [hp]
  by_cases h1 : s.params.rst2Abort = true <;> by_cases h2 : (owReset s).pres = .present <;>
    simp [h1, h2, gotoStep, atStep]

theorem dsStep_6 {s : State} (h : s.seq = 6#4) :
    dsStep s = .goto (atStep 7#4 (owByte Config.cmdSkipRom s)) := by
  simp only [dsStep, h]; rfl

theorem dsStep_7 {s : State} (h : s.seq = 7#4) :
    dsStep s = .goto (atStep 8#4 { owByte Config.cmdReadSp s with bytecnt := 0#4 }) := by
  simp only [dsStep, h]; rfl

theorem dsStep_8 {s : State} (h : s.seq = 8#4) :
    dsStep s = .goto (atStep (if (readScratchByte s).bytecnt = 9#4 then 9#4 else 8#4)
      (readScratchByte s)) := by
  simp only [dsStep, h]; rfl

theorem dsStep_9 {s : State} (h : s.seq = 9#4) :
    dsStep s = .goto (atStep 10#4 (owReset s)) := by
  simp only [dsStep, h]; rfl

theorem dsStep_10 {s : State} (h : s.seq = 10#4) :
    dsStep s = if (crcCheck s).crcok then .goto (atStep 11#4 (crcCheck s))
      else .done (crcCheck s) Config.sentinel := by
  simp only [dsStep, h]; rfl

theorem dsStep_11 {s : State} (h : s.seq = 11#4) :
    dsStep s = .done (decodeRaw s) (celsius s.params.roundBias (decodeRaw s).raw) := by
  simp only [dsStep, h]
  simp

theorem dsRun_goto {s r : State} (h : dsStep s = .goto r) (n : Nat) :
    dsRun (n + 1) s = dsRun n r := by
  simp [dsRun, h]

theorem dsRun_done {s r : State} {t : Int} (h : dsStep s = .done r t) (n : Nat) :
    dsRun (n + 1) s = (r, t) := by
  simp [dsRun, h]

/-! ### The stretches between the exits -/

/-- Steps 2 to 4, after a first reset that found a device (R151). -/
def dsConvert (s : State) : State :=
  atStep 5#4 (wait Config.tConv (atStep 4#4 (owByte Config.cmdConvert
    (atStep 3#4 (owByte Config.cmdSkipRom (atStep 2#4 s))))))

/-- Steps 6 and 7, after a second reset that does not end the read. -/
def dsCommand (s : State) : State :=
  atStep 8#4 { owByte Config.cmdReadSp (atStep 7#4 (owByte Config.cmdSkipRom (atStep 6#4 s))) with
    bytecnt := 0#4 }

/-- Step 8, `n` bytes to go. -/
def dsReadBytes : Nat → State → State
  | 0, s => s
  | n + 1, s => dsReadBytes n (atStep (if n = 0 then 9#4 else 8#4) (readScratchByte s))

/-- Steps 9 and 10. -/
def dsCheck (s : State) : State := crcCheck (atStep 10#4 (owReset s))

/-- The end of a read (R153). -/
def dsEnd (t : Int) (s : State) : State := respond (intResponse t) (atStep 0#4 s)

theorem dsRun_bytes (k n : Nat) {s : State} (hs : s.seq = 8#4)
    (hc : s.bytecnt.toNat + (k + 1) = 9) :
    dsRun (n + (k + 1)) s = dsRun n (dsReadBytes (k + 1) s) ∧
      (dsReadBytes (k + 1) s).seq = 9#4 := by
  induction k generalizing s with
  | zero =>
    have hb : (readScratchByte s).bytecnt = 9#4 := by
      apply BitVec.eq_of_toNat_eq
      simp [readScratchByte]
      omega
    have := dsStep_8 hs
    rw [hb, if_pos rfl] at this
    exact ⟨dsRun_goto this n, rfl⟩
  | succ k ih =>
    have hb : (readScratchByte s).bytecnt.toNat = s.bytecnt.toNat + 1 := by
      simp [readScratchByte]
      omega
    have hne : (readScratchByte s).bytecnt ≠ 9#4 := by
      intro h
      rw [h] at hb
      simp at hb
      omega
    have h8 := dsStep_8 hs
    rw [if_neg hne] at h8
    have := ih (s := atStep 8#4 (readScratchByte s)) rfl (by
      show (readScratchByte s).bytecnt.toNat + (k + 1) = 9
      omega)
    rw [show n + (k + 1 + 1) = n + (k + 1) + 1 by omega, dsRun_goto h8]
    exact this

/-- The three ways a read ends, and what each leaves (R151, R210). -/
theorem dsRead_paths (s : State) :
    let r := owReset (atStep 1#4 s)
    let r2 := owReset (dsConvert r)
    let u := dsCheck (dsReadBytes 9 (dsCommand r2))
    (r.pres ≠ .present → dsRead s = dsEnd Config.sentinel r) ∧
    (r.pres = .present → s.params.rst2Abort = true → r2.pres ≠ .present →
      dsRead s = dsEnd Config.sentinel r2) ∧
    (r.pres = .present → (s.params.rst2Abort = false ∨ r2.pres = .present) →
      (u.crcok = false → dsRead s = dsEnd Config.sentinel u) ∧
      (u.crcok = true → dsRead s =
        dsEnd (celsius s.params.roundBias (decodeRaw (atStep 11#4 u)).raw)
          (decodeRaw (atStep 11#4 u)))) := by
  intro r r2 u
  have h1 := dsStep_1 (s := atStep 1#4 s) rfl
  have hd : dsRead s = respond (intResponse (dsRun 19 (atStep 1#4 s)).2)
      { (dsRun 19 (atStep 1#4 s)).1 with seq := 0#4 } := rfl
  have fin : ∀ {v : State} {t : Int}, dsRun 19 (atStep 1#4 s) = (v, t) → dsRead s = dsEnd t v := by
    intro v t h
    rw [hd, h]
    rfl
  have conv : r.pres = .present → dsRun 19 (atStep 1#4 s) = dsRun 15 (dsConvert r) := by
    intro h
    rw [if_pos h] at h1
    rw [dsRun_goto h1, dsRun_goto (dsStep_2 rfl), dsRun_goto (dsStep_3 rfl),
      dsRun_goto (dsStep_4 rfl)]
    rfl
  have hp : (dsConvert r).params = s.params := by simp [dsConvert, atStep, r]
  have h5 := dsStep_5 (s := dsConvert r) rfl
  rw [hp] at h5
  refine ⟨fun h => ?_, fun h ha hb => ?_, fun h hab => ?_⟩
  · rw [if_neg h] at h1
    exact fin (dsRun_done h1 18)
  · rw [if_pos ⟨ha, hb⟩] at h5
    exact fin (by rw [conv h]; exact dsRun_done h5 14)
  · have hn : ¬ (s.params.rst2Abort = true ∧ (owReset (dsConvert r)).pres ≠ .present) := by
      rintro ⟨h1, h2⟩
      rcases hab with h3 | h3
      · rw [h3] at h1; cases h1
      · exact h2 h3
    rw [if_neg hn] at h5
    have run : dsRun 19 (atStep 1#4 s) = dsRun 12 (dsCommand r2) := by
      rw [conv h, dsRun_goto h5, dsRun_goto (dsStep_6 rfl), dsRun_goto (dsStep_7 rfl)]
      rfl
    have h8 := dsRun_bytes 8 3 (s := dsCommand r2) rfl rfl
    rw [show (3 + (8 + 1)) = 12 from rfl] at h8
    rw [h8.1, dsRun_goto (dsStep_9 h8.2)] at run
    have h10 := dsStep_10 (s := atStep 10#4 (owReset (dsReadBytes 9 (dsCommand r2)))) rfl
    have hup : u.params = s.params := by
      have hb : ∀ n v, (dsReadBytes n v).params = v.params := by
        intro n
        induction n with
        | zero => intro v; rfl
        | succ n ih => intro v; simp [dsReadBytes, ih, atStep]
      simp [u, dsCheck, atStep, hb, dsCommand, r2, hp]
    constructor
    · intro hu
      have hu' : (crcCheck (atStep 10#4 (owReset (dsReadBytes 9 (dsCommand r2))))).crcok = false :=
        hu
      rw [hu'] at h10
      exact fin (run.trans (dsRun_done h10 1))
    · intro hu
      have hu' : (crcCheck (atStep 10#4 (owReset (dsReadBytes 9 (dsCommand r2))))).crcok = true :=
        hu
      rw [hu'] at h10
      have h11 := dsStep_11 (s := atStep 11#4 u) rfl
      refine fin ?_
      rw [run, dsRun_goto h10]
      show dsRun 1 (atStep 11#4 u) = _
      rw [dsRun_done h11]
      show (_, celsius u.params.roundBias _) = _
      rw [hup]

/-! ### What every path leaves -/

/-- What the 1-Wire part of the machine looks like between two of its procedures, `IE` being `v`. -/
structure Rested (v : Bool) (s : State) : Prop where
  dirOw : s.dirOw = false
  latOw : s.latOw = false
  ie : s.ie = v
  dly : s.dly = 0#20

theorem rested_owReset (s : State) : Rested s.ie (owReset s) := by
  constructor <;> simp

theorem rested_owByte (d : Byte) (s : State) : Rested s.ie (owByte d s) := by
  constructor <;> simp

theorem rested_atStep {v : Bool} {s : State} (n : BitVec 4) (h : Rested v s) :
    Rested v (atStep n s) := ⟨h.dirOw, h.latOw, h.ie, h.dly⟩

theorem rested_wait {v : Bool} {s : State} (d : BitVec 20) (h : Rested v s) :
    Rested v (wait d s) := ⟨by simp [h.dirOw], by simp [h.latOw], by simp [h.ie], by simp⟩

theorem rested_reset {v : Bool} {s : State} (h : s.ie = v) : Rested v (owReset s) :=
  h ▸ rested_owReset s

theorem rested_byte {v : Bool} {s : State} (d : Byte) (h : s.ie = v) : Rested v (owByte d s) :=
  h ▸ rested_owByte d s

theorem rested_dsConvert {v : Bool} {s : State} (h : s.ie = v) : Rested v (dsConvert s) := by
  have h1 := rested_atStep 3#4 (rested_byte Config.cmdSkipRom (s := atStep 2#4 s) h)
  have h2 := rested_atStep 4#4 (rested_byte Config.cmdConvert h1.ie)
  exact rested_atStep 5#4 (rested_wait Config.tConv h2)

theorem rested_dsCommand {v : Bool} {s : State} (h : s.ie = v) : Rested v (dsCommand s) := by
  have h1 := rested_atStep 7#4 (rested_byte Config.cmdSkipRom (s := atStep 6#4 s) h)
  have h2 := rested_byte Config.cmdReadSp h1.ie
  exact ⟨h2.dirOw, h2.latOw, h2.ie, h2.dly⟩

theorem rested_readScratchByte {v : Bool} {s : State} (h : s.ie = v) :
    Rested v (readScratchByte s) := by
  have h2 := rested_byte 0xFF#8 h
  exact ⟨h2.dirOw, h2.latOw, h2.ie, h2.dly⟩

theorem rested_dsReadBytes {v : Bool} (n : Nat) {s : State} (h : Rested v s) :
    Rested v (dsReadBytes n s) := by
  induction n generalizing s with
  | zero => exact h
  | succ n ih => exact ih (rested_atStep _ (rested_readScratchByte h.ie))

theorem rested_dsCheck {v : Bool} {s : State} (h : s.ie = v) : Rested v (dsCheck s) := by
  have h1 := rested_atStep 10#4 (rested_reset h)
  exact ⟨by simp [dsCheck, h1.dirOw], by simp [dsCheck, h1.latOw], by simp [dsCheck, h1.ie],
    by simp [dsCheck, h1.dly]⟩

/-- On every path the read ends in `dsEnd` of a rested state. -/
theorem dsRead_ends (s : State) : ∃ t u, dsRead s = dsEnd t u ∧ Rested s.ie u := by
  obtain ⟨h1, h2, h3⟩ := dsRead_paths s
  have r1 : Rested s.ie (owReset (atStep 1#4 s)) := rested_reset rfl
  generalize owReset (atStep 1#4 s) = r at *
  have r2 : Rested s.ie (owReset (dsConvert r)) := rested_reset (rested_dsConvert r1.ie).ie
  generalize owReset (dsConvert r) = q at *
  have r3 : Rested s.ie (dsCheck (dsReadBytes 9 (dsCommand q))) :=
    rested_dsCheck (rested_dsReadBytes 9 (rested_dsCommand r2.ie)).ie
  generalize dsCheck (dsReadBytes 9 (dsCommand q)) = u at *
  by_cases hp : r.pres = .present
  · by_cases ha : s.params.rst2Abort = true ∧ q.pres ≠ .present
    · exact ⟨_, _, h2 hp ha.1 ha.2, r2⟩
    · have hab : s.params.rst2Abort = false ∨ q.pres = .present := by
        by_cases hb : q.pres = .present
        · exact .inr hb
        · exact .inl (by simpa [hb] using ha)
      cases hc : u.crcok
      · exact ⟨_, _, (h3 hp hab).1 hc, r3⟩
      · exact ⟨_, _, (h3 hp hab).2 hc, ⟨r3.dirOw, r3.latOw, r3.ie, r3.dly⟩⟩
  · exact ⟨_, _, h1 hp, r1⟩

/-- On every path the sequencer ends idle, the pin released, no delay running, `IE` as before. -/
@[simp] theorem dsRead_sets (s : State) :
    (dsRead s).seq = 0#4 ∧ (dsRead s).dirOw = false ∧ (dsRead s).latOw = false ∧
    (dsRead s).ie = s.ie ∧ (dsRead s).dly = 0#20 := by
  obtain ⟨t, u, h, r⟩ := dsRead_ends s
  rw [h]
  exact ⟨rfl, r.dirOw, r.latOw, r.ie, r.dly⟩

end Sys2Proof.Machine
end

