-- ==== Sys2Proof/Laws/Ds18b20Read.lean ====
section
/-! SUPPORT. The stretches of a temperature read against a device, or a line held low: what they use
up of the environment, what they leave in `SP`, how long they last (43_ds18b20.md R151, R152). -/

namespace Sys2Proof.Machine

theorem holds_append {m : Memory} {pre : List Byte} (h : Holds m pre) (b : Byte) :
    Holds (writeByte m pre.length b) (pre ++ [b]) := by
  intro i hi
  simp only [List.length_append, List.length_singleton] at hi
  rw [readByte_writeByte]
  split
  · next h => subst h; simp
  · rw [List.getElem?_append_left (by omega)]
    exact h i (by omega)

/-- A byte read answers what the line sends. -/
theorem owByte_read (b : Byte) (rest : Env) {s : State} (he : s.env = slotAnswers 0xFF#8 b rest) :
    (owByte 0xFF#8 s).rx = b ∧ (owByte 0xFF#8 s).env = rest := by
  have h := owByte_answers _ _ _ he
  have hb : 0xFF#8 &&& b = b := BitVec.allOnes_and
  rwa [hb] at h

/-- Steps 2 to 4 leave everything but the registers of a byte transfer. -/
theorem dsConvert_keeps (s : State) :
    (dsConvert s).sp = s.sp ∧ (dsConvert s).crc = s.crc ∧ (dsConvert s).crcok = s.crcok ∧
    (dsConvert s).raw = s.raw ∧ (dsConvert s).params = s.params ∧ (dsConvert s).pres = s.pres := by
  simp [dsConvert, atStep]

/-- Steps 6 and 7 leave everything but the registers of a byte transfer and `BYTECNT`. -/
theorem dsCommand_keeps (s : State) :
    (dsCommand s).sp = s.sp ∧ (dsCommand s).crc = s.crc ∧ (dsCommand s).crcok = s.crcok ∧
    (dsCommand s).raw = s.raw ∧ (dsCommand s).params = s.params ∧ (dsCommand s).pres = s.pres ∧
    (dsCommand s).bytecnt = 0#4 := by
  simp [dsCommand, atStep]

theorem dsReadBytes_keeps (n : Nat) (s : State) :
    (dsReadBytes n s).crc = s.crc ∧ (dsReadBytes n s).crcok = s.crcok ∧
    (dsReadBytes n s).raw = s.raw ∧ (dsReadBytes n s).params = s.params ∧
    (dsReadBytes n s).pres = s.pres := by
  induction n generalizing s with
  | zero => simp [dsReadBytes]
  | succ n ih => simp [dsReadBytes, ih, atStep]

/-- `s` at step `n` has the environment of `s`. -/
theorem atStep_env (n : BitVec 4) (s : State) : (atStep n s).env = s.env := rfl

theorem atStep_now (n : BitVec 4) (s : State) : (atStep n s).now = s.now := rfl

theorem atStep_ie (n : BitVec 4) (s : State) : (atStep n s).ie = s.ie := rfl

theorem atStep_params (n : BitVec 4) (s : State) : (atStep n s).params = s.params := rfl

/-- Steps 2 to 4 use up the answers to their slots. -/
theorem dsConvert_answers (rest : Env) {s : State}
    (he : s.env = slotAnswers 0xCC#8 0xFF#8 (slotAnswers 0x44#8 0xFF#8 rest)) :
    (dsConvert s).env = rest := by
  have a := (owByte_answers Config.cmdSkipRom 0xFF#8 _ (s := atStep 2#4 s) he).2
  rw [dsConvert]
  generalize owByte Config.cmdSkipRom (atStep 2#4 s) = u at a ⊢
  have b := (owByte_answers Config.cmdConvert 0xFF#8 _ (s := atStep 3#4 u) a).2
  simpa [atStep_env] using b

/-- With interrupts off steps 2 to 4 last two transfers and the conversion wait. -/
theorem dsConvert_now {s : State} (h : s.ie = false) :
    (dsConvert s).now = s.now + 2 * (8 * (60 + s.params.tRec.toNat)) + 750000 := by
  have a := owByte_now (s := atStep 2#4 s) h Config.cmdSkipRom
  have a1 : (owByte Config.cmdSkipRom (atStep 2#4 s)).ie = false := by simp [atStep_ie, h]
  have a2 : (owByte Config.cmdSkipRom (atStep 2#4 s)).params = s.params := by simp [atStep_params]
  rw [dsConvert]
  generalize owByte Config.cmdSkipRom (atStep 2#4 s) = u at *
  have b := owByte_now (s := atStep 3#4 u) a1 Config.cmdConvert
  have b1 : (owByte Config.cmdConvert (atStep 3#4 u)).ie = false := by simp [atStep_ie, a1]
  generalize owByte Config.cmdConvert (atStep 3#4 u) = v at *
  rw [atStep_now, wait_now_of_ie_false (s := atStep 4#4 v) b1, atStep_now, b, atStep_now, a,
    atStep_params, atStep_params, a2, atStep_now]
  show _ + 750000 = _
  ring

/-- Steps 6 and 7 use up the answers to their slots. -/
theorem dsCommand_answers (rest : Env) {s : State}
    (he : s.env = slotAnswers 0xCC#8 0xFF#8 (slotAnswers 0xBE#8 0xFF#8 rest)) :
    (dsCommand s).env = rest := by
  have a := (owByte_answers Config.cmdSkipRom 0xFF#8 _ (s := atStep 6#4 s) he).2
  rw [dsCommand]
  generalize owByte Config.cmdSkipRom (atStep 6#4 s) = u at a ⊢
  exact (owByte_answers Config.cmdReadSp 0xFF#8 _ (s := atStep 7#4 u) a).2

/-- With interrupts off steps 6 and 7 last two transfers. -/
theorem dsCommand_now {s : State} (h : s.ie = false) :
    (dsCommand s).now = s.now + 2 * (8 * (60 + s.params.tRec.toNat)) := by
  have a := owByte_now (s := atStep 6#4 s) h Config.cmdSkipRom
  have a1 : (owByte Config.cmdSkipRom (atStep 6#4 s)).ie = false := by simp [atStep_ie, h]
  have a2 : (owByte Config.cmdSkipRom (atStep 6#4 s)).params = s.params := by simp [atStep_params]
  rw [dsCommand]
  generalize owByte Config.cmdSkipRom (atStep 6#4 s) = u at *
  have b := owByte_now (s := atStep 7#4 u) a1 Config.cmdReadSp
  show (owByte Config.cmdReadSp (atStep 7#4 u)).now = _
  rw [b, atStep_now, a, atStep_params, atStep_params, a2, atStep_now]
  ring

/-- A line held low stays held low through steps 2 to 4, and through 6 and 7. -/
theorem dsConvert_level {v : Bool} {s : State} (he : s.env = .level v) :
    (dsConvert s).env = .level v := by
  have a := (owByte_level Config.cmdSkipRom (s := atStep 2#4 s) he).2
  rw [dsConvert]
  generalize owByte Config.cmdSkipRom (atStep 2#4 s) = u at a ⊢
  have b := (owByte_level Config.cmdConvert (s := atStep 3#4 u) a).2
  simpa [atStep_env] using b

theorem dsCommand_level {v : Bool} {s : State} (he : s.env = .level v) :
    (dsCommand s).env = .level v := by
  have a := (owByte_level Config.cmdSkipRom (s := atStep 6#4 s) he).2
  rw [dsCommand]
  generalize owByte Config.cmdSkipRom (atStep 6#4 s) = u at a ⊢
  exact (owByte_level Config.cmdReadSp (s := atStep 7#4 u) a).2

/-- One byte of step 8: the byte read goes to the place `BYTECNT` names. -/
theorem readScratchByte_sets {s : State} {b : Byte} {pre : List Byte}
    (hb : (owByte 0xFF#8 s).rx = b) (hp : Holds s.sp pre) (hc : s.bytecnt.toNat = pre.length)
    (hl : pre.length < 15) :
    Holds (readScratchByte s).sp (pre ++ [b]) ∧
    (readScratchByte s).bytecnt.toNat = (pre ++ [b]).length := by
  constructor
  · have hs : (readScratchByte s).sp = writeByte s.sp pre.length b := by
      simp [readScratchByte, hb, hc]
    rw [hs]
    exact holds_append hp b
  · show ((owByte 0xFF#8 s).bytecnt + 1#4).toNat = _
    simp only [owByte_keeps, BitVec.toNat_add, hc, List.length_append, List.length_singleton]
    show (pre.length + 1) % 16 = _
    omega

theorem readScratchByte_env (s : State) : (readScratchByte s).env = (owByte 0xFF#8 s).env := rfl

/-- Step 8 leaves the bytes the device sends. -/
theorem dsReadBytes_answers (bs pre : List Byte) (rest : Env) {s : State}
    (he : s.env = readAnswers bs rest) (hp : Holds s.sp pre) (hc : s.bytecnt.toNat = pre.length)
    (hl : pre.length + bs.length < 16) :
    Holds (dsReadBytes bs.length s).sp (pre ++ bs) ∧ (dsReadBytes bs.length s).env = rest := by
  induction bs generalizing pre s with
  | nil => exact ⟨by simpa [dsReadBytes] using hp, he⟩
  | cons b bs ih =>
    simp only [List.length_cons] at hl
    obtain ⟨h1, h2⟩ := owByte_read b _ he
    obtain ⟨h3, h4⟩ := readScratchByte_sets h1 hp hc (by omega)
    rw [← readScratchByte_env] at h2
    have h := ih (pre ++ [b]) (s := atStep (if bs.length = 0 then 9#4 else 8#4) (readScratchByte s))
      h2 h3 h4 (by simp only [List.length_append, List.length_singleton]; omega)
    rw [List.append_assoc] at h
    exact h

/-- Step 8 reads zeros from a line held low, ones from a line that nothing pulls low. -/
theorem dsReadBytes_level (n : Nat) (v : Bool) (pre : List Byte) {s : State}
    (he : s.env = .level v) (hp : Holds s.sp pre) (hc : s.bytecnt.toNat = pre.length)
    (hl : pre.length + n < 16) :
    Holds (dsReadBytes n s).sp (pre ++ List.replicate n (if v then 0xFF#8 else 0x00#8)) ∧
    (dsReadBytes n s).env = .level v := by
  induction n generalizing pre s with
  | zero => exact ⟨by simpa [dsReadBytes] using hp, he⟩
  | succ n ih =>
    obtain ⟨h1, h2⟩ := owByte_level 0xFF#8 he
    obtain ⟨h3, h4⟩ := readScratchByte_sets h1 hp hc (by omega)
    rw [← readScratchByte_env] at h2
    have h := ih (pre ++ [if v then 0xFF#8 else 0x00#8]) (s := atStep (if n = 0 then 9#4 else 8#4) (readScratchByte s))
      h2 h3 h4 (by simp only [List.length_append, List.length_singleton]; omega)
    rw [List.append_assoc] at h
    exact h

/-- With interrupts off step 8 lasts one transfer for each byte. -/
theorem dsReadBytes_now (n : Nat) {s : State} (h : s.ie = false) :
    (dsReadBytes n s).now = s.now + n * (8 * (60 + s.params.tRec.toNat)) := by
  induction n generalizing s with
  | zero => simp [dsReadBytes]
  | succ n ih =>
    have h1 : (readScratchByte s).now = s.now + 8 * (60 + s.params.tRec.toNat) := owByte_now h _
    have h2 : (readScratchByte s).params = s.params := by simp
    have h3 := (rested_readScratchByte h).ie
    rw [dsReadBytes, ih (by rw [atStep_ie, h3]), atStep_now, atStep_params, h1, h2]
    ring

/-- Steps 9 and 10 on a buffer whose nine bytes are written. -/
theorem dsCheck_sets {s : State} {m : List Byte} {c : Byte} (hm : m.length = 8)
    (h : Holds s.sp (m ++ [c])) :
    (dsCheck s).crc = crcOf m ∧ (dsCheck s).crcok = decide (crcOf m = c) ∧ (dsCheck s).sp = s.sp ∧
    (dsCheck s).raw = s.raw ∧ (dsCheck s).params = s.params ∧
    (dsCheck s).env = (owReset s).env ∧ (dsCheck s).pres = (owReset s).pres ∧
    (dsCheck s).now = (owReset s).now := by
  have k := owReset_keeps s
  have hs : Holds (atStep 10#4 (owReset s)).sp (m ++ [c]) := by
    show Holds (owReset s).sp _
    simpa using h
  rw [dsCheck, crcCheck_eq hm hs]
  simp [atStep]

/-- From the second reset on, where it does not end the read, against a device that sends nine bytes
and answers the third reset (R151, R152, R156). -/
theorem dsTail_answers {q : State} {m : List Byte} {c : Byte} {rest : Env} (hm : m.length = 8)
    (he : q.env = slotAnswers 0xCC#8 0xFF#8 (slotAnswers 0xBE#8 0xFF#8
      (readAnswers (m ++ [c]) (presenceAnswers rest)))) :
    let u := dsCheck (dsReadBytes 9 (dsCommand q))
    Holds u.sp (m ++ [c]) ∧ u.crc = crcOf m ∧ u.crcok = decide (crcOf m = c) ∧ u.raw = q.raw ∧
    u.env = rest ∧ u.pres = .present := by
  have e4 := dsCommand_answers _ he
  have k4 := dsCommand_keeps q
  have hlen : (m ++ [c]).length = 9 := by simp [hm]
  have e5 := dsReadBytes_answers (m ++ [c]) [] _ e4 (by intro i hi; simp at hi)
    (by rw [k4.2.2.2.2.2.2]; rfl) (by rw [hlen]; decide)
  rw [hlen, List.nil_append] at e5
  have k5 := dsReadBytes_keeps 9 (dsCommand q)
  have e6 := owReset_presence _ e5.2
  have e7 := dsCheck_sets hm e5.1
  rw [e6.1, e6.2, k5.2.2.1, k4.2.2.2.1] at e7
  exact ⟨by rw [e7.2.2.1]; exact e5.1, e7.1, e7.2.1, e7.2.2.2.1, e7.2.2.2.2.2.1,
    e7.2.2.2.2.2.2.1⟩

/-- The same on a line at one level for good. -/
theorem dsTail_level {q : State} {v : Bool} (he : q.env = .level v) :
    let u := dsCheck (dsReadBytes 9 (dsCommand q))
    Holds u.sp (List.replicate 9 (if v then 0xFF#8 else 0x00#8)) ∧ u.raw = q.raw ∧
    u.crc = crcOf (List.replicate 8 (if v then 0xFF#8 else 0x00#8)) ∧ u.crcok = (!v) ∧
    u.pres = (if v then .noDevice else .busError) := by
  have k4 := dsCommand_keeps q
  have e5 := dsReadBytes_level 9 v [] (dsCommand_level he) (by intro i hi; simp at hi)
    (by rw [k4.2.2.2.2.2.2]; rfl) (by decide)
  rw [List.nil_append] at e5
  have k5 := dsReadBytes_keeps 9 (dsCommand q)
  have e6 : (owReset (dsReadBytes 9 (dsCommand q))).pres =
      (if v then .noDevice else .busError) := by
    cases v
    · exact (owReset_level_low e5.2).1
    · exact (owReset_level_high e5.2).1
  have e7 := dsCheck_sets (m := List.replicate 8 (if v then 0xFF#8 else 0x00#8))
    (c := if v then 0xFF#8 else 0x00#8) rfl e5.1
  have hz : decide (crcOf (List.replicate 8 (if v then 0xFF#8 else 0x00#8)) =
      (if v then 0xFF#8 else 0x00#8)) = !v := by cases v <;> decide +kernel
  rw [e6, hz, k5.2.2.1, k4.2.2.2.1] at e7
  exact ⟨by rw [e7.2.2.1]; exact e5.1, e7.2.2.2.1, e7.1, e7.2.1, e7.2.2.2.2.2.2.1⟩

/-- The end of a read touches `RES` and `SEQ` alone. -/
theorem dsEnd_sets (t : Int) (s : State) :
    (dsEnd t s).res = BitVec.ofInt 16 t ∧ (dsEnd t s).seq = 0#4 ∧ (dsEnd t s).sp = s.sp ∧
    (dsEnd t s).crc = s.crc ∧ (dsEnd t s).crcok = s.crcok ∧ (dsEnd t s).raw = s.raw ∧
    (dsEnd t s).pres = s.pres ∧ (dsEnd t s).env = s.env ∧ (dsEnd t s).now = s.now :=
  ⟨rfl, rfl, rfl, rfl, rfl, rfl, rfl, rfl, rfl⟩

end Sys2Proof.Machine
end

