-- ==== Sys2Proof/Laws/Ds18b20Steps.lean ====
section
/-! SUPPORT. A temperature read as its procedures in order, with no step counter between them, and
that nothing of it depends on what `SP` held before (43_ds18b20.md R151 to R158, 10_state.md R42). -/

namespace Sys2Proof.Machine

/-! ### The step table as a sequence -/

theorem dsConvert_eq (s : State) :
    dsConvert s =
      atStep 5#4 (wait Config.tConv (owByte Config.cmdConvert (owByte Config.cmdSkipRom s))) := by
  simp only [dsConvert, owByte_atStep, wait_atStep, atStep_atStep]

theorem dsCommand_eq (s : State) :
    dsCommand s = atStep 8#4
      { owByte Config.cmdReadSp (owByte Config.cmdSkipRom s) with bytecnt := 0#4 } := by
  simp only [dsCommand, owByte_atStep]
  rfl

/-- One byte of step 8, the byte of index `k`. -/
def scratchTurn (s : State) (k : Nat) : State :=
  { owByte 0xFF#8 s with
    sp := writeByte (owByte 0xFF#8 s).sp k (owByte 0xFF#8 s).rx
    bytecnt := BitVec.ofNat 4 (k + 1) }

/-- Step 8 from index `k` on, `n` bytes. -/
def scratchBytes (k n : Nat) (s : State) : State := (List.range' k n).foldl scratchTurn s

theorem readScratchByte_eq {k : Nat} {s : State} (h : s.bytecnt.toNat = k)
    (m : BitVec 4) :
    readScratchByte (atStep m s) = atStep m (scratchTurn s k) := by
  have hb : (owByte 0xFF#8 s).bytecnt = s.bytecnt := by simp
  have hn : s.bytecnt + 1#4 = BitVec.ofNat 4 (k + 1) := by
    apply BitVec.eq_of_toNat_eq
    rw [BitVec.toNat_add, h]
    rfl
  simp only [readScratchByte, owByte_atStep, scratchTurn]
  show atStep m { owByte 0xFF#8 s with
    sp := writeByte (owByte 0xFF#8 s).sp (owByte 0xFF#8 s).bytecnt.toNat (owByte 0xFF#8 s).rx
    bytecnt := (owByte 0xFF#8 s).bytecnt + 1#4 } = _
  rw [hb, h, hn]

theorem dsReadBytes_eq (n k : Nat) (m : BitVec 4) {s : State} (hk : k + n = 9)
    (h : s.bytecnt.toNat = k) :
    ∃ j, dsReadBytes n (atStep m s) = atStep j (scratchBytes k n s) := by
  induction n generalizing k m s with
  | zero => exact ⟨m, rfl⟩
  | succ n ih =>
    rw [dsReadBytes, readScratchByte_eq h, atStep_atStep]
    refine ih (k + 1) _ (s := scratchTurn s k) (by omega) ?_
    show (k + 1) % 16 = k + 1
    omega

theorem crcLoop_atStep (n : Nat) (m : BitVec 4) (s : State) :
    crcLoop n (atStep m s) = atStep m (crcLoop n s) := by
  induction n generalizing s with
  | zero => rfl
  | succ n ih =>
    exact ih { s with
      crc := crc8Update s.crc (byteAt s.sp s.bytecnt.toNat)
      bytecnt := s.bytecnt + 1#4 }

theorem crcCheck_atStep (m : BitVec 4) (s : State) :
    crcCheck (atStep m s) = atStep m (crcCheck s) := by
  have h := crcLoop_atStep 8 m { s with crc := Config.crcInit, bytecnt := 0#4 }
  have hc : ∀ u, crcCheck u =
      { crcLoop 8 { u with crc := Config.crcInit, bytecnt := 0#4 } with
        crcok := decide ((crcLoop 8 { u with crc := Config.crcInit, bytecnt := 0#4 }).crc =
          byteAt (crcLoop 8 { u with crc := Config.crcInit, bytecnt := 0#4 }).sp 8) } :=
    fun _ => rfl
  have hs : ({ atStep m s with crc := Config.crcInit, bytecnt := 0#4 } : State) =
      atStep m { s with crc := Config.crcInit, bytecnt := 0#4 } := rfl
  rw [hc, hc, hs, h]
  rfl

/-- The state at the second reset of a read, after the first one left `r`. -/
def secondReset (r : State) : State :=
  owReset (wait Config.tConv (owByte Config.cmdConvert (owByte Config.cmdSkipRom r)))

/-- The buffer full, after the second reset left `q`. -/
def bufferFull (q : State) : State :=
  scratchBytes 0 9 { owByte Config.cmdReadSp (owByte Config.cmdSkipRom q) with bytecnt := 0#4 }

theorem dsTail_eq (q : State) :
    ∃ j, dsCheck (dsReadBytes 9 (dsCommand q)) = atStep j (crcCheck (owReset (bufferFull q))) := by
  obtain ⟨j, hj⟩ := dsReadBytes_eq 9 0 8#4
    (s := { owByte Config.cmdReadSp (owByte Config.cmdSkipRom q) with bytecnt := 0#4 }) rfl rfl
  rw [dsCommand_eq, hj, dsCheck, owReset_atStep, atStep_atStep, crcCheck_atStep]
  exact ⟨_, rfl⟩

theorem dsEnd_atStep (t : Int) (n : BitVec 4) (s : State) : dsEnd t (atStep n s) = dsEnd t s := rfl

theorem decodeRaw_atStep (n : BitVec 4) (s : State) :
    decodeRaw (atStep n s) = atStep n (decodeRaw s) := rfl

/-- A temperature read as its procedures in order (R151). -/
theorem dsRead_sequence (s : State) :
    let r1 := owReset s
    let r2 := secondReset r1
    let k := crcCheck (owReset (bufferFull r2))
    (r1.pres ≠ .present → dsRead s = dsEnd Config.sentinel r1) ∧
    (r1.pres = .present → s.params.rst2Abort = true → r2.pres ≠ .present →
      dsRead s = dsEnd Config.sentinel r2) ∧
    (r1.pres = .present → (s.params.rst2Abort = false ∨ r2.pres = .present) →
      (k.crcok = false → dsRead s = dsEnd Config.sentinel k) ∧
      (k.crcok = true →
        dsRead s = dsEnd (celsius s.params.roundBias (decodeRaw k).raw) (decodeRaw k))) := by
  intro r1 r2 k
  obtain ⟨h1, h2, h3⟩ := dsRead_paths s
  have e2 : owReset (dsConvert (owReset (atStep 1#4 s))) = atStep 5#4 r2 := by
    rw [owReset_atStep, dsConvert_eq, owByte_atStep, owByte_atStep, wait_atStep, atStep_atStep,
      owReset_atStep]
    rfl
  have e1 : owReset (atStep 1#4 s) = atStep 1#4 r1 := owReset_atStep 1#4 s
  have e3 : dsCommand (atStep 5#4 r2) = dsCommand r2 := by
    rw [dsCommand_eq, dsCommand_eq, owByte_atStep, owByte_atStep]
    rfl
  obtain ⟨j, hj⟩ := dsTail_eq r2
  rw [e2] at h2 h3
  rw [e3, hj] at h3
  rw [e1] at h1 h2 h3
  have hp : ∀ n u, (atStep n u).pres = u.pres := fun _ _ => rfl
  have hc : ∀ n u, (atStep n u).crcok = u.crcok := fun _ _ => rfl
  have hr : ∀ n u, (atStep n u).raw = u.raw := fun _ _ => rfl
  simp only [hp, hc, hr, dsEnd_atStep, atStep_atStep, decodeRaw_atStep] at h1 h2 h3
  have hk : crcCheck (owReset (bufferFull r2)) = k := rfl
  rw [hk] at h3
  generalize k = k at h3 ⊢
  generalize r2 = r2 at h2 h3 ⊢
  generalize r1 = r1 at h1 h2 h3 ⊢
  exact ⟨h1, h2, h3⟩

/-! ### What the buffer holds after step 8 -/

theorem scratchBytes_succ (n : Nat) (s : State) :
    scratchBytes 0 (n + 1) s = scratchTurn (scratchBytes 0 n s) n := by
  simp [scratchBytes, List.range'_1_concat]

theorem scratchTurn_sp (s : State) (k : Nat) :
    (scratchTurn s k).sp = writeByte s.sp k (owByte 0xFF#8 s).rx := by
  have : (owByte 0xFF#8 s).sp = s.sp := by simp
  rw [scratchTurn, this]

/-- Step 8 leaves every byte it has reached written. -/
theorem scratchBytes_written (n : Nat) (s : State) :
    ∀ a, a < n → readByte (scratchBytes 0 n s).sp a ≠ none := by
  induction n with
  | zero => intro a h; omega
  | succ n ih =>
    intro a ha
    rw [scratchBytes_succ, scratchTurn_sp, readByte_writeByte]
    split
    · simp
    · exact ih a (by omega)

/-! ### Nothing of it depends on what `SP` held before -/

/-- `s` with other contents of `SP`. -/
def withSp (m : Memory) (s : State) : State := { s with sp := m }

theorem owReset_withSp (m : Memory) (s : State) : owReset (withSp m s) = withSp m (owReset s) :=
  owReset_beside { sp := fun _ => m } s

theorem owByte_withSp (d : Byte) (m : Memory) (s : State) :
    owByte d (withSp m s) = withSp m (owByte d s) := by
  have h : ∀ u, withSp m u = beside (Beside.bytes { sp := fun _ => m }) u := fun _ => rfl
  rw [h, h, owByte_beside]

theorem wait_withSp (d : BitVec 20) (m : Memory) (s : State) :
    wait d (withSp m s) = withSp m (wait d s) := wait_beside d { sp := fun _ => m } s

theorem secondReset_withSp (m : Memory) (s : State) :
    secondReset (withSp m s) = withSp m (secondReset s) := by
  simp only [secondReset, owByte_withSp, wait_withSp, owReset_withSp]

/-- Step 8 overwrites what it has reached, whatever stood there. -/
theorem scratchBytes_withSp (n : Nat) (m : Memory) (s : State) :
    ∃ m', scratchBytes 0 n (withSp m s) = withSp m' (scratchBytes 0 n s) ∧
      ∀ a, a < n → readByte m' a = readByte (scratchBytes 0 n s).sp a := by
  induction n with
  | zero => exact ⟨m, rfl, by intro a h; omega⟩
  | succ n ih =>
    obtain ⟨m', h1, h2⟩ := ih
    refine ⟨writeByte m' n (owByte 0xFF#8 (scratchBytes 0 n s)).rx, ?_, ?_⟩
    · rw [scratchBytes_succ, scratchBytes_succ, h1, scratchTurn, owByte_withSp, scratchTurn]
      rfl
    · intro a ha
      rw [scratchBytes_succ, scratchTurn_sp, readByte_writeByte, readByte_writeByte]
      split
      · rfl
      · exact h2 a (by omega)

theorem crcLoop_withSp (n : Nat) {m : Memory} {s : State}
    (h : ∀ a, a < 9 → byteAt m a = byteAt s.sp a) (hn : s.bytecnt.toNat + n ≤ 9) :
    crcLoop n (withSp m s) = withSp m (crcLoop n s) := by
  induction n generalizing s with
  | zero => rfl
  | succ n ih =>
    have ha : byteAt (withSp m s).sp (withSp m s).bytecnt.toNat = byteAt s.sp s.bytecnt.toNat :=
      h s.bytecnt.toNat (by omega)
    rw [crcLoop, crcLoop, ha]
    refine ih (s := { s with
      crc := crc8Update s.crc (byteAt s.sp s.bytecnt.toNat)
      bytecnt := s.bytecnt + 1#4 }) h ?_
    show (s.bytecnt + 1#4).toNat + n ≤ 9
    rw [BitVec.toNat_add]
    show (s.bytecnt.toNat + 1) % 16 + n ≤ 9
    omega

theorem crcCheck_withSp {m : Memory} {s : State} (h : ∀ a, a < 9 → byteAt m a = byteAt s.sp a) :
    crcCheck (withSp m s) = withSp m (crcCheck s) := by
  have hl := crcLoop_withSp 8 (s := { s with crc := Config.crcInit, bytecnt := 0#4 }) h
    (show (0#4).toNat + 8 ≤ 9 by decide)
  have hsp : (crcLoop 8 { s with crc := Config.crcInit, bytecnt := 0#4 }).sp = s.sp := by simp
  have hc : ∀ u, crcCheck u =
      { crcLoop 8 { u with crc := Config.crcInit, bytecnt := 0#4 } with
        crcok := decide ((crcLoop 8 { u with crc := Config.crcInit, bytecnt := 0#4 }).crc =
          byteAt (crcLoop 8 { u with crc := Config.crcInit, bytecnt := 0#4 }).sp 8) } :=
    fun _ => rfl
  have hs : ({ withSp m s with crc := Config.crcInit, bytecnt := 0#4 } : State) =
      withSp m { s with crc := Config.crcInit, bytecnt := 0#4 } := rfl
  have h8 : byteAt m 8 = byteAt (crcLoop 8 { s with crc := Config.crcInit, bytecnt := 0#4 }).sp 8 := by
    rw [hsp]
    exact h 8 (by omega)
  rw [hc, hc, hs, hl, ← h8]
  rfl

/-- A temperature read is the same, but for `SP` itself, whatever `SP` held before it: it reads no
byte it has not written (R42). -/
theorem dsRead_withSp (m : Memory) (s : State) :
    ∃ m', dsRead (withSp m s) = withSp m' (dsRead s) := by
  obtain ⟨a1, a2, a3⟩ := dsRead_sequence s
  obtain ⟨b1, b2, b3⟩ := dsRead_sequence (withSp m s)
  rw [owReset_withSp] at b1 b2 b3
  rw [secondReset_withSp] at b2 b3
  obtain ⟨n, hn, hr⟩ := scratchBytes_withSp 9 m
    { owByte Config.cmdReadSp (owByte Config.cmdSkipRom (secondReset (owReset s))) with
      bytecnt := 0#4 }
  have hb : bufferFull (withSp m (secondReset (owReset s))) =
      withSp n (bufferFull (secondReset (owReset s))) := by
    rw [bufferFull, owByte_withSp, owByte_withSp]
    exact hn
  have hk : crcCheck (owReset (bufferFull (withSp m (secondReset (owReset s))))) =
      withSp n (crcCheck (owReset (bufferFull (secondReset (owReset s))))) := by
    rw [hb, owReset_withSp]
    refine crcCheck_withSp fun a ha => ?_
    have : (owReset (bufferFull (secondReset (owReset s)))).sp =
        (bufferFull (secondReset (owReset s))).sp := by simp
    rw [this, byteAt, byteAt, hr a ha]
    rfl
  have hd : decodeRaw (withSp n (crcCheck (owReset (bufferFull (secondReset (owReset s)))))) =
      withSp n (decodeRaw (crcCheck (owReset (bufferFull (secondReset (owReset s)))))) := by
    have hs : (crcCheck (owReset (bufferFull (secondReset (owReset s))))).sp =
        (bufferFull (secondReset (owReset s))).sp := by simp
    have hba : ∀ a, a < 9 → byteAt n a =
        byteAt (crcCheck (owReset (bufferFull (secondReset (owReset s))))).sp a := by
      intro a ha
      rw [hs, byteAt, byteAt, hr a ha]
      rfl
    rw [decodeRaw, decodeRaw, ← hba 0 (by omega), ← hba 1 (by omega)]
    rfl
  rw [hk] at b3
  rw [hd] at b3
  generalize owReset s = r1 at *
  generalize secondReset r1 = r2 at *
  generalize crcCheck (owReset (bufferFull r2)) = k at *
  by_cases h1 : r1.pres = .present
  · by_cases h2 : s.params.rst2Abort = true ∧ r2.pres ≠ .present
    · exact ⟨m, by rw [a2 h1 h2.1 h2.2, b2 h1 h2.1 h2.2]; rfl⟩
    · have h2' : s.params.rst2Abort = false ∨ r2.pres = .present := by
        by_cases hp : r2.pres = .present
        · exact .inr hp
        · exact .inl (by simpa [hp] using h2)
      cases hc : k.crcok
      · exact ⟨n, by rw [(a3 h1 h2').1 hc, (b3 h1 h2').1 hc]; rfl⟩
      · exact ⟨n, by rw [(a3 h1 h2').2 hc, (b3 h1 h2').2 hc]; rfl⟩
  · exact ⟨m, by rw [a1 h1, b1 h1]; rfl⟩

end Sys2Proof.Machine
end

