-- ==== Sys2Proof/Laws/Exec.lean ====
section
/-! SUPPORT. Said once: the state a command that ends leaves, and what every command leaves alone,
the handshake around it (10_state.md R21) and the parameters (00_scope.md R7). -/

namespace Sys2Proof.Machine

/-- The state command `i` leaves when it ends. -/
def execState (i : Instr) (s : State) : State :=
  match i with
  | .nop => respond 0#16 s
  | .getReg r => respond (readReg r s) s
  | .setIe b => respond (bitResponse s.ie) (writeIe b s)
  | .ldDir p v => respond 0#16 (setDir p v s)
  | .ldWrite p v => respond 0#16 (setLat p v s)
  | .ldRead p => respond (bitResponse (sample p s).1) (sample p s).2
  | .owReset => respond (presResponse (owReset s).pres) (owReset s)
  | .owBit b => respond (bitResponse (owBit b s).1) (owBit b s).2
  | .owByte d => respond (byteResponse (owByte d s).rx) (owByte d s)
  | .crcClr => respond 0#16 { s with crc := Config.crcInit }
  | .crcByte d => respond (byteResponse (crc8Update s.crc d)) { s with crc := crc8Update s.crc d }
  | .crcChk => respond (bitResponse (crcCheck s).crcok) (crcCheck s)
  | .dsRead => dsRead s
  | .dsDecode => respond (intResponse (celsius s.params.roundBias (decodeRaw s).raw)) (decodeRaw s)
  | .spWr k d =>
    if indexOk k then respond 0#16 { s with sp := writeByte s.sp k.toNat d } else malformed s
  | .spRd k =>
    if indexOk k then respond (byteResponse (byteAt s.sp k.toNat)) s else malformed s
  | .txInit => respond 0#16 (txInit s)
  | .txByte d => respond 0#16 (txByte d s)
  | .txDec w =>
    respond (BitVec.ofNat 16 (decCount (fillDec w s)))
      (sendDec (decCount (fillDec w s)) (fillDec w s))

/-- A command that ends, ends in `execState`. -/
theorem exec_next {i : Instr} {s t : State} (h : exec i s = .next t) : t = execState i s := by
  have nx : ∀ {u : State}, Host.Outcome.next u = (.next t : Host.Outcome State Fault Refusal) →
      t = u := fun h => (Host.Outcome.next.inj h).symm
  cases i with
  | spRd k =>
    simp only [exec, execSpRd] at h
    simp only [execState]
    split at h
    · next hk =>
      rw [if_pos hk]
      split at h
      · next hd => rw [nx h, byteAt, hd]; rfl
      · exact nomatch h
    · next hk => rw [if_neg hk, nx h]
  | spWr k d =>
    simp only [exec, execSpWr] at h
    simp only [execState]
    split at h
    · next hk => rw [if_pos hk, nx h]
    · next hk => rw [if_neg hk, nx h]
  | crcChk =>
    simp only [exec, execCrcChk] at h
    split at h
    · exact nomatch h
    · exact nx h
  | dsDecode =>
    simp only [exec, execDsDecode] at h
    split at h
    · exact nomatch h
    · exact nx h
  | ldRead p =>
    simp only [exec, execLdRead] at h
    split at h
    · exact nomatch h
    · exact nx h
  | _ => exact nx h

/-- A command that ends leaves the word it runs, the inputs still to come and the parameters. -/
theorem exec_keeps {i : Instr} {s t : State} (h : exec i s = .next t) :
    t.opc = s.opc ∧ t.arg = s.arg ∧ t.busy = s.busy ∧ t.offers = s.offers ∧
    t.resets = s.resets ∧ t.params = s.params := by
  rw [exec_next h]
  cases i with
  | spRd k => simp only [execState]; split <;> simp [malformed]
  | spWr k d => simp only [execState]; split <;> simp [malformed]
  | _ => simp [execState]

end Sys2Proof.Machine
end

