-- ==== Sys2Proof/Laws/OneWirePaths.lean ====
section
/-! SUPPORT. What a reset sequence and a byte transfer do on every line: the two paths of a reset
(41_onewire.md R121 to R125), and a byte as eight slots in order (R131). -/

namespace Sys2Proof.Machine

/-! ### Reset -/

/-- The idle check from a released pin with `n` samples left: its samples fall at the instants `us`
and `t1`, at least `T_POLL` apart; all but the last are low, and the last decides (R121). -/
theorem idleCheck_polls (n : Nat) {s : State} (hd : s.dirOw = false)
    (hr : s.retry.toNat = n + 1) :
    ∃ us t1, (us ++ [t1]).head? = some s.now ∧
      (us ++ [t1]).IsChain (fun a b => a + 1 ≤ b ∧ (s.ie = false → b = a + 1)) ∧
      (idleCheck (n + 1) s).2.now = t1 ∧ us.length ≤ n ∧
      (((idleCheck (n + 1) s).1 = true ∧
        (idleCheck (n + 1) s).2.trace = s.trace ++ us.map (fun u => .sample u .ow false true) ++
          [.sample t1 .ow true true] ∧
        (idleCheck (n + 1) s).2.retry.toNat = n + 1 - us.length) ∨
       ((idleCheck (n + 1) s).1 = false ∧ us.length = n ∧
        (idleCheck (n + 1) s).2.trace = s.trace ++ us.map (fun u => .sample u .ow false true) ++
          [.sample t1 .ow false true] ∧
        (idleCheck (n + 1) s).2.retry = 0#8)) := by
  induction n generalizing s with
  | zero =>
    have ht := sample_trace .ow s
    rw [show s.dir .ow = false from hd] at ht
    have hr1 : s.retry = 1#8 := BitVec.eq_of_toNat_eq (by simpa using hr)
    refine ⟨[], s.now, rfl, .singleton _, ?_, le_refl _, ?_⟩
    · rw [idleCheck_succ]
      split <;> simp
    · cases hv : (sample .ow s).1 with
      | true =>
        rw [hv] at ht
        rw [idleCheck_succ, if_pos hv]
        exact .inl ⟨rfl, by simpa using ht, by simp [hr1]⟩
      | false =>
        rw [hv] at ht
        rw [idleCheck_succ, if_neg (by simp [hv]), if_pos hr1]
        exact .inr ⟨rfl, rfl, by simpa using ht, by simp [hr1]⟩
  | succ n ih =>
    have ht := sample_trace .ow s
    rw [show s.dir .ow = false from hd] at ht
    have hr1 : s.retry ≠ 1#8 := by
      intro h
      rw [h] at hr
      simp at hr
    have hlt := s.retry.isLt
    have hi := idleTurn_sets s
    cases hv : (sample .ow s).1 with
    | true =>
      rw [hv] at ht
      rw [idleCheck_succ, if_pos hv]
      exact ⟨[], s.now, rfl, .singleton _, by simp, by simp,
        .inl ⟨rfl, by simpa using ht, by simp [hr]⟩⟩
    | false =>
      rw [hv] at ht
      rw [idleCheck_succ, if_neg (by simp [hv]), if_neg hr1]
      obtain ⟨us, t1, h1, h2, h3, h4, h5⟩ := ih (s := idleTurn s) (by rw [hi.1, hd]) (by
        rw [hi.2.2.2.2.1, BitVec.toNat_sub]
        simp
        omega)
      have htr : (idleTurn s).trace = s.trace ++ [.sample s.now .ow false true] := by
        rw [hi.2.2.2.2.2.1, ht]
        rfl
      rw [hi.2.1] at h2
      refine ⟨s.now :: us, t1, rfl, ?_, h3, by simp; omega, ?_⟩
      · rw [List.cons_append, List.isChain_cons]
        refine ⟨?_, h2⟩
        intro y hy
        rw [h1] at hy
        obtain rfl := Option.mem_some.mp hy
        exact ⟨hi.2.2.2.2.2.2.2.1, hi.2.2.2.2.2.2.2.2⟩
      · rcases h5 with ⟨a, b, c⟩ | ⟨a, b, c, d⟩
        · exact .inl ⟨a, by simpa [htr] using b, by simp; omega⟩
        · exact .inr ⟨a, by simp [b], by simpa [htr] using c, d⟩

/-- Instants one microsecond apart at least: the last is at least as many microseconds after the
first as there are instants before it; exactly so where they are exactly one apart. -/
theorem polls_last (us : List Nat) {n t1 : Nat} {p : Prop} (h : (us ++ [t1]).head? = some n)
    (hc : (us ++ [t1]).IsChain (fun a b => a + 1 ≤ b ∧ (p → b = a + 1))) :
    n + us.length ≤ t1 ∧ (p → t1 = n + us.length) := by
  induction us generalizing n with
  | nil =>
    obtain rfl := Option.some.inj h
    simp
  | cons u us ih =>
    obtain rfl := Option.some.inj h
    rw [List.cons_append, List.isChain_cons] at hc
    obtain ⟨m, hm⟩ : ∃ m, (us ++ [t1]).head? = some m := by cases us <;> simp
    have h1 := ih hm hc.2
    have h2 := hc.1 m hm
    simp only [List.length_cons]
    refine ⟨by omega, fun hp => ?_⟩
    have := h1.2 hp
    have := h2.2 hp
    omega

/-- The first two writes of a reset release a driven pin; a driven high goes low first (R122). -/
theorem resetStart_trace (s : State) :
    (resetStart s).trace = s.trace ++
      (match s.out .ow with
       | .z => []
       | .low => [.pin s.now .ow .z]
       | .high => [.pin s.now .ow .low, .pin s.now .ow .z]) := by
  simp only [resetStart]
  rw [setDir_trace, setLat_trace]
  cases hd : s.dirOw <;> cases hl : s.latOw <;>
    simp [State.dir, State.lat, State.out, outOf, hd, hl]

/-- The two paths of a reset, on every line (R121 to R125). -/
theorem owReset_paths (s : State) :
    ∃ us t1, (us ++ [t1]).head? = some s.now ∧
      (us ++ [t1]).IsChain (fun a b => a + 1 ≤ b ∧ (s.ie = false → b = a + 1)) ∧
      us.length ≤ 127 ∧
      (((owReset s).pres = .busError ∧ us.length = 127 ∧ (owReset s).now = t1 ∧
        (owReset s).retry = 0#8 ∧ (owReset s).ports = s.ports ∧
        (owReset s).trace = (resetStart s).trace ++
          us.map (fun u => .sample u .ow false true) ++ [.sample t1 .ow false true]) ∨
       ∃ v, (owReset s).pres = (if v then .noDevice else .present) ∧
        (owReset s).retry = BitVec.ofNat 8 (128 - us.length) ∧
        t1 + 960 ≤ (owReset s).now ∧ (s.ie = false → (owReset s).now = t1 + 960) ∧
        (owReset s).ports = s.ports ++ (if s.ie then [.ie t1 false, .ie (t1 + 550) true] else []) ∧
        (owReset s).trace = (resetStart s).trace ++
          us.map (fun u => .sample u .ow false true) ++
          [.sample t1 .ow true true, .pin t1 .ow .low, .pin (t1 + 480) .ow .z,
           .sample (t1 + 550) .ow v true]) := by
  have hs := resetStart_sets s
  obtain ⟨us, t1, h1, h2, h3, h4, h5⟩ := idleCheck_polls 127 (s := resetStart s) hs.1 rfl
  rw [hs.2.2.2.1] at h1
  rw [hs.2.2.1] at h2
  refine ⟨us, t1, h1, h2, h4, ?_⟩
  rcases owReset_cases s with ⟨hc, h⟩ | ⟨hc, h⟩
  · rcases h5 with ⟨a, -⟩ | ⟨-, b, c, d⟩
    · rw [hc] at a
      cases a
    · refine .inl ⟨by rw [h], b, by rw [h]; exact h3, by rw [h]; exact d, ?_, by rw [h]; exact c⟩
      rw [h]
      simp [hs.2.2.2.2.1]
  · rcases h5 with ⟨-, b, c⟩ | ⟨a, -⟩
    · generalize hr : (idleCheck (127 + 1) (resetStart s)).2 = r at *
      have hrd : r.dirOw = false := by rw [← hr]; simp [resetStart]
      have hrie : r.ie = s.ie := by rw [← hr]; simp [resetStart]
      have hrports : r.ports = s.ports := by rw [← hr]; simp [resetStart]
      have hp := resetPulse_sets r
      have hw := wait_now_le Config.tPdh (resetPulse r).2
      have hT : Config.tPdh.toNat = 410 := rfl
      rw [hT] at hw
      subst h3
      refine .inr ⟨(resetPulse r).1, by rw [h], ?_, ?_, ?_, ?_, ?_⟩
      · rw [h]
        simp only [wait_keeps, resetPulse_keeps]
        exact BitVec.eq_of_toNat_eq (by rw [c]; simp; omega)
      · rw [h]
        show r.now + 960 ≤ (wait Config.tPdh (resetPulse r).2).now
        omega
      · intro hie
        rw [h]
        show (wait Config.tPdh (resetPulse r).2).now = r.now + 960
        rw [wait_now_of_ie_false (by rw [hp.2.2.1, hrie, hie])]
        omega
      · rw [h]
        simp only [wait_keeps, resetPulse_ports, hrports, hrie]
      · rw [h]
        simp only [wait_keeps, resetPulse_trace hrd, b]
        simp
    · rw [show (127 + 1 : Nat) = 128 from rfl, hc] at a
      cases a

/-! ### A byte as eight slots -/

/-- The three registers of the loop of `ow_byte`, written. -/
def atByte (x y : Byte) (n : BitVec 4) (s : State) : State :=
  { s with sr := x, rx := y, bitcnt := n }

/-- A slot does not depend on the registers of the byte it belongs to. -/
theorem owBit_atByte (b : Bool) (x y : Byte) (n : BitVec 4) (s : State) :
    owBit b (atByte x y n s) = ((owBit b s).1, atByte x y n (owBit b s).2) :=
  owBit_beside b { sr := fun _ => x, rx := fun _ => y, bitcnt := fun _ => n } s

/-- The state before slot `k` of a byte `d`, but for the registers of the loop. -/
def beforeSlot (d : Byte) (s : State) (k : Nat) : State :=
  (List.range k).foldl (fun u j => (owBit (d.getLsbD j) u).2) s

theorem beforeSlot_succ (d : Byte) (s : State) (k : Nat) :
    beforeSlot d s (k + 1) = (owBit (d.getLsbD k) (beforeSlot d s k)).2 := by
  simp [beforeSlot, List.range_succ]

/-- `ow_byte(d)` is the slots of the bits of `d`, least significant first, bit `k` of `RX` the level
that slot `k` sampled (R131). -/
theorem owByte_slots (d : Byte) (s : State) :
    owByte d s = atByte 0#8 (owByte d s).rx 8#4 (beforeSlot d s 8) ∧
    ∀ k, k < 8 → (owByte d s).rx.getLsbD k = (owBit (d.getLsbD k) (beforeSlot d s k)).1 := by
  let P : Nat → State → Prop := fun n u =>
    n ≤ 8 ∧ u = atByte (d >>> (8 - n)) u.rx (BitVec.ofNat 4 (8 - n)) (beforeSlot d s (8 - n)) ∧
      ∀ k, k < 8 - n → u.rx.getLsbD k = (owBit (d.getLsbD k) (beforeSlot d s k)).1
  have key : P 0 (owByte d s) := by
    refine owBits_induct (P := P) ?_ 8 _ ⟨le_refl _, by simp [atByte, beforeSlot], by simp⟩
    rintro n u ⟨hn, hu, hk⟩
    obtain ⟨m, hm⟩ : ∃ m, 8 - n = m + 1 := ⟨7 - n, by omega⟩
    have hm' : 8 - (n + 1) = m := by omega
    rw [hm'] at hu hk
    have hb : u.sr.getLsbD 0 = d.getLsbD m := by
      rw [hu]
      simp [atByte]
    have hw : owBit (u.sr.getLsbD 0) u =
        ((owBit (d.getLsbD m) (beforeSlot d s m)).1,
         atByte (d >>> m) u.rx (BitVec.ofNat 4 m) (beforeSlot d s (m + 1))) := by
      rw [hb, beforeSlot_succ, ← owBit_atByte, ← hu]
    have ht : owTurn u = atByte (d >>> (m + 1))
        (putBit u.rx m (owBit (d.getLsbD m) (beforeSlot d s m)).1) (BitVec.ofNat 4 (m + 1))
        (beforeSlot d s (m + 1)) := by
      simp only [owTurn, hw]
      have h4 : (BitVec.ofNat 4 m).toNat = m := by simp; omega
      simp only [atByte, h4, BitVec.shiftRight_add, BitVec.ofNat_add]
    refine ⟨by omega, ?_, ?_⟩
    · rw [hm, ht]
      rfl
    · intro k hlt
      rw [hm] at hlt
      rw [ht]
      simp only [atByte]
      rw [putBit_getLsbD _ _ _ _ (by omega)]
      split
      · next h => rw [h]
      · next h => exact hk k (by omega)
  obtain ⟨-, h1, h2⟩ := key
  refine ⟨?_, h2⟩
  rw [show d >>> (8 - 0) = 0#8 from BitVec.eq_of_getLsbD_eq (by intro i hi; simp)] at h1
  exact h1

end Sys2Proof.Machine
end

