-- ==== Sys2Proof/Laws/PerInstr.lean ====
section
/-! SUPPORT. What is said of every command as syntax: the high byte of its word is its opcode, and
the opcode's high nibble its unit (30_encoding.md R80, R82). -/

namespace Sys2Proof.Laws.OpcodeField

/-- The opcode of a command stands in bits 23:16 of its word, its operand below it, and no command
has an opcode of a unit the opcode map does not list. -/
def Statement (i : Instr) : Prop :=
  (encode i).extractLsb' 16 8 = opcodeOf i ∧ (encode i).extractLsb' 0 16 = operandOf i ∧
  (opcodeOf i).toNat < 0x60

theorem of_unit {i : Instr} (o : Byte) (h : opcodeOf i = o) (ho : o.toNat < 0x60) : Statement i :=
  ⟨extract_opcode _ _, extract_operand _ _, h ▸ ho⟩

theorem nop : Statement .nop := of_unit 0x00#8 rfl (by decide)

theorem getReg (r : Reg) : Statement (.getReg r) := of_unit 0x01#8 rfl (by decide)

theorem setIe (b : Bool) : Statement (.setIe b) := of_unit 0x02#8 rfl (by decide)

theorem ldDir (p : Pin) (v : Bool) : Statement (.ldDir p v) := of_unit 0x10#8 rfl (by decide)

theorem ldWrite (p : Pin) (v : Bool) : Statement (.ldWrite p v) := of_unit 0x11#8 rfl (by decide)

theorem ldRead (p : Pin) : Statement (.ldRead p) := of_unit 0x12#8 rfl (by decide)

theorem owReset : Statement .owReset := of_unit 0x20#8 rfl (by decide)

theorem owBit (b : Bool) : Statement (.owBit b) := of_unit 0x21#8 rfl (by decide)

theorem owByte (d : Byte) : Statement (.owByte d) := of_unit 0x22#8 rfl (by decide)

theorem crcClr : Statement .crcClr := of_unit 0x30#8 rfl (by decide)

theorem crcByte (d : Byte) : Statement (.crcByte d) := of_unit 0x31#8 rfl (by decide)

theorem crcChk : Statement .crcChk := of_unit 0x32#8 rfl (by decide)

theorem dsRead : Statement .dsRead := of_unit 0x40#8 rfl (by decide)

theorem dsDecode : Statement .dsDecode := of_unit 0x41#8 rfl (by decide)

theorem spWr (i : BitVec 4) (d : Byte) : Statement (.spWr i d) := of_unit 0x42#8 rfl (by decide)

theorem spRd (i : BitVec 4) : Statement (.spRd i) := of_unit 0x43#8 rfl (by decide)

theorem txInit : Statement .txInit := of_unit 0x50#8 rfl (by decide)

theorem txByte (d : Byte) : Statement (.txByte d) := of_unit 0x51#8 rfl (by decide)

theorem txDec (w : Half) : Statement (.txDec w) := of_unit 0x52#8 rfl (by decide)

end Sys2Proof.Laws.OpcodeField
end

