-- ==== Sys2Proof/Laws/Progress.lean ====
section
/-! SUPPORT. Said once for every operation: time does not run back, the trace and the port record
only grow, what they gain stands in the order of time and tells the pins and `IE`, and it concerns
only the operation's own pins (20_memory.md R60, R64, R68). -/

namespace Sys2Proof.Machine

/-- From `s` to `t` the run goes on, and the trace gains entries on pins in `L` alone. -/
structure Progress (L : Pin → Prop) (s t : State) : Prop where
  later : s.now ≤ t.now
  trace : ∃ es, t.trace = s.trace ++ es ∧ (es.map Event.time).Pairwise (· ≤ ·) ∧
    (∀ e ∈ es, s.now ≤ e.time ∧ e.time ≤ t.now ∧ ∃ p, L p ∧ e.on p = true) ∧
    ∀ p, outAfter p (s.out p) es = t.out p
  ports : ∃ ps, t.ports = s.ports ++ ps ∧ (ps.map PortEvent.time).Pairwise (· ≤ ·) ∧
    (∀ e ∈ ps, s.now ≤ e.time ∧ e.time ≤ t.now ∧ ∃ n v, e = .ie n v) ∧
    ieAfter s.ie ps = t.ie

theorem outAfter_append (p : Pin) (o : Out) (xs ys : List Event) :
    outAfter p o (xs ++ ys) = outAfter p (outAfter p o xs) ys := by
  induction xs generalizing o with
  | nil => rfl
  | cons x xs ih => cases x <;> simp [outAfter, ih]

theorem ieAfter_append (v : Bool) (xs ys : List PortEvent) :
    ieAfter v (xs ++ ys) = ieAfter (ieAfter v xs) ys := by
  induction xs generalizing v with
  | nil => rfl
  | cons x xs ih => cases x <;> simp [ieAfter, ih]

/-- Two stretches of ordered instants, the second after the first, are one. -/
theorem ordered_append {xs ys : List Nat} {m : Nat} (hx : xs.Pairwise (· ≤ ·))
    (hy : ys.Pairwise (· ≤ ·)) (h1 : ∀ x ∈ xs, x ≤ m) (h2 : ∀ y ∈ ys, m ≤ y) :
    (xs ++ ys).Pairwise (· ≤ ·) :=
  List.pairwise_append.mpr ⟨hx, hy, fun x hx y hy => le_trans (h1 x hx) (h2 y hy)⟩

namespace Progress

variable {L : Pin → Prop} {s t u : State}

/-- What touches neither time nor the records nor what they tell. -/
theorem quiet (hn : t.now = s.now) (ht : t.trace = s.trace) (hp : t.ports = s.ports)
    (hi : t.ie = s.ie) (ho : ∀ p, t.out p = s.out p) : Progress L s t where
  later := hn ▸ le_refl _
  trace := ⟨[], by simp [ht], by simp, by simp, fun p => (ho p).symm⟩
  ports := ⟨[], by simp [hp], by simp, by simp, hi.symm⟩

theorem refl (s : State) : Progress L s s := quiet rfl rfl rfl rfl (fun _ => rfl)

theorem trans (h : Progress L s t) (k : Progress L t u) : Progress L s u where
  later := h.later.trans k.later
  trace := by
    obtain ⟨xs, h1, h2, h3, h4⟩ := h.trace
    obtain ⟨ys, k1, k2, k3, k4⟩ := k.trace
    refine ⟨xs ++ ys, by rw [k1, h1, List.append_assoc], ?_, ?_, ?_⟩
    · rw [List.map_append]
      exact ordered_append h2 k2 (m := t.now)
        (fun x hx => by
          obtain ⟨e, he, rfl⟩ := List.mem_map.mp hx
          exact (h3 e he).2.1)
        (fun y hy => by
          obtain ⟨e, he, rfl⟩ := List.mem_map.mp hy
          exact (k3 e he).1)
    · intro e he
      rcases List.mem_append.mp he with he | he
      · exact ⟨(h3 e he).1, (h3 e he).2.1.trans k.later, (h3 e he).2.2⟩
      · exact ⟨h.later.trans (k3 e he).1, (k3 e he).2⟩
    · intro p
      rw [outAfter_append, h4, k4]
  ports := by
    obtain ⟨xs, h1, h2, h3, h4⟩ := h.ports
    obtain ⟨ys, k1, k2, k3, k4⟩ := k.ports
    refine ⟨xs ++ ys, by rw [k1, h1, List.append_assoc], ?_, ?_, ?_⟩
    · rw [List.map_append]
      exact ordered_append h2 k2 (m := t.now)
        (fun x hx => by
          obtain ⟨e, he, rfl⟩ := List.mem_map.mp hx
          exact (h3 e he).2.1)
        (fun y hy => by
          obtain ⟨e, he, rfl⟩ := List.mem_map.mp hy
          exact (k3 e he).1)
    · intro e he
      rcases List.mem_append.mp he with he | he
      · exact ⟨(h3 e he).1, (h3 e he).2.1.trans k.later, (h3 e he).2.2⟩
      · exact ⟨h.later.trans (k3 e he).1, (k3 e he).2⟩
    · rw [ieAfter_append, h4, k4]

/-- A larger set of pins. -/
theorem mono {M : Pin → Prop} (h : Progress L s t) (hLM : ∀ p, L p → M p) : Progress M s t where
  later := h.later
  trace := by
    obtain ⟨es, h1, h2, h3, h4⟩ := h.trace
    exact ⟨es, h1, h2, fun e he =>
      ⟨(h3 e he).1, (h3 e he).2.1, (h3 e he).2.2.imp fun p hp => ⟨hLM p hp.1, hp.2⟩⟩, h4⟩
  ports := h.ports

end Progress

/-! ### The shared operations -/

theorem recordPin_progress {L : Pin → Prop} {p : Pin} (hL : L p) (s u : State)
    (hn : u.now = s.now) (ht : u.trace = s.trace) (hp : u.ports = s.ports) (hi : u.ie = s.ie)
    (ho : ∀ q, q ≠ p → u.out q = s.out q) : Progress L s (recordPin p (s.out p) u) := by
  by_cases h : u.out p = s.out p
  · rw [recordPin, if_pos h]
    exact Progress.quiet hn ht hp hi fun q => by
      by_cases hq : q = p
      · rw [hq, h]
      · exact ho q hq
  · rw [recordPin, if_neg h]
    refine ⟨hn ▸ le_refl _, ⟨[.pin u.now p (u.out p)], by rw [ht], by simp, ?_, ?_⟩,
      ⟨[], by simp [hp], by simp, by simp, hi.symm⟩⟩
    · intro e he
      rw [List.mem_singleton] at he
      subst he
      exact ⟨by simp [Event.time, hn], le_refl _, p, hL, by simp [Event.on]⟩
    · intro q
      by_cases hq : q = p
      · subst hq
        simp [outAfter]
        cases q <;> rfl
      · have : ¬ p = q := fun h => hq h.symm
        simp only [outAfter, this, if_false]
        rw [← ho q hq]
        cases q <;> rfl

theorem setDir_progress {L : Pin → Prop} {p : Pin} (hL : L p) (v : Bool) (s : State) :
    Progress L s (setDir p v s) := by
  cases p
  · exact recordPin_progress hL s { s with dirOw := v } rfl rfl rfl rfl
      (fun q hq => by cases q <;> first | exact absurd rfl hq | rfl)
  · exact recordPin_progress hL s { s with dirTx := v } rfl rfl rfl rfl
      (fun q hq => by cases q <;> first | exact absurd rfl hq | rfl)

theorem setLat_progress {L : Pin → Prop} {p : Pin} (hL : L p) (v : Bool) (s : State) :
    Progress L s (setLat p v s) := by
  cases p
  · exact recordPin_progress hL s { s with latOw := v } rfl rfl rfl rfl
      (fun q hq => by cases q <;> first | exact absurd rfl hq | rfl)
  · exact recordPin_progress hL s { s with latTx := v } rfl rfl rfl rfl
      (fun q hq => by cases q <;> first | exact absurd rfl hq | rfl)

theorem out_of_pins {s t : State} (h1 : t.dirOw = s.dirOw) (h2 : t.latOw = s.latOw)
    (h3 : t.dirTx = s.dirTx) (h4 : t.latTx = s.latTx) (p : Pin) : t.out p = s.out p := by
  cases p <;> simp only [State.out, State.dir, State.lat, h1, h2, h3, h4]

theorem sample_progress {L : Pin → Prop} {p : Pin} (hL : L p) (s : State) :
    Progress L s (sample p s).2 := by
  refine ⟨by simp, ⟨[.sample s.now p (sample p s).1 (!s.dir p)], sample_trace p s, by simp, ?_, ?_⟩,
    ⟨[], by simp, by simp, by simp, by simp [ieAfter]⟩⟩
  · intro e he
    rw [List.mem_singleton] at he
    subst he
    exact ⟨le_refl _, by simp [Event.time], p, hL, by simp [Event.on]⟩
  · intro q
    simp only [outAfter]
    exact (out_of_pins (by simp) (by simp) (by simp) (by simp) q).symm

theorem wait_progress {L : Pin → Prop} (d : BitVec 20) (s : State) : Progress L s (wait d s) where
  later := le_trans (Nat.le_add_right _ _) (wait_now_le d s)
  trace := ⟨[], by simp, by simp, by simp, fun p =>
    (out_of_pins (by simp) (by simp) (by simp) (by simp) p).symm⟩
  ports := ⟨[], by simp, by simp, by simp, by simp [ieAfter]⟩

theorem waitNi_progress {L : Pin → Prop} (d : BitVec 20) (s : State) :
    Progress L s (waitNi d s) where
  later := by simp
  trace := ⟨[], by simp, by simp, by simp, fun p =>
    (out_of_pins (by simp) (by simp) (by simp) (by simp) p).symm⟩
  ports := ⟨[], by simp, by simp, by simp, by simp [ieAfter]⟩

theorem writeIe_progress {L : Pin → Prop} (v : Bool) (s : State) : Progress L s (writeIe v s) where
  later := by simp
  trace := ⟨[], by simp, by simp, by simp, fun p =>
    (out_of_pins (by simp) (by simp) (by simp) (by simp) p).symm⟩
  ports := by
    refine ⟨if s.ie = v then [] else [.ie s.now v], writeIe_ports v s, ?_, ?_, ?_⟩
    · split <;> simp
    · intro e he
      split at he
      · cases he
      · rw [List.mem_singleton] at he
        subst he
        exact ⟨le_refl _, by simp [PortEvent.time], _, _, rfl⟩
    · split
      · next h => simp [ieAfter, h]
      · simp [ieAfter]

theorem critEnter_progress {L : Pin → Prop} (s : State) : Progress L s (critEnter s) :=
  Progress.trans (t := { s with iesave := s.ie })
    (Progress.quiet rfl rfl rfl rfl (fun p => by cases p <;> rfl)) (writeIe_progress _ _)

theorem critExit_progress {L : Pin → Prop} (s : State) : Progress L s (critExit s) :=
  writeIe_progress _ _

theorem respond_progress {L : Pin → Prop} (v : Half) (s : State) : Progress L s (respond v s) :=
  Progress.quiet rfl rfl rfl rfl (fun p => by cases p <;> rfl)

theorem malformed_progress {L : Pin → Prop} (s : State) : Progress L s (malformed s) :=
  Progress.quiet rfl rfl rfl rfl (fun p => by cases p <;> rfl)

/-! ### The 1-Wire procedures -/

/-- The pins of the 1-Wire commands. -/
def OnOw (p : Pin) : Prop := p = .ow

/-- The pins of the serial commands. -/
def OnTx (p : Pin) : Prop := p = .tx

theorem onOw : OnOw .ow := rfl

theorem onTx : OnTx .tx := rfl

theorem idleCheck_progress (n : Nat) (s : State) : Progress OnOw s (idleCheck n s).2 := by
  induction n generalizing s with
  | zero => exact Progress.refl s
  | succ n ih =>
    have h1 := sample_progress onOw s
    have h2 : Progress OnOw s { (sample .ow s).2 with retry := (sample .ow s).2.retry - 1#8 } :=
      h1.trans (Progress.quiet rfl rfl rfl rfl (fun p => by cases p <;> rfl))
    simp only [idleCheck]
    split
    · exact h1
    · split
      · exact h2
      · exact (h2.trans (wait_progress _ _)).trans (ih _)

theorem resetPulse_progress (s : State) : Progress OnOw s (resetPulse s).2 :=
  ((((((critEnter_progress s).trans (setLat_progress onOw _ _)).trans
    (setDir_progress onOw _ _)).trans (waitNi_progress _ _)).trans
    (setDir_progress onOw _ _)).trans (waitNi_progress _ _)).trans
    ((sample_progress onOw _).trans (critExit_progress _))

theorem owReset_progress (s : State) : Progress OnOw s (owReset s) := by
  have h1 : Progress OnOw s
      { setDir .ow false (setLat .ow false s) with retry := BitVec.ofNat 8 Config.nPoll } :=
    ((setLat_progress onOw _ _).trans (setDir_progress onOw _ _)).trans
      (Progress.quiet rfl rfl rfl rfl (fun p => by cases p <;> rfl))
  have h2 := h1.trans (idleCheck_progress Config.nPoll _)
  have q : ∀ (c : Presence) (u : State), Progress OnOw u { u with pres := c } := fun c u =>
    Progress.quiet rfl rfl rfl rfl (fun p => by cases p <;> rfl)
  simp only [owReset]
  split
  · exact ((h2.trans (resetPulse_progress _)).trans (wait_progress _ _)).trans (q _ _)
  · exact h2.trans (q _ _)

theorem slotOpen_progress (b : Bool) (s : State) : Progress OnOw s (slotOpen b s) := by
  have h1 : Progress OnOw s (setDir .ow true (setLat .ow false (critEnter s))) :=
    ((critEnter_progress s).trans (setLat_progress onOw _ _)).trans (setDir_progress onOw _ _)
  cases b
  · exact h1.trans (waitNi_progress _ _)
  · exact ((h1.trans (waitNi_progress _ _)).trans (setDir_progress onOw _ _)).trans
      (waitNi_progress _ _)

theorem owBit_progress (b : Bool) (s : State) : Progress OnOw s (owBit b s).2 :=
  ((((slotOpen_progress b s).trans (sample_progress onOw _)).trans
    (waitNi_progress _ _)).trans (setDir_progress onOw _ _)).trans
    ((critExit_progress _).trans (wait_progress _ _))

theorem owBits_progress (n : Nat) (s : State) : Progress OnOw s (owBits n s) := by
  induction n generalizing s with
  | zero => exact Progress.refl s
  | succ n ih =>
    have q : ∀ (x y : Byte) (z : BitVec 4) (u : State),
        Progress OnOw u { u with rx := x, sr := y, bitcnt := z } := fun x y z u =>
      Progress.quiet rfl rfl rfl rfl (fun p => by cases p <;> rfl)
    simp only [owBits]
    exact ((owBit_progress _ s).trans (q _ _ _ _)).trans (ih _)

theorem owByte_progress (d : Byte) (s : State) : Progress OnOw s (owByte d s) :=
  Progress.trans (t := { s with sr := d, rx := 0#8, bitcnt := 0#4 })
    (Progress.quiet rfl rfl rfl rfl (fun p => by cases p <;> rfl)) (owBits_progress 8 _)

/-! ### The temperature read -/

theorem crcCheck_progress {L : Pin → Prop} (s : State) : Progress L s (crcCheck s) :=
  Progress.quiet (by simp) (by simp) (by simp) (by simp)
    (out_of_pins (by simp) (by simp) (by simp) (by simp))

theorem readScratchByte_progress (s : State) : Progress OnOw s (readScratchByte s) :=
  (owByte_progress 0xFF#8 s).trans
    (Progress.quiet rfl rfl rfl rfl (fun p => by cases p <;> rfl))

theorem decodeRaw_progress {L : Pin → Prop} (s : State) : Progress L s (decodeRaw s) :=
  Progress.quiet rfl rfl rfl rfl (fun p => by cases p <;> rfl)

theorem dsStep_progress (s : State) : Progress OnOw s (dsStep s).after := by
  have q : ∀ (n : BitVec 4) (u : State), Progress OnOw u { u with seq := n } := fun n u =>
    Progress.quiet rfl rfl rfl rfl (fun p => by cases p <;> rfl)
  have qb : ∀ (n : BitVec 4) (u : State), Progress OnOw u { u with bytecnt := n } := fun n u =>
    Progress.quiet rfl rfl rfl rfl (fun p => by cases p <;> rfl)
  simp only [dsStep, gotoStep]
  split
  · split
    · exact (owReset_progress s).trans (q _ _)
    · exact owReset_progress s
  · exact (owByte_progress _ s).trans (q _ _)
  · exact (owByte_progress _ s).trans (q _ _)
  · exact (wait_progress _ s).trans (q _ _)
  · split
    · exact owReset_progress s
    · exact (owReset_progress s).trans (q _ _)
  · exact (owByte_progress _ s).trans (q _ _)
  · exact ((owByte_progress _ s).trans (qb 0#4 _)).trans (q 8#4 { owByte Config.cmdReadSp s with
      bytecnt := 0#4 })
  · exact (readScratchByte_progress s).trans (q _ _)
  · exact (owReset_progress s).trans (q _ _)
  · split
    · exact (crcCheck_progress s).trans (q _ _)
    · exact crcCheck_progress s
  · exact decodeRaw_progress s
  · exact Progress.refl s

theorem dsRun_progress (n : Nat) (s : State) : Progress OnOw s (dsRun n s).1 := by
  induction n generalizing s with
  | zero => exact Progress.refl s
  | succ n ih =>
    have h := dsStep_progress s
    simp only [dsRun]
    split
    · next r hr =>
      rw [hr] at h
      exact h.trans (ih r)
    · next r t hr =>
      rw [hr] at h
      exact h

theorem dsRead_progress (s : State) : Progress OnOw s (dsRead s) := by
  have q : ∀ (n : BitVec 4) (u : State), Progress OnOw u { u with seq := n } := fun n u =>
    Progress.quiet rfl rfl rfl rfl (fun p => by cases p <;> rfl)
  exact (((q 1#4 s).trans (dsRun_progress dsSteps _)).trans (q 0#4 _)).trans (respond_progress _ _)

/-! ### The serial procedures -/

theorem txInit_progress (s : State) : Progress OnTx s (txInit s) := by
  unfold txInit
  split
  · exact Progress.refl s
  · exact ((setLat_progress onTx _ _).trans (setDir_progress onTx _ _)).trans
      (Progress.quiet rfl rfl rfl rfl (fun p => by cases p <;> rfl))

theorem txSlot_progress (v : Bool) (s : State) : Progress OnTx s (txSlot v s) :=
  (setLat_progress onTx _ _).trans (waitNi_progress _ _)

theorem txBits_progress (n : Nat) (s : State) : Progress OnTx s (txBits n s) := by
  induction n generalizing s with
  | zero => exact Progress.refl s
  | succ n ih =>
    have q : ∀ (x : Byte) (z : BitVec 4) (u : State),
        Progress OnTx u { u with sr := x, bitcnt := z } := fun x z u =>
      Progress.quiet rfl rfl rfl rfl (fun p => by cases p <;> rfl)
    simp only [txBits]
    exact ((txSlot_progress _ s).trans (q _ _ _)).trans (ih _)

theorem txByte_progress (d : Byte) (s : State) : Progress OnTx s (txByte d s) := by
  have q : ∀ (x : Byte) (u : State), Progress OnTx u { u with sr := x } := fun x u =>
    Progress.quiet rfl rfl rfl rfl (fun p => by cases p <;> rfl)
  have qb : ∀ (z : BitVec 4) (u : State), Progress OnTx u { u with bitcnt := z } := fun z u =>
    Progress.quiet rfl rfl rfl rfl (fun p => by cases p <;> rfl)
  simp only [txByte]
  exact (((((((txInit_progress s).trans (critEnter_progress _)).trans (q _ _)).trans
    (txSlot_progress _ _)).trans (qb _ _)).trans (txBits_progress _ _)).trans
    (txSlot_progress _ _)).trans ((critExit_progress _).trans (wait_progress _ _))

theorem sendDec_progress (n : Nat) (s : State) : Progress OnTx s (sendDec n s) := by
  induction n generalizing s with
  | zero => exact Progress.refl s
  | succ n ih =>
    have q : ∀ (z : BitVec 4) (u : State), Progress OnTx u { u with decptr := z } := fun z u =>
      Progress.quiet rfl rfl rfl rfl (fun p => by cases p <;> rfl)
    simp only [sendDec]
    split
    · exact ((txByte_progress _ s).trans (q _ _)).trans (ih _)
    · exact Progress.refl s

theorem fillDec_progress {L : Pin → Prop} (w : Half) (s : State) : Progress L s (fillDec w s) :=
  Progress.quiet (by simp) (by simp) (by simp) (by simp)
    (out_of_pins (by simp) (by simp) (by simp) (by simp))

/-! ### Every command -/

/-- The pins a command may move or sample. -/
def pinsOf : Instr → Pin → Prop
  | .nop => fun _ => False
  | .getReg _ => fun _ => False
  | .setIe _ => fun _ => False
  | .ldDir p _ => fun q => q = p
  | .ldWrite p _ => fun q => q = p
  | .ldRead p => fun q => q = p
  | .owReset => OnOw
  | .owBit _ => OnOw
  | .owByte _ => OnOw
  | .crcClr => fun _ => False
  | .crcByte _ => fun _ => False
  | .crcChk => fun _ => False
  | .dsRead => OnOw
  | .dsDecode => fun _ => False
  | .spWr _ _ => fun _ => False
  | .spRd _ => fun _ => False
  | .txInit => OnTx
  | .txByte _ => OnTx
  | .txDec _ => OnTx

theorem execState_progress (i : Instr) (s : State) : Progress (pinsOf i) s (execState i s) := by
  have r : ∀ {L : Pin → Prop} {u : State} (v : Half), Progress L s u →
      Progress L s (respond v u) := fun v h => h.trans (respond_progress v _)
  cases i with
  | nop => exact respond_progress _ s
  | getReg _ => exact respond_progress _ s
  | setIe b => exact r _ (writeIe_progress b s)
  | ldDir p v => exact r _ (setDir_progress (L := fun q => q = p) rfl v s)
  | ldWrite p v => exact r _ (setLat_progress (L := fun q => q = p) rfl v s)
  | ldRead p => exact r _ (sample_progress (L := fun q => q = p) rfl s)
  | owReset => exact r _ (owReset_progress s)
  | owBit b => exact r _ (owBit_progress b s)
  | owByte d => exact r _ (owByte_progress d s)
  | crcClr => exact r _ (Progress.quiet rfl rfl rfl rfl (fun p => by cases p <;> rfl))
  | crcByte d => exact r _ (Progress.quiet rfl rfl rfl rfl (fun p => by cases p <;> rfl))
  | crcChk => exact r _ (crcCheck_progress s)
  | dsRead => exact dsRead_progress s
  | dsDecode => exact r _ (decodeRaw_progress s)
  | spWr k d =>
    simp only [execState]
    split
    · exact r _ (Progress.quiet rfl rfl rfl rfl (fun p => by cases p <;> rfl))
    · exact malformed_progress s
  | spRd k =>
    simp only [execState]
    split
    · exact respond_progress _ s
    · exact malformed_progress s
  | txInit => exact r _ (txInit_progress s)
  | txByte d => exact r _ (txByte_progress d s)
  | txDec w => exact r _ ((fillDec_progress w s).trans (sendDec_progress _ _))

/-- Every command that ends goes on with the run, on its own pins. -/
theorem exec_progress {i : Instr} {s t : State} (h : exec i s = .next t) :
    Progress (pinsOf i) s t := by
  rw [exec_next h]
  exact execState_progress i s

end Sys2Proof.Machine
end

