-- ==== Sys2Proof/Laws/SerialDec.lean ====
section
/-! SUPPORT. The decimal helper: `DECBUF` filled from its end backward, and sent from `DECPTR` on
(44_serial.md R177, R178). -/

namespace Sys2Proof.Machine

/-! ### The fill -/

/-- `DECBUF` ends in `text`, `DECPTR` points at its first byte, and the bytes before it are those of
`m`. -/
structure Filled (m : Memory) (text : List Byte) (s : State) : Prop where
  fits : text.length ≤ 9
  decptr : s.decptr.toNat = 9 - text.length
  reads : ∀ k, k < text.length → readByte s.decbuf (9 - text.length + k) = text[k]?
  rest : ∀ a, a < 9 - text.length → readByte s.decbuf a = readByte m a

theorem filled_start (s : State) :
    Filled s.decbuf [] { s with decptr := BitVec.ofNat 4 Config.decbufSize } where
  fits := by simp
  decptr := rfl
  reads := by simp
  rest := by simp

theorem filled_push {m : Memory} {text : List Byte} {s : State} (h : Filled m text s)
    (hl : text.length < 9) (c : Byte) : Filled m (c :: text) (pushDec c s) := by
  have hp : (s.decptr - 1#4).toNat = 9 - (text.length + 1) := by
    have h1 : (s.decptr - 1#4).toNat = s.decptr.toNat - 1 := by
      rw [BitVec.toNat_sub_of_le]
      · rfl
      · show (1#4).toNat ≤ s.decptr.toNat
        rw [h.decptr]
        show 1 ≤ _
        omega
    rw [h1, h.decptr]
    omega
  have hb : (pushDec c s).decbuf = writeByte s.decbuf (9 - (text.length + 1)) c := by
    simp only [pushDec, hp]
  refine ⟨by simp; omega, hp, ?_, ?_⟩
  · intro k hk
    simp only [List.length_cons] at hk ⊢
    rw [hb, readByte_writeByte]
    cases k with
    | zero => simp
    | succ k =>
      rw [if_neg (by omega), List.getElem?_cons_succ, ← h.reads k (by omega)]
      congr 1
      omega
  · intro a ha
    simp only [List.length_cons] at ha
    rw [hb, readByte_writeByte_other _ _ (by omega)]
    exact h.rest a (by omega)

/-- The digits of `m` as bytes, most significant first. -/
def digitBytes (m : Nat) : List Byte :=
  (Nat.digits 10 m).reverse.map (fun k => BitVec.ofNat 8 (0x30 + k))

theorem digitBytes_length {n m : Nat} (h : m < 10 ^ n) : (digitBytes m).length ≤ n := by
  simp only [digitBytes, List.length_map, List.length_reverse]
  exact (Nat.digits_length_le_iff (by norm_num) m).mpr h

theorem filled_digits (n : Nat) {k : Nat} {m : Memory} {text : List Byte} {s : State}
    (h : Filled m text s) (hk : k < 10 ^ n) (hl : text.length + n ≤ 9) :
    Filled m (digitBytes k ++ text) (pushDigits n k s) := by
  induction n generalizing k text s with
  | zero =>
    obtain rfl : k = 0 := by omega
    simpa [digitBytes, pushDigits] using h
  | succ n ih =>
    unfold pushDigits
    split
    · next hz => subst hz; simpa [digitBytes] using h
    · next hz =>
      have := ih (filled_push h (by omega) (BitVec.ofNat 8 (0x30 + k % 10))) (k := k / 10)
        (by rw [pow_succ] at hk; omega) (by simp; omega)
      have hd : digitBytes k = digitBytes (k / 10) ++ [BitVec.ofNat 8 (0x30 + k % 10)] := by
        rw [digitBytes, Nat.digits_def' (by norm_num) (by omega)]
        simp [digitBytes]
      rw [hd, List.append_assoc]
      exact this

theorem magnitude_eq (w : Half) : magnitude w = w.toInt.natAbs := by
  have := w.isLt
  simp only [magnitude, BitVec.msb_eq_decide, BitVec.toInt_eq_toNat_cond]
  split <;> split <;> simp_all <;> omega

theorem magnitude_lt (w : Half) : magnitude w < 10 ^ 5 := by
  have := w.isLt
  unfold magnitude
  split <;> omega

theorem msb_iff (w : Half) : w.msb = true ↔ w.toInt < 0 := by
  rw [BitVec.msb_eq_toInt]
  simp

/-- The fill leaves the text of R177, at the end of `DECBUF`. -/
theorem fillDec_filled (w : Half) (s : State) :
    Filled s.decbuf (decimalText s.params.decCrlf w) (fillDec w s) ∧
    1 ≤ (decimalText s.params.decCrlf w).length ∧
    (decimalText s.params.decCrlf w).length ≤ 8 := by
  have h0 := filled_start s
  obtain ⟨tail, s2, hs2, h2, ht, hlen⟩ : ∃ tail s2,
      s2 = (if s.params.decCrlf then
        pushDec 0x0D#8 (pushDec 0x0A#8 { s with decptr := BitVec.ofNat 4 Config.decbufSize })
        else { s with decptr := BitVec.ofNat 4 Config.decbufSize }) ∧
      Filled s.decbuf tail s2 ∧ tail = (if s.params.decCrlf then [0x0D#8, 0x0A#8] else []) ∧
      tail.length ≤ 2 := by
    cases hc : s.params.decCrlf
    · exact ⟨_, _, rfl, h0, rfl, by simp⟩
    · exact ⟨_, _, rfl, filled_push (filled_push h0 (by simp) 0x0A#8) (by simp) 0x0D#8, rfl,
        by simp⟩
  have hf : fillDec w s =
      if w = 0#16 then pushDec 0x30#8 s2
      else if w.msb then pushDec 0x2D#8 (pushDigits 5 (magnitude w) s2)
        else pushDigits 5 (magnitude w) s2 := by
    rw [hs2]
    rfl
  have htext : decimalText s.params.decCrlf w =
      (if w.msb then [0x2D#8] else []) ++
        ((if w = 0#16 then [0x30#8] else digitBytes (magnitude w)) ++ tail) := by
    simp only [decimalText, digitBytes, ← msb_iff, ht, magnitude_eq, List.append_assoc]
  by_cases hw : w = 0#16
  · subst hw
    have hm : (0#16 : Half).msb = false := by decide
    rw [hf, htext]
    simp only [hm, if_true, Bool.false_eq_true, if_false, List.nil_append, List.singleton_append]
    exact ⟨filled_push h2 (by omega) _, by simp, by simp; omega⟩
  · have hd := filled_digits 5 h2 (magnitude_lt w) (by omega)
    have hdl := digitBytes_length (magnitude_lt w)
    have hpos : 1 ≤ (digitBytes (magnitude w)).length := by
      rw [magnitude_eq]
      have : w.toInt.natAbs ≠ 0 := by
        intro h
        apply hw
        apply BitVec.eq_of_toInt_eq
        simp
        omega
      simp only [digitBytes, List.length_map, List.length_reverse]
      rw [Nat.digits_def' (by norm_num) (by omega)]
      simp
    rw [hf, htext, if_neg hw, if_neg hw]
    have hl : (digitBytes (magnitude w) ++ tail).length ≤ 7 := by
      rw [List.length_append]
      omega
    cases hm : w.msb
    · simp only [Bool.false_eq_true, if_false, List.nil_append]
      refine ⟨hd, ?_, by omega⟩
      rw [List.length_append]
      omega
    · simp only [if_true, List.singleton_append]
      exact ⟨filled_push hd (by omega) _, by simp, by simp only [List.length_cons]; omega⟩

/-! ### The send loop -/

/-- `s` with the decimal helper's own registers set. -/
def atDec (p : BitVec 4) (m : Memory) (s : State) : State := { s with decptr := p, decbuf := m }

theorem atDec_atDec (p q : BitVec 4) (m n : Memory) (s : State) :
    atDec p m (atDec q n s) = atDec p m s := rfl

theorem atDec_decbuf (p : BitVec 4) (m : Memory) (s : State) : (atDec p m s).decbuf = m := rfl

/-- A frame does not depend on the decimal helper's registers. -/
theorem txByte_atDec (c : Byte) (p : BitVec 4) (m : Memory) (s : State) :
    txByte c (atDec p m s) = atDec p m (txByte c s) := by
  have h : ∀ u, atDec p m u =
      beside (Beside.bytes { decptr := fun _ => p, decbuf := fun _ => m }) u := fun _ => rfl
  rw [h, h, txByte_beside]

theorem txBytes_atDec (text : List Byte) (p : BitVec 4) (m : Memory) (s : State) :
    text.foldl (fun u c => txByte c u) (atDec p m s) =
      atDec p m (text.foldl (fun u c => txByte c u) s) := by
  induction text generalizing s with
  | nil => rfl
  | cons c text ih => rw [List.foldl_cons, txByte_atDec, ih, List.foldl_cons]

/-- One turn of the send loop (R178). -/
theorem sendDec_succ (n : Nat) (s : State) :
    sendDec (n + 1) s =
      if s.decptr.toNat < Config.decbufSize then
        sendDec n (atDec (s.decptr + 1#4) s.decbuf (txByte (byteAt s.decbuf s.decptr.toNat) s))
      else s := by
  have hk : ∀ u : State, ({ u with decptr := u.decptr + 1#4 } : State) =
      atDec (u.decptr + 1#4) u.decbuf u := fun _ => rfl
  simp only [sendDec]
  rw [hk, (by simp : (txByte (byteAt s.decbuf s.decptr.toNat) s).decptr = s.decptr),
    (by simp : (txByte (byteAt s.decbuf s.decptr.toNat) s).decbuf = s.decbuf)]

/-- The send loop sends what `DECBUF` holds from `DECPTR` on, in order (R178). -/
theorem sendDec_sends {text : List Byte} {m : Memory} {s : State} (h : Filled m text s) :
    sendDec text.length s =
      atDec 9#4 s.decbuf (text.foldl (fun u c => txByte c u) s) := by
  have key : ∀ (text : List Byte) (s : State), text.length ≤ 9 →
      s.decptr.toNat = 9 - text.length →
      (∀ k, k < text.length → readByte s.decbuf (9 - text.length + k) = text[k]?) →
      sendDec text.length s = atDec 9#4 s.decbuf (text.foldl (fun u c => txByte c u) s) := by
    intro text
    induction text with
    | nil =>
      intro s _ hp _
      have : s.decptr = 9#4 := BitVec.eq_of_toNat_eq hp
      show s = atDec 9#4 s.decbuf s
      rw [← this]
      rfl
    | cons c text ih =>
      intro s hl hp hr
      simp only [List.length_cons] at hl hp hr
      have h0 := hr 0 (by omega)
      rw [Nat.add_zero, List.getElem?_cons_zero, ← hp] at h0
      have hlt : s.decptr.toNat < Config.decbufSize := by
        rw [hp]
        show _ < 9
        omega
      have hn : (s.decptr + 1#4).toNat = 9 - text.length := by
        rw [BitVec.toNat_add, hp]
        show (9 - (text.length + 1) + 1) % 16 = _
        omega
      rw [List.length_cons, sendDec_succ, if_pos hlt, byteAt_of_read h0,
        ih (atDec (s.decptr + 1#4) s.decbuf (txByte c s)) (by omega) hn ?_, txBytes_atDec,
        List.foldl_cons, atDec_atDec, atDec_decbuf]
      · intro k hk
        have := hr (k + 1) (by omega)
        rw [List.getElem?_cons_succ] at this
        rw [← this]
        rw [atDec_decbuf]
        congr 1
        omega
  exact key text s h.fits h.decptr h.reads

/-- What a text of at least one byte leaves. -/
theorem txBytes_sets (text : List Byte) (s : State) (h : text ≠ []) :
    (text.foldl (fun u c => txByte c u) s).latTx = true ∧
    (text.foldl (fun u c => txByte c u) s).serInit = true ∧
    (text.foldl (fun u c => txByte c u) s).ie = s.ie ∧
    (text.foldl (fun u c => txByte c u) s).dly = 0#20 ∧
    s.now + text.length * 1040 ≤ (text.foldl (fun u c => txByte c u) s).now ∧
    (s.ie = false → (text.foldl (fun u c => txByte c u) s).now = s.now + text.length * 1040) := by
  induction text generalizing s with
  | nil => exact absurd rfl h
  | cons c text ih =>
    have hle := txByte_now_le c s
    have heq : s.ie = false → (txByte c s).now = s.now + 1040 := fun h => txByte_now h c
    rw [List.foldl_cons]
    by_cases ht : text = []
    · subst ht
      refine ⟨by simp, by simp, by simp, by simp, ?_, fun hi => ?_⟩
      · simpa using hle
      · simpa using heq hi
    · obtain ⟨h1, h2, h3, h4, h5, h6⟩ := ih (txByte c s) ht
      refine ⟨h1, h2, by rw [h3]; simp, h4, ?_, fun hi => ?_⟩
      · simp only [List.length_cons]
        omega
      · rw [h6 (by simp [hi]), heq hi]
        simp only [List.length_cons]
        omega

/-- `TX_DEC` is its text sent byte by byte, with `DECBUF` filled and `DECPTR` at its end. -/
theorem txDec_sends (w : Half) (s : State) :
    decCount (fillDec w s) = (decimalText s.params.decCrlf w).length ∧
    sendDec (decCount (fillDec w s)) (fillDec w s) =
      atDec 9#4 (fillDec w s).decbuf
        ((decimalText s.params.decCrlf w).foldl (fun u c => txByte c u) s) := by
  obtain ⟨hf, h1, h8⟩ := fillDec_filled w s
  have hc : decCount (fillDec w s) = (decimalText s.params.decCrlf w).length := by
    unfold decCount
    rw [hf.decptr]
    show 9 - _ = _
    omega
  refine ⟨hc, ?_⟩
  rw [hc, sendDec_sends hf]
  have hs : fillDec w s = atDec (fillDec w s).decptr (fillDec w s).decbuf s := by
    have k := fillDec_keeps w s
    generalize fillDec w s = u at k
    cases u
    simp only at k
    simp only [atDec, k]
  rw [hs, txBytes_atDec, atDec_atDec, atDec_decbuf]

end Sys2Proof.Machine
end

