-- ==== Sys2Proof/Tests/Slice0.lean ====
section
/-! SUPPORT. Tests: the well-formedness checks refuse ill-formed terms, the encodings of spec/ decode
to the commands they stand for, one step per command against 95_test_vectors.md, and a witness for
the hypotheses of every statement that has some. -/

open Sys2Proof Sys2Proof.Machine

namespace Sys2Proof.Tests

-- One at a time: each kernel evaluation waits for the file before it, and a waiting one holds a thread.
set_option Elab.async false

/-! ### Well-formedness (20_memory.md R51) -/

theorem test_wf_refuses_index_9_written : Instr.wf (.spWr 9#4 0x00#8) = false := by decide +kernel

theorem test_wf_refuses_index_15_read : Instr.wf (.spRd 15#4) = false := by decide +kernel

theorem test_wf_admits_index_8 :
    Instr.wf (.spWr 8#4 0xFF#8) = true ∧ Instr.wf (.spRd 8#4) = true := by decide +kernel

/-! ### Decoding: words written out from the bit patterns of 30_encoding.md R81, R82 -/

-- opc in the high eight bits, then the sixteen bits of imm; fields of 95 section 2.7.
theorem test_decode_nop : decode 0b000000000000000000000000#24 = .ok .nop := by decide +kernel

theorem test_decode_get_reg :
    decode 0b000000010000000000000100#24 = .ok (.getReg .raw) ∧
    decode 0b000000010000000000000111#24 = .ok (.getReg .seq) := by decide +kernel

theorem test_decode_set_ie : decode 0b000000100000000000000001#24 = .ok (.setIe true) := by decide +kernel

theorem test_decode_ld_dir :
    decode 0b000100000000000100000001#24 = .ok (.ldDir .tx true) := by decide +kernel

theorem test_decode_ld_write :
    decode 0b000100010000000000000000#24 = .ok (.ldWrite .ow false) := by decide +kernel

theorem test_decode_ld_read : decode 0b000100100000000100000000#24 = .ok (.ldRead .tx) := by decide +kernel

theorem test_decode_ow_reset : decode 0b001000000000000000000000#24 = .ok .owReset := by decide +kernel

theorem test_decode_ow_bit : decode 0b001000010000000000000001#24 = .ok (.owBit true) := by decide +kernel

theorem test_decode_ow_byte :
    decode 0b001000100000000010111110#24 = .ok (.owByte 0xBE#8) := by decide +kernel

theorem test_decode_crc_clr : decode 0b001100000000000000000000#24 = .ok .crcClr := by decide +kernel

theorem test_decode_crc_byte :
    decode 0b001100010000000001111111#24 = .ok (.crcByte 0x7F#8) := by decide +kernel

theorem test_decode_crc_chk : decode 0b001100100000000000000000#24 = .ok .crcChk := by decide +kernel

theorem test_decode_ds_read : decode 0b010000000000000000000000#24 = .ok .dsRead := by decide +kernel

theorem test_decode_ds_decode : decode 0b010000010000000000000000#24 = .ok .dsDecode := by decide +kernel

theorem test_decode_sp_wr :
    decode 0b010000100000001101000110#24 = .ok (.spWr 3#4 0x46#8) := by decide +kernel

theorem test_decode_sp_rd : decode 0b010000110000100000000000#24 = .ok (.spRd 8#4) := by decide +kernel

theorem test_decode_tx_init : decode 0b010100000000000000000000#24 = .ok .txInit := by decide +kernel

theorem test_decode_tx_byte :
    decode 0b010100010000000001000001#24 = .ok (.txByte 0x41#8) := by decide +kernel

theorem test_decode_tx_dec :
    decode 0b010100101111111011101111#24 = .ok (.txDec 0xFEEF#16) := by decide +kernel

-- The malformed words of 95 section 2.6.
theorem test_decode_reserved_bits :
    [0x000001#24, 0x010008#24, 0x020002#24, 0x100002#24, 0x100200#24, 0x120001#24, 0x200001#24,
      0x210002#24, 0x220100#24, 0x300001#24, 0x310100#24, 0x320001#24, 0x400001#24, 0x410001#24,
      0x421000#24, 0x430801#24, 0x500001#24, 0x510100#24].all
      (fun w => decode w = .malformed .reservedBits) = true := by decide +kernel

theorem test_decode_reserved_opcodes :
    [0x030000#24, 0x130000#24, 0x230000#24, 0x330000#24, 0x440000#24, 0x530000#24, 0x600000#24,
      0xFFFFFF#24].all (fun w => decode w = .malformed .reservedOpcode) = true := by decide +kernel

theorem test_decode_index_range :
    decode 0x420900#24 = .malformed .indexRange ∧ decode 0x430900#24 = .malformed .indexRange ∧
    decode 0x430F00#24 = .malformed .indexRange := by decide +kernel

-- Word layout of the host's table form: the 24 bits as they stand (R80).
theorem test_table_word : decodeTableWord 24 0x52FEEF = some (.txDec 0xFEEF#16) ∧
    decodeTableWord 24 0x600000 = none := by decide +kernel

/-! ### One step each, against 95_test_vectors.md -/

/-- Whether a command ends in a state that `p` holds of. -/
def ends (o : Host.Outcome State Fault Refusal) (p : State → Bool) : Bool :=
  match o with
  | .next t => p t
  | .fault _ => false
  | .refused _ => false

/-- Whether a command stops with the fault `r`. -/
def faults (o : Host.Outcome State Fault Refusal) (r : Fault) : Bool :=
  match o with
  | .next _ => false
  | .fault q => decide (q = r)
  | .refused _ => false

/-- The block after reset, on a line with the answers `e`. -/
def on (e : Env) : State := { State.reset with env := e }

/-- Answers in order, then a line that nothing pulls low. -/
def script (vs : List Bool) : Env := vs.foldr .answer (.level true)

/-- The block after reset, the bytes `bs` in `SP` from index 0 on. -/
def holding (bs : List Byte) : State :=
  { State.reset with sp := bs.zipIdx.map fun c => (c.2, c.1) }

/-- The scratchpad example of 93_implementation_defined.md G5. -/
def sample : List Byte :=
  [0x50#8, 0x05#8, 0x4B#8, 0x46#8, 0x7F#8, 0xFF#8, 0x0C#8, 0x10#8]

-- 2.6: NOP and GET_REG 0.
theorem test_nop : ends (exec .nop { State.reset with res := 7#16 }) (fun t => t.res = 0#16) := by
  decide +kernel

theorem test_get_reg_status :
    ends (exec (.getReg .status)
      { State.reset with ie := true, serInit := true, dirTx := true, latTx := true })
      (fun t => t.res = 0x0303#16) := by decide +kernel

theorem test_get_reg_pres :
    ends (exec (.getReg .pres) { State.reset with pres := .busError }) (fun t => t.res = 2#16) := by
  decide +kernel

-- 2.6: SET_IE answers the old value.
theorem test_set_ie :
    ends (exec (.setIe false) { State.reset with ie := true })
      (fun t => t.res = 1#16 ∧ t.ie = false) := by decide +kernel

-- 2.1: LD_DIR OW, 1 at 10, and again (no change).
theorem test_ld_dir :
    ends (exec (.ldDir .ow true) { State.reset with now := 10 })
      (fun t => t.trace = [.pin 10 .ow .low]) ∧
    ends (exec (.ldDir .ow true) { State.reset with dirOw := true }) (fun t => t.trace = []) := by
  decide +kernel

-- 2.1: LD_WRITE TX, 1 on an input; LD_WRITE TX, 0 on an output at 80.
theorem test_ld_write :
    ends (exec (.ldWrite .tx true) State.reset) (fun t => t.trace = [] ∧ t.latTx = true) ∧
    ends (exec (.ldWrite .tx false) { State.reset with dirTx := true, latTx := true, now := 80 })
      (fun t => t.trace = [.pin 80 .tx .low]) := by decide +kernel

-- 2.1: LD_READ OW undriven under ENV_NONE and ENV_STUCK.
theorem test_ld_read_undriven :
    ends (exec (.ldRead .ow) (on (.level true)))
      (fun t => t.res = 1#16 ∧ t.trace = [.sample 0 .ow true true]) ∧
    ends (exec (.ldRead .ow) (on (.level false))) (fun t => t.res = 0#16) := by decide +kernel

-- 2.1: LD_READ OW driven low; R73: driven high on a line held low.
theorem test_ld_read_driven :
    ends (exec (.ldRead .ow) { on (.level true) with dirOw := true }) (fun t => t.res = 0#16) ∧
    faults (exec (.ldRead .ow) { on (.level false) with dirOw := true, latOw := true })
      .contention := by decide +kernel

-- 2.2: reset, device present.
theorem test_ow_reset_present :
    ends (exec .owReset (on (script [true, false])))
      (fun t => t.res = 1#16 ∧ t.now = 960 ∧ t.retry = 128#8 ∧
        t.trace = [.sample 0 .ow true true, .pin 0 .ow .low, .pin 480 .ow .z,
          .sample 550 .ow false true]) := by decide +kernel

-- 2.2: reset, 127 lows then a high; the last case that still pulses.
theorem test_ow_reset_late :
    ends (exec .owReset (on (lowsThen 127 (.level true))))
      (fun t => t.res = 0#16 ∧ t.now = 1087 ∧ t.retry = 1#8) := by decide +kernel

-- 2.2: OW_BIT 0 and OW_BIT 1 under ENV_NONE.
theorem test_ow_bit_0 :
    ends (exec (.owBit false) (on (.level true)))
      (fun t => t.res = 0#16 ∧ t.now = 60 ∧
        t.trace = [.pin 0 .ow .low, .sample 15 .ow false false, .pin 60 .ow .z]) := by
  decide +kernel

theorem test_ow_bit_1 :
    ends (exec (.owBit true) (on (.level true)))
      (fun t => t.res = 1#16 ∧ t.now = 60 ∧
        t.trace = [.pin 0 .ow .low, .pin 2 .ow .z, .sample 15 .ow true true]) := by
  decide +kernel

-- 2.2: OW_BYTE 0xFF with the bits of 0x50 answered, least significant first.
theorem test_ow_byte_reads :
    ends (exec (.owByte 0xFF#8) (on (script [false, false, false, false, true, false, true, false])))
      (fun t => t.res = 0x0050#16 ∧ t.now = 480 ∧ t.sr = 0#8 ∧ t.bitcnt = 8#4) := by
  decide +kernel

-- 2.2: OW_BYTE 0xA5 with IE = 1 and the jitters (0, 5, 0, 0, 100, 0, 0, 0).
theorem test_ow_byte_jitter :
    ends (exec (.owByte 0xA5#8)
      { on (.level true) with ie := true, jitters := [0, 5, 0, 0, 100, 0, 0, 0] })
      (fun t => t.res = 0x00A5#16 ∧ t.now = 585 ∧ t.ie = true) := by decide +kernel

-- 2.3: CRC_CLR.
theorem test_crc_clr :
    ends (exec .crcClr { State.reset with crc := 0xDB#8 })
      (fun t => t.crc = 0#8 ∧ t.res = 0#16) := by decide +kernel

-- 2.3: CRC_BYTE 0x50 from 0, and 0x05 after it.
theorem test_crc_byte :
    ends (exec (.crcByte 0x50#8) State.reset) (fun t => t.res = 0x00DB#16) ∧
    ends (exec (.crcByte 0x05#8) { State.reset with crc := 0xDB#8 })
      (fun t => t.crc = 0x48#8) := by decide +kernel

-- 2.3: CRC_CHK on the example, and with SP[8] = 0x1D.
theorem test_crc_chk :
    ends (exec .crcChk (holding (sample ++ [0x1C#8])))
      (fun t => t.res = 1#16 ∧ t.crc = 0x1C#8 ∧ t.bytecnt = 8#4) ∧
    ends (exec .crcChk (holding (sample ++ [0x1D#8])))
      (fun t => t.res = 0#16 ∧ t.crc = 0x1C#8 ∧ t.crcok = false) := by decide +kernel

-- R42: byte 8 unwritten.
theorem test_crc_chk_unwritten :
    faults (exec .crcChk (holding sample)) (.unwrittenByte 8) := by decide +kernel

-- 2.4, first row: a whole read.
theorem test_ds_read :
    ends (exec .dsRead (on (deviceAnswers (sample ++ [0x1C#8]) (.level true))))
      (fun t => t.res = 0x0055#16 ∧ t.now = 759120 ∧ t.raw = 0x0550#16 ∧ t.crc = 0x1C#8 ∧
        t.trace.length = 324) := by decide +kernel

-- 2.4: stuck at entry.
theorem test_ds_read_stuck :
    ends (exec .dsRead (on (.level false)))
      (fun t => t.res = 0xFEEF#16 ∧ t.now = 127 ∧ t.pres = .busError ∧ t.sp = []) := by
  decide +kernel

-- 2.4: 0x0191 gives 26, and 25 with the bias 8; 0x7FFF shows the exact sum.
theorem test_ds_decode :
    ends (exec .dsDecode (holding [0x91#8, 0x01#8]))
      (fun t => t.res = 0x001A#16 ∧ t.raw = 0x0191#16) ∧
    ends (exec .dsDecode
      { holding [0x91#8, 0x01#8] with params := { Params.default with roundBias := 8 } })
      (fun t => t.res = 0x0019#16) := by decide +kernel

theorem test_ds_decode_edges :
    ends (exec .dsDecode (holding [0xFF#8, 0x7F#8])) (fun t => t.res = 0x0800#16) ∧
    ends (exec .dsDecode (holding [0xF1#8, 0xFF#8])) (fun t => t.res = 0#16) := by decide +kernel

-- 2.4: SP_WR 8, 0x1C; index 9 writes nothing.
theorem test_sp_wr :
    ends (exec (.spWr 8#4 0x1C#8) State.reset)
      (fun t => t.res = 0#16 ∧ readByte t.sp 8 = some 0x1C#8) ∧
    ends (exec (.spWr 9#4 0x00#8) State.reset)
      (fun t => t.res = 0xFFFF#16 ∧ t.err = true ∧ t.sp = []) := by decide +kernel

-- 2.4: SP_RD zero-extends; nothing written is a fault (R42).
theorem test_sp_rd :
    ends (exec (.spRd 5#4) (holding (sample ++ [0x1C#8]))) (fun t => t.res = 0x00FF#16) ∧
    faults (exec (.spRd 3#4) State.reset) (.unwrittenByte 3) := by decide +kernel

-- 2.5: TX_INIT from reset, and a second time.
theorem test_tx_init :
    ends (exec .txInit { State.reset with now := 3 })
      (fun t => t.trace = [.pin 3 .tx .high] ∧ t.serInit = true) ∧
    ends (exec .txInit { State.reset with serInit := true }) (fun t => t.trace = []) := by decide +kernel

-- 2.5: the events of 0x41; first use without TX_INIT.
theorem test_tx_byte :
    ends (exec (.txByte 0x41#8) State.reset)
      (fun t => t.now = 1040 ∧ t.trace =
        [.pin 0 .tx .high, .pin 0 .tx .low, .pin 104 .tx .high, .pin 208 .tx .low,
         .pin 728 .tx .high, .pin 832 .tx .low, .pin 936 .tx .high]) := by decide +kernel

-- 2.5: TX_DEC -32768, the longest text.
theorem test_tx_dec :
    ends (exec (.txDec 0x8000#16) State.reset)
      (fun t => t.res = 8#16 ∧ t.now = 8320 ∧ readByte t.decbuf 1 = some 0x2D#8 ∧
        readByte t.decbuf 6 = some 0x38#8 ∧ t.decptr = 9#4) := by decide +kernel

-- 2.5: TX_DEC 85 without CR LF.
theorem test_tx_dec_plain :
    ends (exec (.txDec 85#16)
      { State.reset with params := { Params.default with decCrlf := false } })
      (fun t => t.res = 2#16 ∧ readByte t.decbuf 7 = some 0x38#8 ∧
        readByte t.decbuf 8 = some 0x35#8) := by decide +kernel

-- R97, 2.5: the texts of the table.
theorem test_decimal_text :
    decimalText true 0#16 = [0x30#8, 0x0D#8, 0x0A#8] ∧
    decimalText true 0xFEEF#16 = [0x2D#8, 0x32#8, 0x37#8, 0x33#8, 0x0D#8, 0x0A#8] := by
  have h : (0xFEEF#16 : Half).toInt = -273 := by decide +kernel
  have hz : (0xFEEF#16 : Half) ≠ 0#16 := by decide +kernel
  constructor <;> norm_num [decimalText, h, hz]

/-! ### The step -/

-- R21: accepted at 5, answered at 965; the ports show it.
theorem test_step_command :
    ends (step { on (.level true) with offers := [{ instant := 5, word := 0x200000#24 }] })
      (fun t => t.busy = false ∧ t.offers = [] ∧ t.opc = 0x20#8 ∧
        t.ports = [.busy 5 true, .busy 965 false, .rsp 965 0#16]) := by decide +kernel

-- 2.6: a reserved opcode.
theorem test_step_malformed :
    ends (step (State.reset.withFetchWord 24 0x030000)) (fun t => t.err = true ∧ t.res = 0xFFFF#16) := by
  decide +kernel

-- R231: a reset 100 us into the low pulse releases the pin there.
theorem test_step_reset_inside :
    ends (step { on (.level true) with
      offers := [{ instant := 0, word := 0x200000#24 }], resets := [100] })
      (fun t => t.now = 100 ∧ t.dirOw = false ∧
        t.ports = [.busy 0 true, .busy 100 false] ∧
        t.trace = [.sample 0 .ow true true, .pin 0 .ow .low, .pin 100 .ow .z]) := by decide +kernel

/-! ### Witnesses: states and operands that meet the hypotheses of the statements -/

theorem witness_DecodeOfEncodeIsTheCommand :
    Instr.wf (.spWr 8#4 0xFF#8) = true ∧ Instr.wf (.txDec 0x8000#16) = true := by decide +kernel

theorem witness_DecodedWordIsItsEncoding : decode 0x42081C#24 = .ok (.spWr 8#4 0x1C#8) := by decide +kernel

/-- A block offered `w` at 5, reset at the instants `us`. -/
def offered (w : Word) (us : List Nat) : State :=
  { on (.level true) with offers := [{ instant := 5, word := w }], resets := us }

theorem witness_StepRunsTheDecodedCommand :
    ((offered 0x430300#24 []).offers = [{ instant := 5, word := 0x430300#24 }] ∧
      (offered 0x430300#24 []).resets = [] ∧ decode 0x430300#24 = .ok (.spRd 3#4)) ∧
    (offered 0x430300#24 []).busy = false ∧
    ({ offered 0x430300#24 [] with busy := true } : State).busy = true ∧
    (offered 0x430300#24 []).resets.head? = none ∧
    faults (exec (.spRd 3#4)
      (accept { instant := 5, word := 0x430300#24 } [] (offered 0x430300#24 [])))
      (.unwrittenByte 3) := by decide +kernel

-- R21: a reset asked for at the very end of the operation, and just before it.
theorem witness_StepRunsTheDecodedCommand_reset :
    (∀ u ∈ (offered 0x200000#24 [965]).resets.head?, max (offered 0x200000#24 [965]).now 5 < u) ∧
    ends (exec .owReset
      (accept { instant := 5, word := 0x200000#24 } [] (offered 0x200000#24 [965])))
      (fun t => t.now = 965) ∧
    ends (step (offered 0x200000#24 [965])) (fun t => t.resets = [965] ∧ t.pres = .noDevice ∧
      t.ports = [.busy 5 true, .busy 965 false, .rsp 965 0#16]) ∧
    ends (step (offered 0x200000#24 [964])) (fun t => t.resets = [] ∧ t.retry = 0#8 ∧
      t.ports = [.busy 5 true, .busy 964 false]) := by decide +kernel

theorem witness_MalformedCommandSetsErrAndNothingElse :
    (offered 0x420900#24 []).resets = [] ∧ (offered 0x420900#24 []).busy = false ∧
    (offered 0x420900#24 []).offers = [{ instant := 5, word := 0x420900#24 }] := by decide +kernel

theorem witness_IsMalformed :
    IsMalformed 0x420900#24 ∧ IsMalformed 0x010008#24 ∧ IsMalformed 0xFFFFFF#24 ∧
    ¬ IsMalformed 0x42081C#24 ∧ ¬ IsMalformed 0x52FFFF#24 := by
  simp [IsMalformed, reservedMask]

theorem witness_IdleBlockStaysAsItIs :
    State.reset.offers = [] ∧ State.reset.resets = [] := by decide +kernel

theorem witness_ResetGivesEveryRegisterItsValue :
    (offered 0x000000#24 [5]).resets = [5] ∧
    (∀ o ∈ (offered 0x000000#24 [5]).offers.head?, 5 ≤ max (offered 0x000000#24 [5]).now o.instant) ∧
    ({ State.reset with resets := [0] } : State).offers.head? = none := by decide +kernel

theorem witness_ResetInsideAnOperationAbandonsIt :
    (offered 0x200000#24 [6]).resets = [6] ∧ (offered 0x200000#24 [6]).busy = false ∧
    decode 0x200000#24 = .ok .owReset ∧
    max (offered 0x200000#24 [6]).now 5 < 6 ∧
    ends (exec .owReset (accept { instant := 5, word := 0x200000#24 } [] (offered 0x200000#24 [6])))
      (fun t => 6 < t.now) := by decide +kernel

theorem witness_LdReadAnswersTheLevel :
    ((on (.level true)).dir .ow = false ∧ (on (.level true)).env = .level true) ∧
    ((on (script [false])).dir .ow = false ∧ (on (script [false])).env = .answer false (.level true)) ∧
    State.reset.dir .tx = false ∧
    (({ State.reset with dirTx := true } : State).dir .tx = true ∧
      ({ State.reset with dirTx := true } : State).lat .tx = false) ∧
    contended .tx { State.reset with dirTx := true, latTx := true } = false ∧
    contended .ow { on (.level true) with dirOw := true, latOw := true } = false := by decide +kernel

theorem witness_DrivenHighReadsHighUnlessContended :
    (({ State.reset with dirTx := true, latTx := true } : State).dirTx = true ∧
      ({ State.reset with dirTx := true, latTx := true } : State).latTx = true) ∧
    peerPullsLow { on (.level true) with dirOw := true, latOw := true } = false ∧
    peerPullsLow { on (.level false) with dirOw := true, latOw := true } = true := by decide +kernel

theorem witness_OwResetFollowsTheAnswers :
    (on (lowsThen 127 (.answer true (.answer false .free)))).env =
      lowsThen 127 (.answer true (.answer false .free)) ∧
    (on (lowsThen 128 .free)).env = lowsThen 128 .free ∧
    (on (.level true)).env = .level true ∧ (on (.level false)).env = .level false :=
  ⟨rfl, rfl, rfl, rfl⟩

theorem witness_OwBitRunsOneSlot :
    (on (.level false)).env = .level false ∧
    (on (script [true])).env = .answer true (.level true) ∧ State.reset.ie = false := by decide +kernel

theorem witness_OwByteAnswersWrittenAndSampledBits :
    (on (slotAnswers 0xA5#8 0x3C#8 .free)).env = slotAnswers 0xA5#8 0x3C#8 .free := rfl

theorem witness_ByteLoopsBackOnAFreeLine :
    (on (.level true)).env = .level true ∧ (on (.level false)).env = .level false := by decide +kernel

theorem holds_example : Holds (holding (sample ++ [0x1C#8])).sp (sample ++ [0x1C#8]) := by
  unfold Holds
  decide +kernel

theorem witness_CrcChkComparesWithTheNinthByte :
    sample.length = 8 ∧ Holds (holding (sample ++ [0x1C#8])).sp (sample ++ [0x1C#8]) :=
  ⟨rfl, holds_example⟩

theorem witness_CrcChkComparesWithTheNinthByte_unwritten :
    readByte (holding sample).sp 8 = none := by decide +kernel

theorem witness_SingleBitErrorFailsTheCheck :
    crcOf sample = 0x1C#8 ∧
    Holds (holding (sample.modify 7 (fun b => b ^^^ (1#8 <<< 7)) ++ [0x1C#8])).sp
      (sample.modify 7 (fun b => b ^^^ (1#8 <<< 7)) ++ [0x1C#8]) ∧
    (0x1D#8 : Byte) ≠ crcOf sample ∧
    Holds (holding (sample ++ [0x1D#8])).sp (sample ++ [0x1D#8]) := by
  unfold Holds
  decide +kernel

theorem witness_UnwrittenByteStopsItsReader :
    readByte State.reset.sp (8#4).toNat = none ∧ readByte (holding sample).sp 8 = none ∧
    readByte (holding [0x50#8]).sp 1 = none := by decide +kernel

theorem witness_DsDecodeRoundsTheRawCode :
    readByte (holding [0x91#8, 0x01#8]).sp 0 = some 0x91#8 ∧
    readByte (holding [0x91#8, 0x01#8]).sp 1 = some 0x01#8 ∧
    (holding [0x91#8, 0x01#8]).params.roundBias = 15 := by decide +kernel

theorem witness_SentinelCollisionRange :
    readByte (holding [0xE1#8, 0xEE#8]).sp 0 = some 0xE1#8 ∧
    readByte (holding [0xE1#8, 0xEE#8]).sp 1 = some 0xEE#8 ∧
    (0xEE#8 ++ 0xE1#8 : Half).toInt = -4383 ∧
    ends (exec .dsDecode (holding [0xE1#8, 0xEE#8])) (fun t => t.res = 0xFEEF#16) ∧
    ends (exec .dsDecode (holding [0xE0#8, 0xEE#8])) (fun t => t.res = 0xFEEE#16) := by
  decide +kernel

theorem witness_SpWrStoresOneByte : (8#4).toNat ≤ 8 ∧ 8 < (9#4).toNat := by decide +kernel

theorem witness_SpRdLoadsOneByte :
    (8#4).toNat ≤ 8 ∧ 8 < (9#4).toNat ∧
    readByte (holding (sample ++ [0x1C#8])).sp (8#4).toNat = some 0x1C#8 ∧
    readByte (holding sample).sp (8#4).toNat = none := by decide +kernel

theorem witness_DsReadAbortsAtTheFirstReset :
    ends (exec .owReset (on (.level true))) (fun r => r.pres ≠ .present) ∧
    ends (exec .owReset (on (.level false))) (fun r => r.pres ≠ .present) := by decide +kernel

theorem witness_DsReadReadsTheDevice :
    sample.length = 8 ∧
    (on (deviceAnswers (sample ++ [0x1C#8]) .free)).env = deviceAnswers (sample ++ [0x1C#8]) .free ∧
    crcOf sample = 0x1C#8 ∧ crcOf sample ≠ 0x1D#8 ∧ State.reset.ie = false :=
  ⟨rfl, rfl, by decide +kernel, by decide +kernel, rfl⟩

/-- A line on which a device answers one reset and the bytes of steps 2 and 3, then `e`. -/
def converted (e : Env) (abort : Bool) : State :=
  { on (presenceAnswers (slotAnswers 0xCC#8 0xFF#8 (slotAnswers 0x44#8 0xFF#8 e))) with
    params := { Params.default with rst2Abort := abort } }

theorem witness_DsReadRunsTheStepTable :
    (owReset (on (.level true))).pres ≠ .present ∧
    (owReset (converted (.level false) true)).pres = .present ∧
    (converted (.level false) true).params.rst2Abort = true ∧
    (owReset (wait 750000#20 (owByte 0x44#8 (owByte 0xCC#8
      (owReset (converted (.level false) true)))))).pres ≠ .present ∧
    (converted (.level false) false).params.rst2Abort = false := by decide +kernel

-- 70 R245: the check passes on a line held low, and fails on one that nothing pulls low.
theorem witness_DsReadRunsTheStepTable_check :
    ends (exec .dsRead (converted (.level false) false)) (fun t => t.crcok = true) ∧
    ends (exec .dsRead (converted (.level true) false)) (fun t => t.crcok = false) := by
  decide +kernel

theorem witness_SecondResetEndsTheReadOnlyIfAsked_absent :
    (converted (.answer true (.answer true (slotAnswers 0xCC#8 0xFF#8 (slotAnswers 0xBE#8 0xFF#8
      (readAnswers (sample ++ [0x1C#8]) (presenceAnswers .free)))))) false).params.rst2Abort = false ∧
    sample.length = 8 ∧ crcOf sample = 0x1C#8 ∧ crcOf sample ≠ 0x1D#8 ∧
    sample[0]? = some 0x50#8 ∧ sample[1]? = some 0x05#8 ∧
    (converted (.answer true (.answer true .free)) true).params.rst2Abort = true := by decide +kernel

theorem witness_SecondResetEndsTheReadOnlyIfAsked :
    (on (presenceAnswers (slotAnswers 0xCC#8 0xFF#8 (slotAnswers 0x44#8 0xFF#8
      (.level false))))).params.rst2Abort = false ∧
    ({ Params.default with rst2Abort := true } : Params).rst2Abort = true := by decide +kernel

theorem witness_TxInitSetsTheLineOnce :
    State.reset.serInit = false ∧ ({ State.reset with serInit := true } : State).serInit = true := by
  decide +kernel

theorem witness_TxByteWaveformIsTheFrame :
    (State.reset.serInit = true → State.reset.dirTx = true) ∧
    (({ State.reset with serInit := true, dirTx := true } : State).serInit = true →
      ({ State.reset with serInit := true, dirTx := true } : State).dirTx = true) := by decide +kernel

theorem witness_ReleasedTransmitterIsSilent :
    ({ State.reset with serInit := true } : State).serInit = true ∧
    ({ State.reset with serInit := true } : State).dirTx = false := by decide +kernel

-- The statements over every command whose hypothesis is that a command ends: one of each kind.
theorem witness_exec_ends :
    ends (exec .nop State.reset) (fun _ => true) ∧
    ends (exec (.spWr 9#4 0#8) { State.reset with err := true, serInit := true }) (fun t => t.err) ∧
    ends (exec (.owBit true) (on (.level true))) (fun t => t.dirOw = false) ∧
    ends (exec .txInit State.reset) (fun t => t.env = State.reset.env) := by decide +kernel

/-- A block that drives `OW` low with interrupts on. -/
def driving : State :=
  { State.reset with
    dirOw := true
    ie := true
    now := 9
    trace := [.pin 4 .ow .low]
    ports := [.ie 2 true] }

theorem witness_EveryStepKeepsTheInvariant : Inv driving ∧ step driving = .next driving := by
  refine ⟨⟨rfl, rfl, rfl, rfl, rfl, ⟨?_, ?_⟩, ⟨?_, ?_⟩, ?_, rfl⟩, rfl⟩
  · simp [driving]
  · simp [driving, Event.time]
  · simp [driving]
  · simp [driving, PortEvent.time]
  · intro p
    cases p <;> rfl

theorem witness_GetRegAnswersTheNumberedRegister : Inv driving :=
  witness_EveryStepKeepsTheInvariant.1

end Sys2Proof.Tests
end

section
/-! SUPPORT. What one step of the machine can do, said once: the plan it follows, the command it runs,
how an operation ends (10_state.md R21, 70_reset_and_hazards.md R230, R231). -/

namespace Sys2Proof.Machine

/-! ### The plan -/

/-- With nothing asked for, the block is idle. -/
theorem plan_of_nothing {s : State} (ho : s.offers = []) (hr : s.resets = []) :
    plan s = .idle := by
  simp [plan, planReset, ho, hr]

/-- A busy block accepts nothing; with no reset asked for it stays as it is. -/
theorem plan_of_busy {s : State} (hb : s.busy = true) (hr : s.resets = []) : plan s = .idle := by
  cases ho : s.offers <;> simp [plan, planReset, ho, hb, hr]

/-- An idle block accepts an offer that no reset precedes. -/
theorem plan_of_offer {s : State} {o : Offer} {rest : List Offer} (ho : s.offers = o :: rest)
    (hb : s.busy = false) (hr : ∀ u ∈ s.resets.head?, acceptInstant o s < u) :
    plan s = .command o rest := by
  cases h : s.resets with
  | nil => simp [plan, ho, hb, h]
  | cons u us =>
    have hu : ¬ u ≤ acceptInstant o s := Nat.not_le.mpr (hr u (by simp [h]))
    simp [plan, ho, hb, h, hu]

/-- The block plans no command that a reset precedes. -/
theorem plan_command {s : State} {o : Offer} {rest : List Offer} (h : plan s = .command o rest) :
    ∀ u ∈ s.resets.head?, acceptInstant o s < u := by
  have hp : planReset s ≠ .command o rest := by
    unfold planReset
    split <;> simp
  unfold plan at h
  split at h
  · exact absurd h hp
  · split at h
    · exact absurd h hp
    · split at h
      · next hr => simp [hr]
      · next u us hr =>
        split at h
        · cases h
        · next hu =>
          cases h
          simpa [hr] using hu

/-! ### The operation and its end -/

/-- The latched word runs a command, or has the effect of a malformed one. -/
theorem runLatched_next {s t : State} (h : runLatched s = .next t) :
    (∃ i, exec i s = .next t) ∨ t = malformed s := by
  unfold runLatched at h
  split at h
  · next i _ => exact .inl ⟨i, h⟩
  · exact .inr (Host.Outcome.next.inj h).symm

/-- An accepted word runs the command it decodes to. -/
theorem runLatched_accept {o : Offer} {i : Instr} (hd : decode o.word = .ok i)
    (rest : List Offer) (s : State) :
    runLatched (accept o rest s) = exec i (accept o rest s) := by
  have h : decodeFields (accept o rest s).opc (accept o rest s).arg = .ok i := hd
  rw [runLatched, h]

/-- An operation that ends no later than the next reset completes (R21; log entry 12). -/
theorem settle_of_in_time (s : State) {t : State} (h : ∀ u ∈ t.resets.head?, t.now ≤ u) :
    settle s t = complete t := by
  unfold settle
  split
  · rfl
  · next u rest hr => rw [if_neg (Nat.not_lt.mpr (h u (by simp [hr])))]

/-- An operation ends with its response, or is lost to a reset inside it (R21, R231). -/
theorem settle_cases (s t : State) :
    settle s t = complete t ∨
    ∃ u rest, t.resets = u :: rest ∧ u < t.now ∧
      settle s t = resetNow { cutAt u s t with resets := rest } := by
  unfold settle
  split
  · exact .inl rfl
  · next u rest hr =>
    split
    · next hu => exact .inr ⟨u, rest, hr, hu, rfl⟩
    · exact .inl rfl

/-! ### The step -/

theorem step_of_idle {s : State} (h : plan s = .idle) : step s = .next s := by
  rw [step, h]

/-- A step that accepts a word runs its operation and ends as that ends. -/
theorem step_command_next {s t : State} {o : Offer} {rest : List Offer}
    (h : plan s = .command o rest) (ht : runLatched (accept o rest s) = .next t) :
    step s = .next (settle (accept o rest s) t) := by
  simp only [step, h, ht]

/-- A stop of the operation is the step's. -/
theorem step_command_fault {s : State} {r : Fault} {o : Offer} {rest : List Offer}
    (h : plan s = .command o rest) (hr : runLatched (accept o rest s) = .fault r) :
    step s = .fault r := by
  simp only [step, h, hr]

theorem step_command_refused {s : State} {r : Refusal} {o : Offer} {rest : List Offer}
    (h : plan s = .command o rest) (hr : runLatched (accept o rest s) = .refused r) :
    step s = .refused r := by
  simp only [step, h, hr]

/-- What a step that answers a next state did: nothing, a reset, or an accepted word's operation. -/
theorem step_next {s t : State} (h : step s = .next t) :
    t = s ∨ (∃ u rest, t = idleReset u rest s) ∨
    ∃ o rest r, plan s = .command o rest ∧ runLatched (accept o rest s) = .next r ∧
      t = settle (accept o rest s) r := by
  cases hp : plan s with
  | idle =>
    rw [step_of_idle hp] at h
    exact .inl (Host.Outcome.next.inj h).symm
  | reset u rest =>
    rw [step, hp] at h
    exact .inr (.inl ⟨u, rest, (Host.Outcome.next.inj h).symm⟩)
  | command o rest =>
    cases hr : runLatched (accept o rest s) with
    | next r =>
      rw [step_command_next hp hr] at h
      exact .inr (.inr ⟨o, rest, r, rfl, hr, (Host.Outcome.next.inj h).symm⟩)
    | fault r => exact nomatch (step_command_fault hp hr).symm.trans h
    | refused r => exact nomatch (step_command_refused hp hr).symm.trans h

/-! ### The statements about single steps -/

/-- Settles O7. -/
theorem idleBlockStaysAsItIs : Obligations.IdleBlockStaysAsItIs := by
  intro s ho hr
  exact step_of_idle (plan_of_nothing ho hr)

/-- Settles O5: the state at acceptance is `accept`'s, the step is its operation settled, and an
operation that ends in time completes. -/
theorem stepRunsTheDecodedCommand : Obligations.StepRunsTheDecodedCommand := by
  intro s o rest i ho hd a
  refine ⟨fun hb hr => step_of_idle (plan_of_busy hb hr), fun hb hr => ?_⟩
  have hplan : plan s = .command o rest := plan_of_offer ho hb hr
  have hrun : runLatched (accept o rest s) = exec i a := runLatched_accept hd rest s
  refine ⟨fun t ht hu => ?_, fun r hf => step_command_fault hplan (hrun.trans hf),
    fun r hf => step_command_refused hplan (hrun.trans hf)⟩
  obtain ⟨-, -, -, -, hresets, -⟩ := exec_keeps ht
  have hkept : t.resets = s.resets := hresets
  refine ⟨hkept, (step_command_next hplan (hrun.trans ht)).trans (congrArg _ ?_)⟩
  exact settle_of_in_time _ (hkept ▸ hu)

end Sys2Proof.Machine
end

section
/-! SUPPORT. The flags under every command: the bits of `STATUS` (10_state.md R35), the sticky flags
(R30, R31), and who releases `OW` (R24). -/

namespace Sys2Proof.Machine

/-- The two bits of the code of a Presence Result tell two of its three values (R28). -/
@[simp] theorem presCode_bits (c : Presence) :
    (presCode c)[0] = decide (c = .present) ∧ (presCode c)[1] = decide (c = .busError) := by
  cases c <;> decide

/-- `STATUS` has no bit above its ten flags (R35). -/
theorem status_high (s : State) {k : Nat} (hk : 10 ≤ k) : (status s).getLsbD k = false := by
  simp only [status, BitVec.getLsbD_append]
  repeat rw [if_neg (by omega)]
  exact BitVec.getLsbD_zero

/-- Settles O12: the ten bits by the widths of the concatenation that `status` is. -/
theorem statusWordShowsTheFlags : Obligations.StatusWordShowsTheFlags := by
  intro s
  refine ⟨respond (status s) s, rfl, ?_⟩
  rw [respond_res]
  refine ⟨?_, ?_, ?_, ?_, ?_, ?_, ?_, ?_, ?_, ?_, fun _ => status_high s⟩ <;>
    · simp only [status, BitVec.getLsbD_append]
      simp

/-- What `TX_DEC` leaves beside the line: the text has a byte at least, so a frame was sent. -/
theorem execState_txDec_sets (w : Half) (s : State) :
    (execState (.txDec w) s).serInit = true ∧ (execState (.txDec w) s).dly = 0#20 ∧
    (execState (.txDec w) s).decbuf = (fillDec w s).decbuf := by
  obtain ⟨-, hpos, -⟩ := fillDec_filled w s
  have hne : decimalText s.params.decCrlf w ≠ [] := by
    intro h
    simp [h] at hpos
  obtain ⟨-, hinit, -, hdly, -, -⟩ := txBytes_sets _ s hne
  simp only [execState, respond_keeps, (txDec_sends w s).2]
  exact ⟨hinit, hdly, rfl⟩

/-- No command sets `ERR` but one with an index above 8, and none clears it (R31, R92). -/
theorem execState_err (i : Instr) (s : State) :
    (execState i s).err = if i.wf then s.err else true := by
  cases i with
  | spWr k d => cases hk : indexOk k <;> simp [execState, Instr.wf, hk]
  | spRd k => cases hk : indexOk k <;> simp [execState, Instr.wf, hk]
  | _ => simp [execState, Instr.wf]

/-- No command clears `SER_INIT` (R30). -/
theorem execState_serInit (i : Instr) {s : State} (h : s.serInit = true) :
    (execState i s).serInit = true := by
  cases i with
  | txDec w => exact (execState_txDec_sets w s).1
  | spWr k d => cases hk : indexOk k <;> simp [execState, hk, h]
  | spRd k => cases hk : indexOk k <;> simp [execState, hk, h]
  | _ => simp [execState, h]

/-- Settles O49. -/
theorem stickyFlagsStay : Obligations.StickyFlagsStay := by
  intro i s t ht
  rw [exec_next ht, execState_err]
  exact ⟨fun h => by simp [h], execState_serInit i, fun h => by simp [h]⟩

/-- No command but `LD_DIR OW` leaves a released `OW` driven (R24). -/
theorem execState_dirOw {i : Instr} (hi : ∀ v, i ≠ .ldDir .ow v) {s : State}
    (h : s.dirOw = false) : (execState i s).dirOw = false := by
  cases i with
  | ldDir p v =>
    cases p with
    | ow => exact absurd rfl (hi v)
    | tx => simp [execState, h]
  | spWr k d => cases hk : indexOk k <;> simp [execState, hk, h]
  | spRd k => cases hk : indexOk k <;> simp [execState, hk, h]
  | _ => simp [execState, h]

/-- Settles O50: the 1-Wire commands end as `owReset_sets` to `dsRead_sets` say. -/
theorem onlyTheLineDriverCanHoldTheBus : Obligations.OnlyTheLineDriverCanHoldTheBus := by
  intro i s t ht hi
  rw [exec_next ht]
  refine ⟨execState_dirOw hi, ?_⟩
  rintro (rfl | ⟨b, rfl⟩ | ⟨d, rfl⟩ | rfl) <;> simp [execState]

end Sys2Proof.Machine
end

section
/-! SUPPORT. Reads of bytes that hold no value (10_state.md R42). -/

namespace Sys2Proof.Machine

/-- A load of an unwritten byte stops with its index. -/
theorem exec_spRd_unwritten {s : State} {i : BitVec 4} (hi : i.toNat ≤ 8)
    (h : readByte s.sp i.toNat = none) : exec (.spRd i) s = .fault (.unwrittenByte i.toNat) := by
  have hk : indexOk i = true := decide_eq_true hi
  simp [exec, execSpRd, hk, h]

/-- The check stops at the first unwritten byte. -/
theorem exec_crcChk_unwritten {s : State} {j : Nat}
    (h : firstUnwritten s.sp (List.range Config.spLen) = some j) :
    exec .crcChk s = .fault (.unwrittenByte j) := by
  simp [exec, execCrcChk, h]

/-- The decode stops at the first unwritten byte of its two. -/
theorem exec_dsDecode_unwritten {s : State} {j : Nat}
    (h : firstUnwritten s.sp [0, 1] = some j) :
    exec .dsDecode s = .fault (.unwrittenByte j) := by
  simp [exec, execDsDecode, h]

/-- Settles O32: the stops by `firstUnwritten_le`, the temperature read by `dsRead_withSp`. -/
theorem unwrittenByteStopsItsReader : Obligations.UnwrittenByteStopsItsReader := by
  refine ⟨fun s i hi h => exec_spRd_unwritten hi h, fun s i hi h => ?_, fun s i hi h => ?_,
    fun s m => ?_, readByte_nil⟩
  · have hmem : i ∈ List.range Config.spLen := List.mem_range.mpr (Nat.lt_succ_of_le hi)
    obtain ⟨j, hj, hle, hnone⟩ := firstUnwritten_le List.pairwise_le_range hmem h
    exact ⟨j, hle, hnone, exec_crcChk_unwritten hj⟩
  · have hmem : i ∈ [0, 1] := by
      simp only [List.mem_cons, List.not_mem_nil, or_false]
      omega
    obtain ⟨j, hj, hle, hnone⟩ := firstUnwritten_le (by simp) hmem h
    exact ⟨j, hle, hnone, exec_dsDecode_unwritten hj⟩
  · obtain ⟨n, hn⟩ := dsRead_withSp m s
    exact ⟨dsRead s, n, rfl, congrArg Host.Outcome.next hn⟩

end Sys2Proof.Machine
end

section
/-! SUPPORT. The part of the invariant between steps that a command keeps in the registers: sequencer
at 0, no delay running, buffers in canonical form (10_state.md R33, R34, 20_memory.md R51, R52). -/

namespace Sys2Proof.Machine

/-! ### What a temperature read leaves in `SP` -/

/-- Step 8 keeps the canonical form of `SP`: it writes below nine. -/
theorem scratchBytes_wf {n : Nat} (hn : n ≤ 9) {s : State} (h : s.sp.wf = true) :
    (scratchBytes 0 n s).sp.wf = true := by
  induction n with
  | zero => exact h
  | succ n ih =>
    rw [scratchBytes_succ, scratchTurn_sp]
    exact writeByte_wf (ih (by omega)) (by omega) _

/-- A temperature read leaves `SP` as it was, or filled by step 8. -/
theorem dsRead_sp (s : State) :
    (dsRead s).sp = s.sp ∨ (dsRead s).sp = (bufferFull (secondReset (owReset s))).sp := by
  obtain ⟨first, second, checked⟩ := dsRead_sequence s
  have hfirst : (owReset s).sp = s.sp := by simp
  have hsecond : (secondReset (owReset s)).sp = s.sp := by simp [secondReset]
  have hcheck : (crcCheck (owReset (bufferFull (secondReset (owReset s))))).sp =
      (bufferFull (secondReset (owReset s))).sp := by simp
  generalize owReset s = r1 at *
  generalize secondReset r1 = r2 at *
  generalize crcCheck (owReset (bufferFull r2)) = k at *
  by_cases hp : r1.pres = .present
  · by_cases ha : s.params.rst2Abort = true ∧ r2.pres ≠ .present
    · exact .inl (by rw [second hp ha.1 ha.2]; exact hsecond)
    · have hgo : s.params.rst2Abort = false ∨ r2.pres = .present := by
        by_cases h2 : r2.pres = .present
        · exact .inr h2
        · exact .inl (by simpa [h2] using ha)
      obtain ⟨failed, passed⟩ := checked hp hgo
      cases hc : k.crcok
      · exact .inr (by rw [failed hc]; exact hcheck)
      · exact .inr (by rw [passed hc]; exact hcheck)
  · exact .inl (by rw [first hp]; exact hfirst)

theorem dsRead_sp_wf {s : State} (h : s.sp.wf = true) : (dsRead s).sp.wf = true := by
  rcases dsRead_sp s with hs | hs
  · rw [hs, h]
  · rw [hs]
    exact scratchBytes_wf (le_refl 9) (by simp [secondReset, h])

/-! ### What the fill leaves in `DECBUF` -/

/-- `DECBUF` is in canonical form and has room for `k` bytes below `DECPTR`. -/
structure DecRoom (k : Nat) (s : State) : Prop where
  canonical : s.decbuf.wf = true
  room : k ≤ s.decptr.toNat
  inside : s.decptr.toNat ≤ 9

theorem DecRoom.mono {j k : Nat} {s : State} (h : DecRoom k s) (hj : j ≤ k) : DecRoom j s :=
  ⟨h.canonical, hj.trans h.room, h.inside⟩

theorem DecRoom.push {k : Nat} {s : State} (h : DecRoom (k + 1) s) (c : Byte) :
    DecRoom k (pushDec c s) := by
  obtain ⟨hwf, hroom, hin⟩ := h
  have hp : (s.decptr - 1#4).toNat = s.decptr.toNat - 1 := by
    rw [BitVec.toNat_sub_of_le (by rw [BitVec.le_def]; show 1 ≤ _; omega)]
    rfl
  refine ⟨writeByte_wf hwf (by omega) c, ?_, ?_⟩
  · show k ≤ (s.decptr - 1#4).toNat
    omega
  · show (s.decptr - 1#4).toNat ≤ 9
    omega

theorem DecRoom.digits {k : Nat} (n m : Nat) {s : State} (h : DecRoom (k + n) s) :
    DecRoom k (pushDigits n m s) := by
  induction n generalizing m s with
  | zero => exact h
  | succ n ih =>
    unfold pushDigits
    split
    · exact h.mono (by omega)
    · exact ih _ (h.push _)

/-- The fill pushes two bytes at most for the line end, five digits, and a sign. -/
theorem fillDec_wf (w : Half) {s : State} (h : s.decbuf.wf = true) :
    (fillDec w s).decbuf.wf = true := by
  have start : DecRoom 9 { s with decptr := BitVec.ofNat 4 Config.decbufSize } :=
    ⟨h, le_refl 9, le_refl 9⟩
  have lineEnd : DecRoom 7
      (if s.params.decCrlf then
        pushDec 0x0D#8 (pushDec 0x0A#8 { s with decptr := BitVec.ofNat 4 Config.decbufSize })
      else { s with decptr := BitVec.ofNat 4 Config.decbufSize }) := by
    split
    · exact (start.push _).push _
    · exact start.mono (by omega)
  simp only [fillDec]
  split
  · exact (lineEnd.push _).canonical
  · split
    · exact ((lineEnd.digits (k := 2) 5 _).push _).canonical
    · exact (lineEnd.digits (k := 2) 5 _).canonical

/-! ### Every command -/

/-- The registers between steps: the sequencer idle, no delay running, the buffers canonical. -/
structure AtRest (s : State) : Prop where
  stepCounter : s.seq = 0#4
  noDelay : s.dly = 0#20
  scratchpad : s.sp.wf = true
  decimalBuffer : s.decbuf.wf = true

/-- A command may leave these registers as they were. -/
theorem AtRest.of_eq {s t : State} (h : AtRest s) (hq : t.seq = s.seq) (hd : t.dly = s.dly)
    (hs : t.sp = s.sp) (hb : t.decbuf = s.decbuf) : AtRest t :=
  ⟨hq.trans h.stepCounter, hd.trans h.noDelay, by rw [hs, h.scratchpad],
    by rw [hb, h.decimalBuffer]⟩

theorem AtRest.malformed {s : State} (h : AtRest s) : AtRest (malformed s) :=
  h.of_eq rfl rfl rfl rfl

/-- Every command keeps the registers at rest. -/
theorem execState_atRest (i : Instr) {s : State} (h : AtRest s) : AtRest (execState i s) := by
  cases i with
  | dsRead =>
    exact ⟨(dsRead_sets s).1, by simp [execState], dsRead_sp_wf h.scratchpad,
      by simp [execState, h.decimalBuffer]⟩
  | spWr k d =>
    simp only [execState]
    split
    · next hk =>
      have hlt : k.toNat < 9 := Nat.lt_succ_of_le (of_decide_eq_true hk)
      exact ⟨h.stepCounter, h.noDelay, writeByte_wf h.scratchpad hlt d, h.decimalBuffer⟩
    · exact h.malformed
  | spRd k =>
    simp only [execState]
    split
    · exact h.of_eq rfl rfl rfl rfl
    · exact h.malformed
  | txDec w =>
    obtain ⟨-, hdly, hbuf⟩ := execState_txDec_sets w s
    exact ⟨by simp [execState, h.stepCounter], hdly, by simp [execState, h.scratchpad],
      by rw [hbuf]; exact fillDec_wf w h.decimalBuffer⟩
  | _ =>
    exact ⟨by simp [execState, h.stepCounter], by simp [execState, h.noDelay],
      by simp [execState, h.scratchpad], by simp [execState, h.decimalBuffer]⟩

theorem runLatched_atRest {s t : State} (h : AtRest s) (ht : runLatched s = .next t) :
    AtRest t := by
  rcases runLatched_next ht with ⟨i, hi⟩ | rfl
  · rw [exec_next hi]
    exact execState_atRest i h
  · exact h.malformed

end Sys2Proof.Machine
end

section
/-! SUPPORT. The part of the invariant that speaks of the records: the trace and the port record stand
in the order of time and tell the pins and `IE`; whatever appends such a stretch keeps that, a reset and
a cut inside an operation included (20_memory.md R60, 10_state.md R20, 70_reset_and_hazards.md R231). -/

namespace Sys2Proof.Machine

/-! ### Records that only grow -/

/-- The records stand in the order of time, not later than now, and tell the pins and `IE`. -/
structure Recorded (s : State) : Prop where
  traceOrdered : TraceOrdered s
  portsOrdered : PortsOrdered s
  traceTellsPins : ∀ p, outAfter p .z s.trace = s.out p
  portsTellIe : ieAfter false s.ports = s.ie

theorem Inv.recorded {s : State} (h : Inv s) : Recorded s :=
  ⟨h.traceOrdered, h.portsOrdered, h.traceTellsPins, h.portsTellIe⟩

theorem Inv.atRest {s : State} (h : Inv s) : AtRest s :=
  ⟨h.stepCounter, h.noDelay, h.scratchpad, h.decimalBuffer⟩

/-- The invariant is an idle block, registers at rest, records in order. -/
theorem inv_of_parts {s : State} (hb : s.busy = false) (ha : AtRest s) (hr : Recorded s) : Inv s :=
  ⟨hb, ha.stepCounter, ha.noDelay, ha.scratchpad, ha.decimalBuffer, hr.traceOrdered,
    hr.portsOrdered, hr.traceTellsPins, hr.portsTellIe⟩

/-- From `s` to `t` the trace gains `es` and the port record `ps`, in the order of time, within that
time, telling what became of the pins and of `IE`. -/
structure Extends (s t : State) (es : List Event) (ps : List PortEvent) : Prop where
  later : s.now ≤ t.now
  trace : t.trace = s.trace ++ es
  traceOrdered : (es.map Event.time).Pairwise (· ≤ ·)
  traceWithin : ∀ e ∈ es, s.now ≤ e.time ∧ e.time ≤ t.now
  pins : ∀ p, outAfter p (s.out p) es = t.out p
  ports : t.ports = s.ports ++ ps
  portsOrdered : (ps.map PortEvent.time).Pairwise (· ≤ ·)
  portsWithin : ∀ e ∈ ps, s.now ≤ e.time ∧ e.time ≤ t.now
  ie : ieAfter s.ie ps = t.ie

/-- An ordered stretch after an ordered record, entries of any kind. -/
theorem times_append {α : Type} (time : α → Nat) {xs ys : List α} {m n : Nat} (hmn : m ≤ n)
    (hx : (xs.map time).Pairwise (· ≤ ·)) (hxm : ∀ x ∈ xs, time x ≤ m)
    (hy : (ys.map time).Pairwise (· ≤ ·)) (hyn : ∀ y ∈ ys, m ≤ time y ∧ time y ≤ n) :
    ((xs ++ ys).map time).Pairwise (· ≤ ·) ∧ ∀ e ∈ xs ++ ys, time e ≤ n := by
  constructor
  · rw [List.map_append]
    exact ordered_append hx hy (m := m) (List.forall_mem_map.mpr hxm)
      (List.forall_mem_map.mpr fun y h => (hyn y h).1)
  · intro e he
    rcases List.mem_append.mp he with h | h
    · exact (hxm e h).trans hmn
    · exact (hyn e h).2

/-- Records in order stay in order when such a stretch is appended. -/
theorem Extends.recorded {s t : State} {es : List Event} {ps : List PortEvent}
    (k : Extends s t es ps) (h : Recorded s) : Recorded t where
  traceOrdered := by
    rw [TraceOrdered, k.trace]
    exact times_append Event.time k.later h.traceOrdered.1 h.traceOrdered.2 k.traceOrdered
      k.traceWithin
  portsOrdered := by
    rw [PortsOrdered, k.ports]
    exact times_append PortEvent.time k.later h.portsOrdered.1 h.portsOrdered.2 k.portsOrdered
      k.portsWithin
  traceTellsPins p := by rw [k.trace, outAfter_append, h.traceTellsPins, k.pins]
  portsTellIe := by rw [k.ports, ieAfter_append, h.portsTellIe, k.ie]

/-- A command's own stretch is one. -/
theorem Progress.toExtends {L : Pin → Prop} {s t : State} (h : Progress L s t) :
    ∃ es ps, Extends s t es ps := by
  obtain ⟨es, htrace, hto, htw, hpins⟩ := h.trace
  obtain ⟨ps, hports, hpo, hpw, hie⟩ := h.ports
  exact ⟨es, ps, h.later, htrace, hto, fun e he => ⟨(htw e he).1, (htw e he).2.1⟩, hpins,
    hports, hpo, fun e he => ⟨(hpw e he).1, (hpw e he).2.1⟩, hie⟩

theorem runLatched_extends {s t : State} (h : runLatched s = .next t) :
    ∃ es ps, Extends s t es ps := by
  rcases runLatched_next h with ⟨i, hi⟩ | rfl
  · exact (exec_progress hi).toExtends
  · exact (malformed_progress (L := OnOw) s).toExtends

/-! ### The handshake -/

theorem accept_extends (o : Offer) (rest : List Offer) (s : State) :
    Extends s (accept o rest s) [] [.busy (acceptInstant o s) true] where
  later := le_max_left _ _
  trace := (List.append_nil _).symm
  traceOrdered := .nil
  traceWithin := nofun
  pins p := by cases p <;> rfl
  ports := rfl
  portsOrdered := List.pairwise_singleton _ _
  portsWithin := by
    intro e he
    rw [List.mem_singleton] at he
    subst he
    exact ⟨le_max_left _ _, le_refl _⟩
  ie := rfl

theorem complete_extends (s : State) :
    Extends s (complete s) [] [.busy s.now false, .rsp s.now s.res] where
  later := le_refl _
  trace := (List.append_nil _).symm
  traceOrdered := .nil
  traceWithin := nofun
  pins p := by cases p <;> rfl
  ports := rfl
  portsOrdered := by simp [PortEvent.time]
  portsWithin := by
    intro e he
    simp only [List.mem_cons, List.not_mem_nil, or_false] at he
    rcases he with rfl | rfl <;> exact ⟨le_refl _, le_refl _⟩
  ie := rfl

/-! ### Reset -/

/-- The entries of a reset stand at its one instant. -/
theorem releases_time (s : State) : ∀ e ∈ releases s, e.time = s.now := by
  intro e he
  unfold releases at he
  rcases List.mem_append.mp he with h | h <;> split at h <;> simp_all [Event.time]

theorem resetPorts_time (s : State) : ∀ e ∈ resetPorts s, e.time = s.now := by
  intro e he
  unfold resetPorts at he
  rcases List.mem_append.mp he with h | h <;> split at h <;> simp_all [PortEvent.time]

/-- Instants that are all the same stand in order. -/
theorem pairwise_le_of_const {xs : List Nat} {n : Nat} (h : ∀ x ∈ xs, x = n) :
    xs.Pairwise (· ≤ ·) :=
  List.pairwise_of_forall_mem_list fun a ha b hb => by rw [h a ha, h b hb]

/-- The releases of a reset tell that both pins are released. -/
theorem outAfter_releases (p : Pin) (s : State) : outAfter p (s.out p) (releases s) = .z := by
  unfold releases
  by_cases ho : s.out .ow = .z <;> by_cases ht : s.out .tx = .z <;> cases p <;>
    simp [ho, ht, outAfter]

/-- The port records of a reset tell that `IE` is 0. -/
theorem ieAfter_resetPorts (s : State) : ieAfter s.ie (resetPorts s) = false := by
  unfold resetPorts
  cases s.ie <;> cases s.busy <;> rfl

theorem resetNow_extends (s : State) :
    Extends s (resetNow s) (releases s) (resetPorts s) where
  later := le_refl _
  trace := rfl
  traceOrdered := pairwise_le_of_const (List.forall_mem_map.mpr (releases_time s))
  traceWithin e he := ⟨(releases_time s e he).ge, (releases_time s e he).le⟩
  pins p := by
    rw [outAfter_releases]
    cases p <;> rfl
  ports := rfl
  portsOrdered := pairwise_le_of_const (List.forall_mem_map.mpr (resetPorts_time s))
  portsWithin e he := ⟨(resetPorts_time s e he).ge, (resetPorts_time s e he).le⟩
  ie := ieAfter_resetPorts s

/-- A reset leads to the invariant from every state whose records are in order. -/
theorem resetNow_inv {s : State} (h : Recorded s) : Inv (resetNow s) :=
  inv_of_parts rfl ⟨rfl, rfl, rfl, rfl⟩ ((resetNow_extends s).recorded h)

/-- Time may pass before a reset. -/
theorem idleReset_extends (u : Nat) (rest : List Nat) (s : State) :
    Extends s { s with now := max s.now u, resets := rest } [] [] where
  later := le_max_left _ _
  trace := (List.append_nil _).symm
  traceOrdered := .nil
  traceWithin := nofun
  pins p := by cases p <;> rfl
  ports := (List.append_nil _).symm
  portsOrdered := .nil
  portsWithin := nofun
  ie := rfl

/-! ### A reset inside an operation -/

/-- A pin set from an output shows that output. -/
theorem outOf_decide (o : Out) : outOf (decide (o ≠ .z)) (decide (o = .high)) = o := by
  cases o <;> rfl

/-- What falls before `u` of an ordered stretch is an ordered stretch that ends by `u`. -/
theorem times_filter {α : Type} (time : α → Nat) {xs : List α} {m n u : Nat}
    (ho : (xs.map time).Pairwise (· ≤ ·)) (hw : ∀ x ∈ xs, m ≤ time x ∧ time x ≤ n) :
    ((xs.filter fun e => decide (time e < u)).map time).Pairwise (· ≤ ·) ∧
    ∀ x ∈ xs.filter fun e => decide (time e < u), m ≤ time x ∧ time x ≤ u := by
  refine ⟨ho.sublist (List.filter_sublist.map time), fun x hx => ?_⟩
  obtain ⟨hmem, hlt⟩ := List.mem_filter.mp hx
  exact ⟨(hw x hmem).1, (of_decide_eq_true hlt).le⟩

/-- An operation cut short at `u` has appended what it showed before `u`. -/
theorem cutAt_extends {s t : State} {es : List Event} {ps : List PortEvent}
    (k : Extends s t es ps) {u : Nat} (hu : s.now ≤ u) (rest : List Nat) :
    Extends s { cutAt u s t with resets := rest } (es.filter fun e => decide (e.time < u))
      (ps.filter fun e => decide (e.time < u)) := by
  have hshown : t.trace.drop s.trace.length = es := by rw [k.trace, List.drop_left]
  have hshowed : t.ports.drop s.ports.length = ps := by rw [k.ports, List.drop_left]
  obtain ⟨hto, htw⟩ := times_filter Event.time (u := u) k.traceOrdered k.traceWithin
  obtain ⟨hpo, hpw⟩ := times_filter PortEvent.time (u := u) k.portsOrdered k.portsWithin
  refine ⟨hu, ?_, hto, htw, fun p => ?_, ?_, hpo, hpw, ?_⟩
  · simp only [cutAt, hshown]
  · cases p <;> simp only [cutAt, hshown, State.out, State.dir, State.lat] <;>
      exact (outOf_decide _).symm
  · simp only [cutAt, hshowed]
  · simp only [cutAt, hshowed]

end Sys2Proof.Machine
end

section
/-! SUPPORT. The invariant of the machine between steps, at reset and under every step. -/

namespace Sys2Proof.Machine

/-- An operation leads back to the invariant, whether it completes or a reset ends it. -/
theorem settle_inv {s t : State} {es : List Event} {ps : List PortEvent} (h : Recorded s)
    (k : Extends s t es ps) (ha : AtRest t) (hu : ∀ u ∈ t.resets.head?, s.now ≤ u) :
    Inv (settle s t) := by
  rcases settle_cases s t with hc | ⟨u, rest, hr, -, hc⟩
  · rw [hc]
    exact inv_of_parts rfl (ha.of_eq rfl rfl rfl rfl)
      ((complete_extends t).recorded (k.recorded h))
  · rw [hc]
    exact resetNow_inv ((cutAt_extends k (hu u (by simp [hr])) rest).recorded h)

/-- An operation leaves the resets asked for. -/
theorem runLatched_resets {s t : State} (h : runLatched s = .next t) : t.resets = s.resets := by
  rcases runLatched_next h with ⟨i, hi⟩ | rfl
  · obtain ⟨-, -, -, -, hresets, -⟩ := exec_keeps hi
    exact hresets
  · rfl

/-- Settles O54. -/
theorem resetMeetsTheInvariant : Obligations.ResetMeetsTheInvariant :=
  inv_of_parts rfl ⟨rfl, rfl, rfl, rfl⟩
    ⟨⟨.nil, nofun⟩, ⟨.nil, nofun⟩, fun p => by cases p <;> rfl, rfl⟩

/-- Settles O53: an accepted word's operation keeps the registers at rest and appends to the records
an ordered stretch; its end, or the reset that ends it, appends another. -/
theorem everyStepKeepsTheInvariant : Obligations.EveryStepKeepsTheInvariant := by
  intro s t hs ht
  rcases step_next ht with rfl | ⟨u, rest, rfl⟩ | ⟨o, rest, r, hp, hr, rfl⟩
  · exact hs
  · exact resetNow_inv ((idleReset_extends u rest s).recorded hs.recorded)
  · obtain ⟨es, ps, hk⟩ := runLatched_extends hr
    have hrest : AtRest (accept o rest s) := hs.atRest.of_eq rfl rfl rfl rfl
    refine settle_inv ((accept_extends o rest s).recorded hs.recorded) hk
      (runLatched_atRest hrest hr) fun u hu => ?_
    rw [runLatched_resets hr] at hu
    exact (plan_command hp u hu).le

end Sys2Proof.Machine
end

section
/-! SUPPORT. Time and the records under every command (20_memory.md R60, R67, R68). -/

namespace Sys2Proof.Machine

/-- The trace of a stretch of a run extends the one before it. -/
theorem Progress.trace_extends {L : Pin → Prop} {s t : State} (h : Progress L s t) :
    s.trace <+: t.trace := by
  obtain ⟨es, hes, -⟩ := h.trace
  exact ⟨es, hes.symm⟩

/-- So does its port record. -/
theorem Progress.ports_extends {L : Pin → Prop} {s t : State} (h : Progress L s t) :
    s.ports <+: t.ports := by
  obtain ⟨ps, hps, -⟩ := h.ports
  exact ⟨ps, hps.symm⟩

/-- A command with no delay in it ends at the instant it started (R67). -/
theorem execState_now_of_untimed {i : Instr} (hreset : i ≠ .owReset) (hbit : ∀ b, i ≠ .owBit b)
    (hbyte : ∀ d, i ≠ .owByte d) (hread : i ≠ .dsRead) (htx : ∀ d, i ≠ .txByte d)
    (hdec : ∀ w, i ≠ .txDec w) (s : State) : (execState i s).now = s.now := by
  cases i with
  | owReset => exact absurd rfl hreset
  | owBit b => exact absurd rfl (hbit b)
  | owByte d => exact absurd rfl (hbyte d)
  | dsRead => exact absurd rfl hread
  | txByte d => exact absurd rfl (htx d)
  | txDec w => exact absurd rfl (hdec w)
  | spWr k d => cases hk : indexOk k <;> simp [execState, hk]
  | spRd k => cases hk : indexOk k <;> simp [execState, hk]
  | _ => simp [execState]

/-- Settles O52. -/
theorem timeAndTraceOnlyGrow : Obligations.TimeAndTraceOnlyGrow := by
  intro i s t ht
  have run := exec_progress ht
  refine ⟨run.later, run.trace_extends, run.ports_extends, fun hreset hbit hbyte hread htx hdec => ?_⟩
  rw [exec_next ht]
  exact execState_now_of_untimed hreset hbit hbyte hread htx hdec s

end Sys2Proof.Machine
end

section
/-! SUPPORT. `LD_READ` of a pin driven high: its latch, or the stop in contention
(20_memory.md R61, R73). -/

namespace Sys2Proof.Machine

/-- A sample of a pin driven high reads high, records itself and draws (log entry 5). -/
theorem sample_driven_high {p : Pin} {s : State} (hd : s.dir p = true) (hl : s.lat p = true) :
    sample p s = (true,
      { s with trace := s.trace ++ [.sample s.now p true false], draws := s.draws + 1 }) := by
  simp [sample, hd, hl]

/-- Out of contention a pin driven high reads 1, with one sample recorded and nothing else changed. -/
theorem exec_ldRead_driven_high {p : Pin} {s : State} (hd : s.dir p = true) (hl : s.lat p = true)
    (hc : contended p s = false) :
    ∃ t, exec (.ldRead p) s = .next t ∧ t.res = 1#16 ∧
      t.trace = s.trace ++ [.sample s.now p true false] ∧
      { t with res := s.res, trace := s.trace, draws := s.draws } = s := by
  refine ⟨respond 1#16 (sample p s).2, ?_, rfl, ?_, ?_⟩
  · simp [exec, execLdRead, hc, sample_driven_high hd hl, bitResponse]
  · simp [sample_driven_high hd hl]
  · rw [sample_driven_high hd hl]
    rfl

/-- In contention `LD_READ` stops (R73). -/
theorem exec_ldRead_contended {p : Pin} {s : State} (hc : contended p s = true) :
    exec (.ldRead p) s = .fault .contention := by
  simp [exec, execLdRead, hc]

/-- `OW` driven high is in contention exactly when a peer pulls it low. -/
theorem contended_driven_high {s : State} (hd : s.dirOw = true) (hl : s.latOw = true) :
    contended .ow s = peerPullsLow s := by
  simp [contended, hd, hl]

/-- On a line at one level for good, the peer pulls low exactly if that level is low (R63). -/
theorem peerPullsLow_level {s : State} {v : Bool} (he : s.env = .level v) :
    peerPullsLow s = !v := by
  simp [peerPullsLow, he]

/-- Settles O17: `TX` knows no contention, `OW` is in contention when the peer pulls low. -/
theorem drivenHighReadsHighUnlessContended : Obligations.DrivenHighReadsHighUnlessContended := by
  refine ⟨fun s hd hl => ?_, fun s hd hl hpeer => ?_, fun s hd hl hpeer => ?_,
    fun s he => peerPullsLow_level he, fun s he => peerPullsLow_level he⟩
  · exact exec_ldRead_driven_high (p := .tx) hd hl rfl
  · exact exec_ldRead_driven_high (p := .ow) hd hl ((contended_driven_high hd hl).trans hpeer)
  · exact exec_ldRead_contended ((contended_driven_high hd hl).trans hpeer)

end Sys2Proof.Machine
end

section
/-! SUPPORT. `OW_BYTE` against a script of answers (41_onewire.md R132). -/

namespace Sys2Proof.Machine

/-- A format with one byte allows no bit above it (R81). -/
theorem formatB8_eq (m : Half) (f : Byte → Instr) :
    formatB8 m f =
      if m &&& 0xFF00#16 = 0#16 then .ok (f (m.extractLsb' 0 8)) else .malformed .reservedBits := by
  rw [formatB8, unlessReserved]

/-- A byte as a response is its zero-extension (R84). -/
theorem byteResponse_eq (b : Byte) : byteResponse b = b.setWidth 16 :=
  (BitVec.setWidth_eq_append (show 8 ≤ 16 by decide)).symm

/-- Settles O24: the transfer by `owByte_answers`, the word by its format. -/
theorem owByteAnswersWrittenAndSampledBits : Obligations.OwByteAnswersWrittenAndSampledBits := by
  refine ⟨fun imm => ?_, fun d e rest s he => ?_⟩
  · rw [decode_append]
    exact formatB8_eq imm .owByte
  · obtain ⟨hrx, henv⟩ := owByte_answers d e rest he
    refine ⟨respond (byteResponse (owByte d s).rx) (owByte d s), rfl, ?_, ?_, ?_⟩
    · rw [respond_res, byteResponse_eq, hrx]
    · simpa using hrx
    · simpa using henv

end Sys2Proof.Machine
end

section
/-! SUPPORT. The decode of the raw code (43_ds18b20.md R158, R159). -/

namespace Sys2Proof.Machine

/-- `decode_raw()` on two written bytes: little-endian (R54). -/
theorem decodeRaw_of_reads {s : State} {lo hi : Byte} (h0 : readByte s.sp 0 = some lo)
    (h1 : readByte s.sp 1 = some hi) : decodeRaw s = { s with raw := hi ++ lo } := by
  rw [decodeRaw, byteAt_of_read h0, byteAt_of_read h1]

/-- `DS_DECODE` on two written bytes writes `RAW` and `RES` alone. -/
theorem exec_dsDecode_written {s : State} {lo hi : Byte} (h0 : readByte s.sp 0 = some lo)
    (h1 : readByte s.sp 1 = some hi) :
    exec .dsDecode s = .next
      { s with raw := hi ++ lo, res := BitVec.ofInt 16 (celsius s.params.roundBias (hi ++ lo)) } := by
  have hw : firstUnwritten s.sp [0, 1] = none := by
    rw [firstUnwritten_none]
    simp [h0, h1]
  simp only [exec, execDsDecode, hw, decodeRaw_of_reads h0 h1]
  rfl

/-- The decode rounds the biased raw code down to whole degrees (R158). -/
theorem celsius_bounds (bias : Nat) (raw : Half) :
    16 * celsius bias raw ≤ raw.toInt + (bias : Int) ∧
    raw.toInt + (bias : Int) < 16 * celsius bias raw + 16 := by
  rw [celsius]
  omega

/-- With the nominal bias it is the ceiling of a sixteenth of the raw code, between -2048 and 2048. -/
theorem celsius_nominal {bias : Nat} (hb : bias = 15) (raw : Half) :
    16 * (celsius bias raw - 1) < raw.toInt ∧ raw.toInt ≤ 16 * celsius bias raw ∧
    -2048 ≤ celsius bias raw ∧ celsius bias raw ≤ 2048 := by
  obtain ⟨hle, hlt⟩ := celsius_bounds bias raw
  have hlo : -32768 ≤ raw.toInt := BitVec.le_toInt raw
  have hhi : raw.toInt < 32768 := BitVec.toInt_lt
  omega

/-- Settles O33. -/
theorem dsDecodeRoundsTheRawCode : Obligations.DsDecodeRoundsTheRawCode := by
  refine ⟨fun imm => ?_, fun s lo hi h0 h1 => ?_⟩
  · rw [decode_append]
    exact formatN_eq imm .dsDecode
  · obtain ⟨hle, hlt⟩ := celsius_bounds s.params.roundBias (hi ++ lo)
    exact ⟨_, exec_dsDecode_written h0 h1, hle, hlt, fun hb => celsius_nominal hb _⟩

end Sys2Proof.Machine
end

section
/-! SUPPORT. A temperature read of a device that answers: what it leaves and how long it takes
(43_ds18b20.md R151 to R158, 20_memory.md R63, 70_reset_and_hazards.md R251). -/

namespace Sys2Proof.Machine

/-- Steps 6 to 8 use up the answers to their slots. -/
theorem dsReadBytes_dsCommand_env {q : State} {bs : List Byte} {rest : Env} (hl : bs.length = 9)
    (he : q.env = slotAnswers 0xCC#8 0xFF#8 (slotAnswers 0xBE#8 0xFF#8 (readAnswers bs rest))) :
    (dsReadBytes 9 (dsCommand q)).env = rest := by
  obtain ⟨-, -, -, -, -, -, hcount⟩ := dsCommand_keeps q
  have h := dsReadBytes_answers bs [] rest (dsCommand_answers _ he) (fun i hi => nomatch hi)
    (by rw [hcount]; rfl) (by rw [hl]; decide)
  rw [hl] at h
  exact h.2

/-- With interrupts off steps 6 to 10 last eleven transfers and a reset that is answered. -/
theorem dsTail_now {q : State} {bs : List Byte} {rest : Env} (hie : q.ie = false)
    (hl : bs.length = 9)
    (he : q.env = slotAnswers 0xCC#8 0xFF#8 (slotAnswers 0xBE#8 0xFF#8
      (readAnswers bs (presenceAnswers rest)))) :
    (dsCheck (dsReadBytes 9 (dsCommand q))).now =
      q.now + 11 * (8 * (60 + q.params.tRec.toNat)) + 960 := by
  have hcommand : (dsCommand q).ie = false := (rested_dsCommand hie).ie
  have hbytes : (dsReadBytes 9 (dsCommand q)).ie = false :=
    (rested_dsReadBytes 9 (rested_dsCommand hie)).ie
  obtain ⟨-, -, -, -, hparams, -⟩ := dsCommand_keeps q
  calc (dsCheck (dsReadBytes 9 (dsCommand q))).now
      = (owReset (dsReadBytes 9 (dsCommand q))).now := by simp [dsCheck, atStep]
    _ = (dsReadBytes 9 (dsCommand q)).now + 960 :=
        owReset_presence_now rest hbytes (dsReadBytes_dsCommand_env hl he)
    _ = q.now + 11 * (8 * (60 + q.params.tRec.toNat)) + 960 := by
        rw [dsReadBytes_now 9 hcommand, dsCommand_now hie, hparams]
        ring

/-- The state after the second reset of a read whose first reset found a device (R151). -/
def afterSecondReset (s : State) : State := owReset (dsConvert (owReset (atStep 1#4 s)))

/-- A device answers the first two resets of a read and leaves the written ones alone. -/
theorem deviceAnswers_resets {s : State} {bs : List Byte} {rest : Env}
    (he : s.env = deviceAnswers bs rest) :
    (owReset (atStep 1#4 s)).pres = .present ∧ (afterSecondReset s).pres = .present ∧
    (afterSecondReset s).env = slotAnswers 0xCC#8 0xFF#8 (slotAnswers 0xBE#8 0xFF#8
      (readAnswers bs (presenceAnswers rest))) ∧
    (afterSecondReset s).raw = s.raw ∧ (afterSecondReset s).params = s.params := by
  obtain ⟨hpres1, henv1⟩ := owReset_presence _ (s := atStep 1#4 s) he
  obtain ⟨hpres2, henv2⟩ := owReset_presence _ (dsConvert_answers _ henv1)
  exact ⟨hpres1, hpres2, henv2, by simp [afterSecondReset, dsConvert_keeps, atStep],
    by simp [afterSecondReset, dsConvert_keeps, atStep]⟩

/-- With interrupts off steps 1 to 5 then last two resets, two transfers and the conversion wait. -/
theorem deviceAnswers_resets_now {s : State} {bs : List Byte} {rest : Env} (hie : s.ie = false)
    (he : s.env = deviceAnswers bs rest) :
    (afterSecondReset s).ie = false ∧
    (afterSecondReset s).now = s.now + 2 * 960 + 2 * (8 * (60 + s.params.tRec.toNat)) + 750000 := by
  have hie1 : (owReset (atStep 1#4 s)).ie = false := (rested_reset (s := atStep 1#4 s) hie).ie
  have hie2 := (rested_dsConvert hie1).ie
  have henv1 := (owReset_presence _ (s := atStep 1#4 s) he).2
  have hparams : (owReset (atStep 1#4 s)).params = s.params := by simp [atStep]
  refine ⟨(rested_reset hie2).ie, ?_⟩
  rw [afterSecondReset, owReset_presence_now _ hie2 (dsConvert_answers _ henv1),
    dsConvert_now hie1, owReset_presence_now (s := atStep 1#4 s) _ hie he, hparams, atStep_now]
  ring

/-- The state after the check, step 10, of a read whose second reset did not end it (R151). -/
def afterCheck (s : State) : State := dsCheck (dsReadBytes 9 (dsCommand (afterSecondReset s)))

/-- After two resets that found a device the check decides how a read ends (R151, R156). -/
theorem dsRead_afterCheck {s : State} (h1 : (owReset (atStep 1#4 s)).pres = .present)
    (h2 : (afterSecondReset s).pres = .present) :
    ((afterCheck s).crcok = false → dsRead s = dsEnd Config.sentinel (afterCheck s)) ∧
    ((afterCheck s).crcok = true → dsRead s =
      dsEnd (celsius s.params.roundBias (decodeRaw (afterCheck s)).raw)
        (decodeRaw (afterCheck s))) := by
  obtain ⟨-, -, hend⟩ := dsRead_paths s
  obtain ⟨hfail, hpass⟩ := hend h1 (.inr h2)
  exact ⟨hfail, fun hc => by rw [hpass hc, decodeRaw_atStep, dsEnd_atStep]; rfl⟩

/-- What a read of a device that sends the bytes `m` and then `c` leaves at the check, step 10. -/
structure DeviceChecked (s : State) (m : List Byte) (c : Byte) (rest : Env) (u : State) : Prop where
  holds : Holds u.sp (m ++ [c])
  crc : u.crc = crcOf m
  crcok : u.crcok = decide (crcOf m = c)
  raw : u.raw = s.raw
  env : u.env = rest
  pres : u.pres = .present
  now : s.ie = false → u.now = s.now + 759120 + 104 * s.params.tRec.toNat

/-- A read of such a device gets to the check with what the device sent. -/
theorem afterCheck_of_device {s : State} {m : List Byte} {c : Byte} {rest : Env}
    (hm : m.length = 8) (he : s.env = deviceAnswers (m ++ [c]) rest) :
    DeviceChecked s m c rest (afterCheck s) := by
  obtain ⟨-, -, henv, hraw, hparams⟩ := deviceAnswers_resets he
  obtain ⟨hsp, hcrc, hcrcok, hraw', hrest, hpres⟩ := dsTail_answers hm henv
  refine ⟨hsp, hcrc, hcrcok, hraw'.trans hraw, hrest, hpres, fun hie => ?_⟩
  obtain ⟨hie2, hnow⟩ := deviceAnswers_resets_now hie he
  rw [afterCheck, dsTail_now hie2 (by simp [hm]) henv, hnow, hparams]
  ring

/-- Settles O39: the read gets to the check, which decides between the decode and the sentinel. -/
theorem dsReadReadsTheDevice : Obligations.DsReadReadsTheDevice := by
  intro s m c rest hm he
  obtain ⟨hpres1, hpres2, -⟩ := deviceAnswers_resets he
  obtain ⟨hfail, hpass⟩ := dsRead_afterCheck hpres1 hpres2
  have hu := afterCheck_of_device hm he
  generalize afterCheck s = u at hu hfail hpass
  refine ⟨dsRead s, rfl, ?_⟩
  by_cases hc : crcOf m = c
  · rw [hpass (hu.crcok.trans (decide_eq_true hc))]
    refine ⟨hu.holds, hu.env, hu.pres, hu.crc, hu.crcok, fun hne => absurd hc hne,
      fun _ lo hi hlo hhi => ?_, hu.now⟩
    have h0 : readByte u.sp 0 = some lo := by
      rw [hu.holds 0 (by simp), List.getElem?_append_left (by omega), hlo]
    have h1 : readByte u.sp 1 = some hi := by
      rw [hu.holds 1 (by simp [hm]), List.getElem?_append_left (by omega), hhi]
    rw [decodeRaw_of_reads h0 h1]
    exact ⟨rfl, _, rfl, celsius_bounds s.params.roundBias (hi ++ lo)⟩
  · rw [hfail (hu.crcok.trans (decide_eq_false hc))]
    exact ⟨hu.holds, hu.env, hu.pres, hu.crc, hu.crcok, fun _ => ⟨rfl, hu.raw⟩,
      fun heq => absurd heq hc, hu.now⟩

end Sys2Proof.Machine
end

section
/-! SUPPORT. The level of the line over one frame (44_serial.md R90, R174). -/

namespace Sys2Proof.Machine

/-- The level after two stretches of entries is that of the second from where the first led. -/
theorem levelAt_append (p : Pin) (o : Out) (xs ys : List Event) (τ : Nat) :
    levelAt p o (xs ++ ys) τ = levelAt p (levelAt p o xs τ) ys τ := by
  rw [levelAt, List.filter_append, outAfter_append]
  rfl

/-- Once all entries are past, the level is the output they lead to. -/
theorem levelAt_of_past {p : Pin} {o : Out} {es : List Event} {τ : Nat}
    (h : ∀ e ∈ es, e.time ≤ τ) : levelAt p o es τ = outAfter p o es := by
  rw [levelAt, List.filter_eq_self.mpr fun e he => decide_eq_true (h e he)]

/-- What `tx_init()` records: pin events of `TX`, at once, that lead to the output it leaves (R171). -/
theorem txInit_events (s : State) :
    ∃ es, (txInit s).trace = s.trace ++ es ∧
      (∀ e ∈ es, e.on .tx = true ∧ e.isSample = false) ∧
      ∀ τ, s.now ≤ τ → levelAt .tx (s.out .tx) es τ = (txInit s).out .tx := by
  obtain ⟨es, htrace, -, hes, hout⟩ := (txInit_progress s).trace
  have hnow : (txInit s).now = s.now := by simp
  refine ⟨es, htrace, fun e he => ⟨?_, ?_⟩, fun τ hτ => ?_⟩
  · obtain ⟨-, -, p, rfl, hp⟩ := hes e he
    exact hp
  · rw [List.append_cancel_left (htrace.symm.trans (txInit_trace s))] at he
    split at he
    · cases he
    · rw [List.mem_singleton.mp he]
      rfl
  · rw [levelAt_of_past fun e he => ?_, hout]
    obtain ⟨-, hle, -⟩ := hes e he
    omega

/-- The last level of a frame is its stop bit. -/
theorem lastLevel_frameLevels (d : Byte) (o : Out) : lastLevel o (frameLevels d) = .high := rfl

/-- A line that holds the levels of a frame of `d` from `t` on shows level `n` in slot `n`. -/
theorem levelAt_frame_slot (d : Byte) (o : Out) {t τ n : Nat} (hn : n < 10)
    (h1 : t + 104 * n ≤ τ) (h2 : τ < t + 104 * (n + 1)) :
    levelAt .tx o (edges o t (frameLevels d)) τ = driven (frameLevel d n) := by
  have hslot : (τ - t) / 104 = n := by omega
  rw [edges_level _ _ _ _ (by omega), hslot, frameLevels_get d hn]

/-- After the tenth slot the line stays high. -/
theorem levelAt_frame_end (d : Byte) (o : Out) {t τ : Nat} (h : t + 1040 ≤ τ) :
    levelAt .tx o (edges o t (frameLevels d)) τ = .high := by
  have hslot : (frameLevels d)[(τ - t) / 104]? = none := by
    rw [List.getElem?_eq_none_iff, frameLevels_length]
    omega
  rw [edges_level _ _ _ _ (by omega), hslot]
  exact lastLevel_frameLevels d o

/-- Settles O43: the trace gains the events of the initialisation, then the edges of the frame. -/
theorem txByteWaveformIsTheFrame : Obligations.TxByteWaveformIsTheFrame := by
  intro d s h
  obtain ⟨es, hinit, hes, hlevel⟩ := txInit_events s
  have htrace : (respond 0#16 (txByte d s)).trace =
      s.trace ++ (es ++ edges ((txInit s).out .tx) s.now (frameLevels d)) := by
    simp only [respond_keeps]
    rw [txByte_trace d h, hinit, List.append_assoc]
  have hnew : newTrace s (respond 0#16 (txByte d s)) =
      es ++ edges ((txInit s).out .tx) s.now (frameLevels d) := by
    rw [newTrace, htrace, List.drop_left]
  refine ⟨respond 0#16 (txByte d s), rfl, ⟨_, htrace.symm⟩, ?_, ?_, ?_⟩
  · rw [hnew]
    intro e he
    rcases List.mem_append.mp he with he | he
    · exact hes e he
    · exact (edges_time _ _ _ e he).2.2
  · intro n τ hn h1 h2
    rw [hnew, levelAt_append, hlevel τ (by omega)]
    exact levelAt_frame_slot d _ hn h1 h2
  · intro τ hτ
    rw [hnew, levelAt_append, hlevel τ (by omega)]
    exact levelAt_frame_end d _ hτ

end Sys2Proof.Machine
end

section
/-! SUPPORT. The encoding, both ways: the layout of each operand format, and what the opcode map and
its table of reserved bits say of an opcode (30_encoding.md R80 to R82, R92, R93, R97). -/

namespace Sys2Proof.Machine

/-! ### The operand formats -/

/-- The layout of an operand format (R81): `pack` puts the fields in their places, and `unpack` takes
them out of any operand, which drops the reserved bits `r` and no other. -/
structure Layout {α : Type} (r : Half) (pack : α → Half) (unpack : Half → α) : Prop where
  unpack_pack : ∀ x, unpack (pack x) = x
  pack_unpack : ∀ m, pack (unpack m) = m &&& ~~~r

section

variable {α : Type} {r : Half} {pack : α → Half} {unpack : Half → α}

/-- Packed fields set no reserved bit. -/
theorem Layout.reserved (h : Layout r pack unpack) (x : α) : pack x &&& r = 0#16 := by
  have hx := h.pack_unpack (pack x)
  rw [h.unpack_pack] at hx
  rw [hx, BitVec.and_assoc, BitVec.and_comm (~~~r), BitVec.and_not_self]
  exact BitVec.and_zero

/-- An operand with no reserved bit set is its fields packed again. -/
theorem Layout.pack_unpack_of_reserved (h : Layout r pack unpack) {m : Half}
    (hm : m &&& r = 0#16) : pack (unpack m) = m :=
  operand_eq (h.reserved _) hm fun k hk hr => by
    rw [h.pack_unpack, BitVec.getLsbD_and, BitVec.getLsbD_not, hr]
    simp [hk]

/-- A format takes out of packed fields what was put in. -/
theorem Layout.decode_pack (h : Layout r pack unpack) (d : α → Decoded) (x : α) :
    unlessReserved r (pack x) (d (unpack (pack x))) = d x := by
  rw [unlessReserved, if_pos (h.reserved x), h.unpack_pack]

end

/-- Format `N`. -/
theorem layoutN : Layout 0xFFFF#16 (fun _ : Unit => 0#16) (fun _ => ()) :=
  ⟨fun _ => rfl, fun _ => BitVec.and_zero.symm⟩

/-- Format `W16`. -/
theorem layoutW16 : Layout 0x0000#16 (fun w : Half => w) (fun m => m) :=
  ⟨fun _ => rfl, fun _ => BitVec.and_allOnes.symm⟩

/-- Format `B1`. -/
theorem layoutB1 :
    Layout 0xFFFE#16 (fun b => 0#15 ++ BitVec.ofBool b) (fun m => m.getLsbD 0) := by
  refine ⟨by decide, fun m => BitVec.eq_of_getLsbD_eq fun k hk => ?_⟩
  simp only [BitVec.getLsbD_append]
  interval_cases k <;> simp

/-- Format `B8`. -/
theorem layoutB8 :
    Layout 0xFF00#16 (fun d : Byte => 0#8 ++ d) (fun m => m.extractLsb' 0 8) := by
  refine ⟨fun d => BitVec.extractLsb'_append_eq_right,
    fun m => BitVec.eq_of_getLsbD_eq fun k hk => ?_⟩
  simp only [BitVec.getLsbD_append]
  interval_cases k <;> simp

/-- Format `P0`. -/
theorem layoutP0 :
    Layout 0xFEFF#16 (fun p => 0#7 ++ BitVec.ofBool (pinBit p) ++ 0#8)
      (fun m => pinOfBit (m.getLsbD 8)) := by
  refine ⟨fun p => by cases p <;> rfl, fun m => BitVec.eq_of_getLsbD_eq fun k hk => ?_⟩
  simp only [BitVec.getLsbD_append]
  interval_cases k <;> simp

/-- Format `P1`. -/
theorem layoutP1 :
    Layout 0xFEFE#16
      (fun x : Pin × Bool => 0#7 ++ BitVec.ofBool (pinBit x.1) ++ 0#7 ++ BitVec.ofBool x.2)
      (fun m => (pinOfBit (m.getLsbD 8), m.getLsbD 0)) := by
  refine ⟨fun ⟨p, v⟩ => by cases p <;> cases v <;> rfl,
    fun m => BitVec.eq_of_getLsbD_eq fun k hk => ?_⟩
  simp only [BitVec.getLsbD_append]
  interval_cases k <;> simp

/-- Format `I0`. -/
theorem layoutI0 :
    Layout 0xF0FF#16 (fun i : BitVec 4 => 0#4 ++ i ++ 0#8) (fun m => m.extractLsb' 8 4) := by
  refine ⟨fun i => ?_, fun m => BitVec.eq_of_getLsbD_eq fun k hk => ?_⟩
  · exact (BitVec.extractLsb'_append_eq_of_le (le_refl 8)).trans BitVec.extractLsb'_append_eq_right
  · simp only [BitVec.getLsbD_append]
    interval_cases k <;> simp

/-- Format `IX`. -/
theorem layoutIX :
    Layout 0xF000#16 (fun x : BitVec 4 × Byte => 0#4 ++ x.1 ++ x.2)
      (fun m => (m.extractLsb' 8 4, m.extractLsb' 0 8)) := by
  refine ⟨fun x => Prod.ext ?_ ?_, fun m => BitVec.eq_of_getLsbD_eq fun k hk => ?_⟩
  · exact (BitVec.extractLsb'_append_eq_of_le (le_refl 8)).trans BitVec.extractLsb'_append_eq_right
  · exact BitVec.extractLsb'_append_eq_right
  · simp only [BitVec.getLsbD_append]
    interval_cases k <;> simp

/-- Format `R`. -/
theorem layoutR :
    Layout 0xFFF8#16 (fun r => 0#13 ++ regNum r) (fun m => regOfNum (m.extractLsb' 0 3)) := by
  refine ⟨fun r => by cases r <;> rfl, fun m => BitVec.eq_of_getLsbD_eq fun k hk => ?_⟩
  simp only [BitVec.getLsbD_append, regNum_regOfNum]
  interval_cases k <;> simp

/-! ### From a command to its word and back -/

/-- A well-formed index passes its check (R51). -/
theorem checkIndex_of_ok {k : BitVec 4} (h : indexOk k = true) (i : Instr) :
    checkIndex k i = .ok i := by
  rw [checkIndex, if_pos h]

/-- The opcode map sends the fields of a well-formed command to that command (R82). -/
theorem decodeFields_of_wf {i : Instr} (h : i.wf = true) :
    decodeFields (opcodeOf i) (operandOf i) = .ok i := by
  cases i with
  | nop => exact layoutN.decode_pack (fun _ => .ok .nop) ()
  | getReg r => exact layoutR.decode_pack (fun r => .ok (.getReg r)) r
  | setIe b => exact layoutB1.decode_pack (fun b => .ok (.setIe b)) b
  | ldDir p v => exact layoutP1.decode_pack (fun x => .ok (.ldDir x.1 x.2)) (p, v)
  | ldWrite p v => exact layoutP1.decode_pack (fun x => .ok (.ldWrite x.1 x.2)) (p, v)
  | ldRead p => exact layoutP0.decode_pack (fun p => .ok (.ldRead p)) p
  | owReset => exact layoutN.decode_pack (fun _ => .ok .owReset) ()
  | owBit b => exact layoutB1.decode_pack (fun b => .ok (.owBit b)) b
  | owByte d => exact layoutB8.decode_pack (fun d => .ok (.owByte d)) d
  | crcClr => exact layoutN.decode_pack (fun _ => .ok .crcClr) ()
  | crcByte d => exact layoutB8.decode_pack (fun d => .ok (.crcByte d)) d
  | crcChk => exact layoutN.decode_pack (fun _ => .ok .crcChk) ()
  | dsRead => exact layoutN.decode_pack (fun _ => .ok .dsRead) ()
  | dsDecode => exact layoutN.decode_pack (fun _ => .ok .dsDecode) ()
  | spWr k d =>
    exact (layoutIX.decode_pack (fun x => checkIndex x.1 (.spWr x.1 x.2)) (k, d)).trans
      (checkIndex_of_ok h _)
  | spRd k =>
    exact (layoutI0.decode_pack (fun k => checkIndex k (.spRd k)) k).trans (checkIndex_of_ok h _)
  | txInit => exact layoutN.decode_pack (fun _ => .ok .txInit) ()
  | txByte d => exact layoutB8.decode_pack (fun d => .ok (.txByte d)) d
  | txDec w => rfl

/-- Settles O1, format by format: what is packed is taken out again. -/
theorem decodeOfEncodeIsTheCommand : Obligations.DecodeOfEncodeIsTheCommand := by
  intro i h
  rw [encode, decode_append]
  exact decodeFields_of_wf h

/-! ### The opcode map, opcode by opcode -/

/-- The command itself, or the name of the one check its field widths do not make (R51). -/
def checked (i : Instr) : Decoded := if i.wf then .ok i else .malformed .indexRange

/-- What the opcode map and the table of reserved bits say of the opcode `o`: that it is reserved, or
that it stands for commands of one format, each with its word (R82, R93). -/
inductive OpcodeRow (o : Byte) : Prop where
  | reserved (mask : reservedMask o = none)
      (decodes : ∀ m, decodeFields o m = .malformed .reservedOpcode)
  | command {α : Type} {r : Half} {pack : α → Half} {unpack : Half → α}
      (layout : Layout r pack unpack) (command : α → Instr)
      (mask : reservedMask o = some r)
      (decodes : ∀ m, decodeFields o m = unlessReserved r m (checked (command (unpack m))))
      (encodes : ∀ x, encode (command x) = o ++ pack x)

/-- An opcode with no reserved bits of its own is a reserved one (R93). -/
theorem decodeFields_of_unlisted {o : Byte} (h : reservedMask o = none) (m : Half) :
    decodeFields o m = .malformed .reservedOpcode := by
  unfold decodeFields
  split
  case h_20 => rfl
  all_goals
    next ho =>
      rw [← BitVec.setWidth_eq o, ← BitVec.ofNat_toNat, ho] at h
      cases h

/-- A format with no reserved bit refuses no operand. -/
theorem unlessReserved_none (m : Half) (d : Decoded) : unlessReserved 0x0000#16 m d = d := by
  rw [unlessReserved, if_pos BitVec.and_zero]

/-- Every opcode has its row, in the order of `reservedMask`. -/
theorem opcodeRow (o : Byte) : OpcodeRow o := by
  cases hmask : reservedMask o with
  | none => exact .reserved hmask (decodeFields_of_unlisted hmask)
  | some r =>
    unfold reservedMask at hmask
    split at hmask
    · exact .command layoutN (fun _ => .nop) rfl (fun _ => rfl) (fun _ => rfl)
    · exact .command layoutN (fun _ => .owReset) rfl (fun _ => rfl) (fun _ => rfl)
    · exact .command layoutN (fun _ => .crcClr) rfl (fun _ => rfl) (fun _ => rfl)
    · exact .command layoutN (fun _ => .crcChk) rfl (fun _ => rfl) (fun _ => rfl)
    · exact .command layoutN (fun _ => .dsRead) rfl (fun _ => rfl) (fun _ => rfl)
    · exact .command layoutN (fun _ => .dsDecode) rfl (fun _ => rfl) (fun _ => rfl)
    · exact .command layoutN (fun _ => .txInit) rfl (fun _ => rfl) (fun _ => rfl)
    · exact .command layoutB1 .setIe rfl (fun _ => rfl) (fun _ => rfl)
    · exact .command layoutB1 .owBit rfl (fun _ => rfl) (fun _ => rfl)
    · exact .command layoutB8 .owByte rfl (fun _ => rfl) (fun _ => rfl)
    · exact .command layoutB8 .crcByte rfl (fun _ => rfl) (fun _ => rfl)
    · exact .command layoutB8 .txByte rfl (fun _ => rfl) (fun _ => rfl)
    · exact .command layoutP0 .ldRead rfl (fun _ => rfl) (fun _ => rfl)
    · exact .command layoutP1 (fun x => .ldDir x.1 x.2) rfl (fun _ => rfl) (fun _ => rfl)
    · exact .command layoutP1 (fun x => .ldWrite x.1 x.2) rfl (fun _ => rfl) (fun _ => rfl)
    · exact .command layoutI0 .spRd rfl (fun _ => rfl) (fun _ => rfl)
    · exact .command layoutIX (fun x => .spWr x.1 x.2) rfl (fun _ => rfl) (fun _ => rfl)
    · exact .command layoutR .getReg rfl (fun _ => rfl) (fun _ => rfl)
    · exact .command layoutW16 .txDec rfl (fun m => (unlessReserved_none m _).symm) (fun _ => rfl)
    · cases hmask

/-! ### Which words decode -/

/-- A row accepts its command only with no reserved bit set and an index in range (R92). -/
theorem unlessReserved_checked_ok {r m : Half} {j i : Instr}
    (h : unlessReserved r m (checked j) = .ok i) : m &&& r = 0#16 ∧ j.wf = true ∧ j = i := by
  obtain ⟨hm, hj⟩ := unlessReserved_ok h
  unfold checked at hj
  split at hj
  · exact ⟨hm, ‹_›, Decoded.ok.inj hj⟩
  · cases hj

/-- It refuses in every other case. -/
theorem unlessReserved_checked_malformed {r m : Half} {j : Instr} :
    (∃ why, unlessReserved r m (checked j) = .malformed why) ↔ m &&& r ≠ 0#16 ∨ j.wf = false := by
  by_cases hm : m &&& r = 0#16
  · cases hj : j.wf <;> simp [unlessReserved, checked, hm, hj]
  · simp [unlessReserved, hm]

/-- Settles O2: a row decodes to its commands only, and their words have the operand it took apart. -/
theorem decodedWordIsItsEncoding : Obligations.DecodedWordIsItsEncoding := by
  intro w i h
  rw [decode] at h
  cases opcodeRow (w.extractLsb' 16 8) with
  | reserved mask decodes => exact nomatch (decodes _).symm.trans h
  | command layout command mask decodes encodes =>
    rw [decodes] at h
    obtain ⟨hm, hwf, rfl⟩ := unlessReserved_checked_ok h
    refine ⟨hwf, ?_⟩
    rw [encodes, layout.pack_unpack_of_reserved hm, append_extract]

/-- The bits of a word that hold an index are those of its operand. -/
theorem extract_index (w : Word) : (w.extractLsb' 0 16).extractLsb' 8 4 = w.extractLsb' 8 4 := by
  ext k hk
  simp only [BitVec.getElem_extractLsb', BitVec.getLsbD_extractLsb', Nat.zero_add]
  simp [show 8 + k < 16 by omega]

/-- A command is ill-formed exactly when its word has an index, and that exceeds 8 (R51, R92). -/
theorem wf_eq_false_iff (i : Instr) :
    i.wf = false ↔
      ((encode i).extractLsb' 16 8 = 0x42#8 ∨ (encode i).extractLsb' 16 8 = 0x43#8) ∧
        8 < ((encode i).extractLsb' 8 4).toNat := by
  rw [← extract_index, encode, extract_opcode, extract_operand]
  cases i with
  | spWr k d =>
    have hk : (operandOf (.spWr k d)).extractLsb' 8 4 = k :=
      congrArg Prod.fst (layoutIX.unpack_pack (k, d))
    simp [Instr.wf, indexOk, opcodeOf, hk]
  | spRd k =>
    have hk : (operandOf (.spRd k)).extractLsb' 8 4 = k := layoutI0.unpack_pack k
    simp [Instr.wf, indexOk, opcodeOf, hk]
  | _ => simp [Instr.wf, opcodeOf]

/-- The decoder refuses exactly the malformed words (R92). -/
theorem decode_malformed_iff (w : Word) : (∃ why, decode w = .malformed why) ↔ IsMalformed w := by
  rw [decode, IsMalformed]
  cases opcodeRow (w.extractLsb' 16 8) with
  | reserved mask decodes =>
    rw [decodes, mask]
    exact ⟨fun _ => trivial, fun _ => ⟨_, rfl⟩⟩
  | command layout command mask decodes encodes =>
    rw [decodes, mask, unlessReserved_checked_malformed, wf_eq_false_iff]
    refine or_congr_right' fun hm => ?_
    rw [encodes, layout.pack_unpack_of_reserved (not_not.mp hm), append_extract]

/-! ### What a malformed word does -/

/-- An accepted word that the decoder refuses has the effect of a malformed one (R92). -/
theorem runLatched_accept_malformed {o : Offer} {why : Malformed}
    (hd : decode o.word = .malformed why) (rest : List Offer) (s : State) :
    runLatched (accept o rest s) = .next (malformed (accept o rest s)) := by
  have h : decodeFields (accept o rest s).opc (accept o rest s).arg = .malformed why := hd
  rw [runLatched, h]

/-- Settles O6: the words by the rows of the opcode map, the effect by the end of an operation that
takes no time. -/
theorem malformedCommandSetsErrAndNothingElse :
    Obligations.MalformedCommandSetsErrAndNothingElse := by
  refine ⟨decode_malformed_iff, ?_⟩
  intro s o rest ho hr hb hw n
  obtain ⟨why, hd⟩ := (decode_malformed_iff o.word).mpr hw
  have hplan : plan s = .command o rest := plan_of_offer ho hb (by simp [hr])
  rw [step_command_next hplan (runLatched_accept_malformed hd rest s),
    settle_of_in_time _ (by simp [malformed, accept, hr])]
  simp [complete, malformed, accept, acceptInstant, n, hb]

/-! ### Words and pseudo-instructions of the spec -/

/-- Settles O3: fifteen closed evaluations of the decoder. -/
theorem writtenOutWordsDecode : Obligations.WrittenOutWordsDecode := by
  unfold Obligations.WrittenOutWordsDecode
  decide

/-- Settles O4: every expansion is a row of `expand`. -/
theorem pseudoInstructionsExpand : Obligations.PseudoInstructionsExpand :=
  ⟨fun _ => rfl, rfl, fun _ => rfl, rfl, rfl, fun _ => rfl, rfl⟩

end Sys2Proof.Machine
end

section
/-! SUPPORT. A temperature read as its step table in order (43_ds18b20.md R151 to R158). -/

namespace Sys2Proof.Machine

/-- A `wait` writes time, `DLY` and the jitter draws alone (R66). -/
theorem wait_frame (d : BitVec 20) (s : State) :
    { withRunOf s (wait d s) with dly := s.dly } = s := by
  simp [withRunOf]

/-- Step 8 leaves the parameters alone. -/
theorem scratchBytes_params (n : Nat) (s : State) : (scratchBytes 0 n s).params = s.params := by
  induction n with
  | zero => rfl
  | succ n ih => simp [scratchBytes_succ, scratchTurn, ih]

/-- The three resets of a read, its transfers and its check leave the parameters alone. -/
theorem crcCheck_bufferFull_params (s : State) :
    (crcCheck (owReset (bufferFull (secondReset (owReset s))))).params = s.params := by
  simp [bufferFull, scratchBytes_params, secondReset]

/-- After step 8 and the third reset all nine bytes hold a value. -/
theorem bufferFull_written (q : State) :
    ∀ i, i < 9 → readByte (owReset (bufferFull q)).sp i ≠ none := by
  have hsp : (owReset (bufferFull q)).sp = (bufferFull q).sp := by simp
  rw [hsp]
  exact scratchBytes_written 9 _

/-- `CRC_CHK` on nine written bytes. -/
theorem exec_crcChk_written {s : State} (h : ∀ i, i < 9 → readByte s.sp i ≠ none) :
    exec .crcChk s = .next (respond (bitResponse (crcCheck s).crcok) (crcCheck s)) := by
  have hw : firstUnwritten s.sp (List.range Config.spLen) = none :=
    (firstUnwritten_none _ _).mpr fun i hi => h i (List.mem_range.mp hi)
  simp only [exec, execCrcChk, hw]

/-- `DS_DECODE` on a buffer whose first two bytes are written. -/
theorem exec_dsDecode_of_written {s : State} (h : ∀ i, i < 2 → readByte s.sp i ≠ none) :
    exec .dsDecode s = .next (respond (intResponse (celsius s.params.roundBias (decodeRaw s).raw))
      (decodeRaw s)) := by
  have hw : firstUnwritten s.sp [0, 1] = none := by
    rw [firstUnwritten_none]
    intro i hi
    simp only [List.mem_cons, List.not_mem_nil, or_false] at hi
    exact h i (by omega)
  simp only [exec, execDsDecode, hw]

/-- What `OW_RESET` runs and answers (R123). -/
theorem exec_owReset (s : State) :
    exec .owReset s = .next (respond (presResponse (owReset s).pres) (owReset s)) := rfl

/-- `DS_READ` where the read ends in `u` with the value `t` (R153). -/
theorem exec_dsRead_of_end {s u : State} {t : Int} (h : dsRead s = dsEnd t u) :
    exec .dsRead s = .next { u with res := intResponse t, seq := 0#4 } :=
  congrArg Host.Outcome.next h

/-- `DS_READ` where the read ends with the sentinel (R154, R156). -/
theorem exec_dsRead_sentinel {s u : State} (h : dsRead s = dsEnd Config.sentinel u) :
    exec .dsRead s = .next { u with res := 0xFEEF#16, seq := 0#4 } :=
  exec_dsRead_of_end h

/-- Settles O55: the order of the procedures is `dsRead_sequence`; the check meets nine written bytes,
so it ends, and so does the decode after it. -/
theorem dsReadRunsTheStepTable : Obligations.DsReadRunsTheStepTable := by
  refine ⟨fun u => ?_, fun d u => ?_, fun u => ?_, ?_⟩
  · rw [exec_owReset]
    cases (owReset u).pres <;> rfl
  · rw [← byteResponse_eq]
    rfl
  · exact ⟨wait_now_le 750000#20 u, fun h => wait_now_of_ie_false h 750000#20, by simp,
      wait_frame _ u, by simp, by simp⟩
  · intro s ends r1 r2 full r3
    have hfull : full = bufferFull r2 := by
      rw [bufferFull, scratchBytes, ← List.range_eq_range']
      rfl
    have hwritten : ∀ i, i < 9 → readByte r3.sp i ≠ none := by
      rw [show r3 = owReset (bufferFull r2) from congrArg owReset hfull]
      exact bufferFull_written r2
    obtain ⟨first, second, checked⟩ := dsRead_sequence s
    refine ⟨fun h => exec_dsRead_sentinel (first h),
      fun h1 ha h2 => exec_dsRead_sentinel (second h1 ha h2),
      fun h1 hgo => ⟨_, exec_crcChk_written hwritten, ?_⟩⟩
    obtain ⟨failed, passed⟩ := checked h1 hgo
    have hk : crcCheck (owReset (bufferFull (secondReset (owReset s)))) = crcCheck r3 :=
      congrArg (fun u => crcCheck (owReset u)) hfull.symm
    have hparams := crcCheck_bufferFull_params s
    rw [hk] at failed passed hparams
    have hsp : (crcCheck r3).sp = r3.sp := by simp
    have hfirst : ∀ i, i < 2 → readByte (crcCheck r3).sp i ≠ none := by
      rw [hsp]
      exact fun i hi => hwritten i (by omega)
    generalize crcCheck r3 = k at *
    refine ⟨fun hc => exec_dsRead_sentinel (failed hc),
      fun hc => ⟨_, exec_dsDecode_of_written hfirst, ?_⟩⟩
    rw [← hparams] at passed
    exact exec_dsRead_of_end (passed hc)

end Sys2Proof.Machine
end

section
/-! SUPPORT. The line driver: one direction, one latch, one sample (40_line_driver.md R111 to R113,
20_memory.md R60, R61). -/

namespace Sys2Proof.Machine

/-! ### Their words -/

/-- A format with one pin allows no other bit (R81). -/
theorem formatP0_eq (m : Half) (f : Pin → Instr) :
    formatP0 m f =
      if m &&& 0xFEFF#16 = 0#16 then .ok (f (pinOfBit (m.getLsbD 8)))
      else .malformed .reservedBits := by
  rw [formatP0, unlessReserved]

/-- A format with one pin and one level allows no other bit (R81). -/
theorem formatP1_eq (m : Half) (f : Pin → Bool → Instr) :
    formatP1 m f =
      if m &&& 0xFEFE#16 = 0#16 then .ok (f (pinOfBit (m.getLsbD 8)) (m.getLsbD 0))
      else .malformed .reservedBits := by
  rw [formatP1, unlessReserved]

/-! ### Writes -/

/-- The direction written is the one read back (R22). -/
theorem setDir_dir_same (p : Pin) (v : Bool) (s : State) : (setDir p v s).dir p = v := by
  cases p <;> simp [State.dir]

/-- The latch written is the one read back (R22). -/
theorem setLat_lat_same (p : Pin) (v : Bool) (s : State) : (setLat p v s).lat p = v := by
  cases p <;> simp [State.lat]

/-- A response touches no pin. -/
@[simp] theorem respond_pin (p : Pin) (v : Half) (s : State) :
    (respond v s).dir p = s.dir p ∧ (respond v s).lat p = s.lat p := by
  cases p <;> exact ⟨rfl, rfl⟩

/-- Settles O14: the event by `setDir_trace`, the rest by what `setDir` keeps. -/
theorem ldDirSetsOneDirection : Obligations.LdDirSetsOneDirection := by
  refine ⟨fun imm => ?_, fun p v s => ⟨respond 0#16 (setDir p v s), rfl, ?_, rfl, ?_, ?_, ?_⟩⟩
  · rw [decode_append]
    exact formatP1_eq imm .ldDir
  · rw [(respond_pin p _ _).1, setDir_dir_same]
  · exact setDir_trace p v s
  · rintro rfl
    simp
  · rintro rfl
    simp

/-- Settles O15: the event by `setLat_trace`, the rest by what `setLat` keeps. -/
theorem ldWriteSetsOneLatch : Obligations.LdWriteSetsOneLatch := by
  refine ⟨fun imm => ?_, fun p v s => ⟨respond 0#16 (setLat p v s), rfl, ?_, rfl, ?_, ?_, ?_⟩⟩
  · rw [decode_append]
    exact formatP1_eq imm .ldWrite
  · rw [(respond_pin p _ _).2, setLat_lat_same]
  · exact setLat_trace p v s
  · rintro rfl
    simp
  · rintro rfl
    simp

/-! ### Reads -/

/-- Only a pin driven high can be in contention (R73). -/
theorem driven_high_of_contended {p : Pin} {s : State} (h : contended p s = true) :
    s.dir p = true ∧ s.lat p = true := by
  cases p with
  | ow =>
    simp only [contended, Bool.and_eq_true] at h
    exact h.1
  | tx => cases h

/-- An undriven pin is not in contention. -/
theorem contended_of_undriven {p : Pin} {s : State} (h : s.dir p = false) :
    contended p s = false :=
  Bool.eq_false_iff.mpr fun hc => Bool.eq_false_iff.mp h (driven_high_of_contended hc).1

/-- A pin whose latch is low is not in contention. -/
theorem contended_of_lat_low {p : Pin} {s : State} (h : s.lat p = false) :
    contended p s = false :=
  Bool.eq_false_iff.mpr fun hc => Bool.eq_false_iff.mp h (driven_high_of_contended hc).2

/-- Out of contention `LD_READ` answers what it samples (R113). -/
theorem exec_ldRead_sampled {p : Pin} {s : State} (hc : contended p s = false) :
    exec (.ldRead p) s = .next (respond (bitResponse (sample p s).1) (sample p s).2) := by
  simp [exec, execLdRead, hc]

/-- A sample of a pin driven low reads low and records itself, whatever the environment does (R61). -/
theorem sample_driven_low {p : Pin} {s : State} (hd : s.dir p = true) (hl : s.lat p = false) :
    sample p s = (false, { s with trace := s.trace ++ [.sample s.now p false false] }) := by
  simp [sample, hd, hl]

/-- Settles O16: an undriven pin by `sample_level` and `sample_answer`, a pin driven low by
`sample_driven_low`, one driven high by `exec_ldRead_driven_high`. -/
theorem ldReadAnswersTheLevel : Obligations.LdReadAnswersTheLevel := by
  refine ⟨fun imm => ?_, fun p s hd => ?_, fun p s hd hl => ?_,
    fun p s hd hl hc => exec_ldRead_driven_high hd hl hc⟩
  · rw [decode_append]
    exact formatP0_eq imm .ldRead
  · refine ⟨_, (sample p s).1, exec_ldRead_sampled (contended_of_undriven hd), rfl, ?_, ?_, ?_, ?_⟩
    · exact (sample_trace p s).trans (by rw [hd]; rfl)
    · rintro l rfl he
      obtain ⟨hv, henv, -⟩ := sample_level hd he
      exact ⟨hv, henv.trans he.symm⟩
    · rintro l rest rfl he
      obtain ⟨hv, henv, -⟩ := sample_answer hd he
      exact ⟨hv, henv⟩
    · simp
  · rw [exec_ldRead_sampled (contended_of_lat_low hl), sample_driven_low hd hl]
    rfl

end Sys2Proof.Machine
end

section
/-! SUPPORT. The commands of the OneWire bus master: the reset sequence, the bit slot, the byte
transfer (41_onewire.md R121 to R133). -/

namespace Sys2Proof.Machine

/-! ### Reset -/

/-- What a presence sample that reads `v` makes of the response: high means no device (R98, R124). -/
theorem presResponse_sampled (v : Bool) :
    presResponse (if v then .noDevice else .present) = if v then 0#16 else 1#16 := by
  cases v <;> rfl

/-- Settles O18: the end state by `owReset_sets`, the frame by `owReset_keeps`. -/
theorem owResetEndsReleasedOnEveryPath : Obligations.OwResetEndsReleasedOnEveryPath := by
  refine ⟨fun imm => ?_, fun s => ⟨_, exec_owReset s, ?_⟩⟩
  · rw [decode_append]
    exact formatN_eq imm .owReset
  · obtain ⟨hdir, hlat, -, hdly⟩ := owReset_sets s
    refine ⟨hdir, hlat, hdly, ?_, by simp [withRunOf]⟩
    simp only [respond_res, respond_keeps]
    cases (owReset s).pres <;> rfl

/-- Settles O19: the two paths are `owReset_paths`, what comes before the samples `resetStart_trace`. -/
theorem owResetTakesOneOfTwoPaths : Obligations.OwResetTakesOneOfTwoPaths := by
  intro s
  obtain ⟨hdir, hlat, -, -⟩ := owReset_sets s
  obtain ⟨us, t1, hfirst, hgaps, hlen, hpath⟩ := owReset_paths s
  rw [resetStart_trace] at hpath
  refine ⟨_, us, t1, exec_owReset s, hdir, hlat, hfirst, hgaps, hlen,
    (polls_last us hfirst hgaps).1, ?_⟩
  rcases hpath with ⟨hpres, hall, hnow, hretry, hports, htrace⟩ |
    ⟨v, hpres, hretry, hnow, hexact, hports, htrace⟩
  · exact .inl ⟨hall, htrace, hnow, hports, hpres, by rw [respond_res, hpres]; rfl, hretry⟩
  · exact .inr ⟨v, htrace, hnow, hexact, hports, hpres,
      by rw [respond_res, hpres, presResponse_sampled], hretry⟩

/-- Settles O20: a line that rises by `owReset_rises`, one that stays low for the whole budget by
`owReset_stuck`, a line at one level by `owReset_level_high` and `owReset_level_low`. -/
theorem owResetFollowsTheAnswers : Obligations.OwResetFollowsTheAnswers := by
  refine ⟨fun s k v rest hk he => ?_, fun s rest he => ?_,
    fun s he => ?_, fun s he => ?_⟩ <;> refine ⟨_, exec_owReset s, ?_⟩
  · obtain ⟨t1, lows, hrise, hnow, hexact, -, -, -, -, hpres, hretry, henv⟩ :=
      owReset_rises k hk v rest he
    refine ⟨hpres, by rw [respond_res, hpres, presResponse_sampled], hretry, henv,
      (Nat.add_le_add_right hrise 960).trans hnow, fun hie => ?_⟩
    obtain ⟨ht1, hend⟩ := hexact hie
    exact ht1 ▸ hend
  · obtain ⟨lows, hpres, hretry, henv, hnow, hexact, -⟩ := owReset_stuck rest he
    exact ⟨hpres, by rw [respond_res, hpres]; rfl, hretry, henv, hnow, hexact⟩
  · obtain ⟨hpres, henv⟩ := owReset_level_high he
    exact ⟨hpres, henv.trans he.symm⟩
  · obtain ⟨hpres, henv⟩ := owReset_level_low he
    exact ⟨hpres, henv.trans he.symm⟩

/-! ### One slot -/

/-- A format with one bit allows no other bit (R81). -/
theorem formatB1_eq (m : Half) (f : Bool → Instr) :
    formatB1 m f =
      if m &&& 0xFFFE#16 = 0#16 then .ok (f (m.getLsbD 0)) else .malformed .reservedBits := by
  rw [formatB1, unlessReserved]

/-- What `OW_BIT` runs and answers (R128). -/
theorem exec_owBit (b : Bool) (s : State) :
    exec (.owBit b) s = .next (respond (bitResponse (owBit b s).1) (owBit b s).2) := rfl

/-- Settles O21: the events by `owBit_trace`, the sample by what the line answers. -/
theorem owBitRunsOneSlot : Obligations.OwBitRunsOneSlot := by
  refine ⟨fun imm => ?_, fun b s => ⟨_, (owBit b s).1, exec_owBit b s, rfl, ?_⟩⟩
  · rw [decode_append]
    exact formatB1_eq imm .owBit
  · obtain ⟨hdir, hlat, -, hdly⟩ := owBit_sets b s
    simp only [respond_keeps]
    refine ⟨?_, ?_, ?_, ?_, owBit_ports b s, owBit_now_le b s, fun hie => owBit_now hie b,
      hdir, hlat, hdly, by simp [withRunOf]⟩
    · rintro rfl
      exact owBit_low s
    · rintro l rfl he
      obtain ⟨hv, henv⟩ := owBit_level he
      exact ⟨hv, henv.trans he.symm⟩
    · rintro l rest rfl he
      exact owBit_answer he
    · refine (owBit_trace b s).trans ?_
      cases b with
      | false => rw [(owBit_low s).1]
      | true => rfl

/-! ### One byte -/

/-- What `OW_BYTE` runs and answers (R132). -/
theorem exec_owByte (d : Byte) (s : State) :
    exec (.owByte d) s = .next (respond ((owByte d s).rx.setWidth 16) (owByte d s)) := by
  rw [← byteResponse_eq]
  rfl

/-- Settles O22: the registers by `owByte_reads` and `owByte_sets`, the frame by `owByte_keeps`. -/
theorem owByteCompletesOnEveryLine : Obligations.OwByteCompletesOnEveryLine := by
  intro d s
  obtain ⟨hrx, hsr, hbitcnt⟩ := owByte_reads d s
  obtain ⟨hdir, hlat, -, hdly⟩ := owByte_sets d s
  exact ⟨_, exec_owByte d s, rfl, hrx, hsr, hbitcnt, owByte_now_le d s,
    fun hie => owByte_now hie d, hdir, hlat, hdly, by simp [withRunOf]⟩

/-- The slots of a byte leave the registers of the byte and the response alone. -/
theorem beforeSlot_keeps (d : Byte) (s : State) (k : Nat) :
    (beforeSlot d s k).sr = s.sr ∧ (beforeSlot d s k).rx = s.rx ∧
    (beforeSlot d s k).bitcnt = s.bitcnt ∧ (beforeSlot d s k).res = s.res := by
  induction k with
  | zero => exact ⟨rfl, rfl, rfl, rfl⟩
  | succ k ih => simpa [beforeSlot_succ] using ih

/-- Beside the registers of the byte and the response, a transfer leaves what its slots leave. -/
theorem owByte_frame (d : Byte) (s : State) :
    { owByte d s with sr := s.sr, rx := s.rx, bitcnt := s.bitcnt, res := s.res } =
      beforeSlot d s 8 := by
  rw [(owByte_slots d s).1]
  obtain ⟨hsr, hrx, hbitcnt, hres⟩ := beforeSlot_keeps d s 8
  generalize beforeSlot d s 8 = u at *
  rw [← hsr, ← hrx, ← hbitcnt, ← hres]
  rfl

/-- Settles O23: the bits by `owByte_slots`, the rest by `owByte_frame`. -/
theorem owByteIsEightBitSlots : Obligations.OwByteIsEightBitSlots := by
  refine ⟨exec_owBit, fun d s => ?_⟩
  intro before
  obtain ⟨-, hsr, hbitcnt⟩ := owByte_reads d s
  exact ⟨_, exec_owByte d s, (owByte_slots d s).2, rfl, hsr, hbitcnt, owByte_frame d s⟩

/-- Settles O25: both lines are at one level for good. -/
theorem byteLoopsBackOnAFreeLine : Obligations.ByteLoopsBackOnAFreeLine := by
  refine fun d s => ⟨fun he => ⟨_, exec_owByte d s, ?_⟩, fun he => ⟨_, exec_owByte d s, ?_⟩⟩
  · rw [respond_res, (owByte_level d he).1, if_pos rfl]
  · rw [respond_res, (owByte_level d he).1]
    rfl

end Sys2Proof.Machine
end

section
/-! SUPPORT. The CRC8 checker: what one bit and one byte make of the accumulator, that the update is
linear and one to one, and the three commands (42_crc8.md R141 to R147). -/

namespace Sys2Proof.Machine

/-! ### The update -/

/-- One bit of the update as R141 writes it. -/
theorem crcStep_eq (c d : Byte) :
    crcStep c d = if c.getLsbD 0 = d.getLsbD 0 then c >>> 1 else (c >>> 1) ^^^ 0x8C#8 := by
  unfold crcStep
  cases c.getLsbD 0 <;> cases d.getLsbD 0 <;> rfl

/-- The update takes the bits of the byte in order, the least significant first. -/
theorem crcBits_eq_foldl (n : Nat) (c d : Byte) :
    crcBits n c d = (List.range n).foldl (fun a k => crcStep a (d >>> k)) c := by
  induction n generalizing c d with
  | zero => rfl
  | succ n ih =>
    have hshift : ∀ k, d >>> 1 >>> k = d >>> (k + 1) := fun k => by
      rw [Nat.add_comm, BitVec.shiftRight_add]
    simp only [crcBits, ih, hshift, List.range_succ_eq_map, List.foldl_cons, List.foldl_map,
      BitVec.ushiftRight_zero, Nat.succ_eq_add_one]

/-- Equal bits never mix in the polynomial: a byte folded into itself is shifted out. -/
theorem crcBits_self (n : Nat) (d : Byte) : crcBits n d d = d >>> n := by
  induction n generalizing d with
  | zero => exact (BitVec.ushiftRight_zero d).symm
  | succ n ih =>
    rw [crcBits, crcStep_eq, if_pos rfl, ih, Nat.add_comm,
      BitVec.shiftRight_add]

/-- Folding a byte equal to the accumulator gives 0 (R143). -/
theorem crc8Update_self (d : Byte) : crc8Update d d = 0#8 := by
  rw [crc8Update, crcBits_self]
  exact BitVec.ushiftRight_eq_zero (le_refl 8)

/-- The update of one byte is linear over exclusive or (R147). -/
theorem crc8Update_xor (a b x y : Byte) :
    crc8Update (a ^^^ b) (x ^^^ y) = crc8Update a x ^^^ crc8Update b y :=
  crcBits_xor 8 a b x y

/-- The update depends on the exclusive or of accumulator and byte alone. -/
theorem crc8Update_eq_update_zero (c d : Byte) : crc8Update c d = crc8Update (c ^^^ d) 0#8 :=
  calc
    crc8Update c d = crc8Update c d ^^^ crc8Update d d := by
      rw [crc8Update_self, BitVec.xor_zero]
    _ = crc8Update (c ^^^ d) (d ^^^ d) := (crc8Update_xor c d d d).symm
    _ = crc8Update (c ^^^ d) 0#8 := by rw [BitVec.xor_self]

/-! ### The update is one to one -/

/-- No accumulator but 0 steps to 0 on a zero bit: the polynomial's top bit keeps the bit that the
shift drops. -/
theorem crcStep_zero_iff (c : Byte) : crcStep c 0#8 = 0#8 ↔ c = 0#8 := by
  rw [crcStep_eq, BitVec.getLsbD_zero]
  constructor
  · intro h
    split at h
    case isTrue hlow =>
      apply BitVec.eq_of_getLsbD_eq
      rintro (_ | k) -
      · exact hlow
      · have hk := congrArg (fun v : Byte => v.getLsbD k) h
        simpa [Nat.add_comm] using hk
    case isFalse hlow =>
      have htop := congrArg (fun v : Byte => v.getLsbD 7) h
      simp at htop
  · rintro rfl
    rfl

/-- No accumulator but 0 folds a zero byte to 0. -/
theorem crcBits_zero_iff (n : Nat) (c : Byte) : crcBits n c 0#8 = 0#8 ↔ c = 0#8 := by
  induction n generalizing c with
  | zero => exact Iff.rfl
  | succ n ih => rw [crcBits, BitVec.zero_ushiftRight, ih, crcStep_zero_iff]

/-- Two updates agree exactly if accumulator and byte differ alike. -/
theorem crc8Update_inj {a b x y : Byte} :
    crc8Update a x = crc8Update b y ↔ a ^^^ x = b ^^^ y := by
  have hsum : crc8Update a x ^^^ crc8Update b y = crc8Update ((a ^^^ x) ^^^ (b ^^^ y)) 0#8 := by
    rw [crc8Update_eq_update_zero a x, crc8Update_eq_update_zero b y, ← crc8Update_xor,
      BitVec.xor_zero]
  rw [← BitVec.xor_eq_zero_iff, hsum, crc8Update, crcBits_zero_iff, BitVec.xor_eq_zero_iff]

/-- Two accumulators that differ still differ after the same bytes. -/
theorem foldl_crc8Update_inj (m : List Byte) {a b : Byte} :
    m.foldl crc8Update a = m.foldl crc8Update b ↔ a = b := by
  induction m generalizing a b with
  | nil => exact Iff.rfl
  | cons c m ih => rw [List.foldl_cons, List.foldl_cons, ih, crc8Update_inj, BitVec.xor_left_inj]

/-- A change of one byte alone changes the CRC8 (R147). -/
theorem foldl_crc8Update_modify {f : Byte → Byte} (hf : ∀ b, f b ≠ b) {m : List Byte} {j : Nat}
    (hj : j < m.length) (a : Byte) :
    (m.modify j f).foldl crc8Update a ≠ m.foldl crc8Update a := by
  induction m generalizing j a with
  | nil => exact absurd hj (Nat.not_lt_zero j)
  | cons b m ih =>
    cases j with
    | zero =>
      rw [List.modify_zero_cons, List.foldl_cons, List.foldl_cons, Ne, foldl_crc8Update_inj,
        crc8Update_inj, BitVec.xor_right_inj]
      exact hf b
    | succ j => exact ih (Nat.lt_of_succ_lt_succ hj) (crc8Update a b)

/-- Flipping a bit of a byte changes it. -/
theorem xor_bit_ne {k : Nat} (hk : k < 8) (b : Byte) : b ^^^ (1#8 <<< k) ≠ b := by
  intro h
  have hbit := congrArg (fun v : Byte => v.getLsbD k) h
  simp [hk] at hbit

/-! ### The check -/

/-- `CRC_CHK` on a buffer that holds nine bytes (R145, R146). -/
theorem exec_crcChk_holds {s : State} {m : List Byte} {c : Byte} (hm : m.length = 8)
    (h : Holds s.sp (m ++ [c])) :
    exec .crcChk s = .next
      { s with
        crc := crcOf m, bytecnt := 8#4, crcok := decide (crcOf m = c)
        res := if crcOf m = c then 1#16 else 0#16 } := by
  have hlen : (m ++ [c]).length = 9 := by rw [List.length_append, hm]; rfl
  have hw : ∀ i, i < 9 → readByte s.sp i ≠ none := fun i hi => by
    rw [h i (hlen ▸ hi), List.getElem?_eq_getElem (hlen ▸ hi)]
    exact Option.some_ne_none _
  rw [exec_crcChk_written hw, crcCheck_eq hm h]
  simp only [bitResponse, decide_eq_true_eq]
  rfl

/-- A ninth byte that is not the CRC8 of the others fails the check. -/
theorem exec_crcChk_mismatch {s : State} {m : List Byte} {c : Byte} (hm : m.length = 8)
    (h : Holds s.sp (m ++ [c])) (hc : crcOf m ≠ c) :
    ∃ t, exec .crcChk s = .next t ∧ t.crcok = false ∧ t.res = 0#16 :=
  ⟨_, exec_crcChk_holds hm h, decide_eq_false hc, if_neg hc⟩

/-! ### The obligations -/

/-- Settles O26. -/
theorem crcClrClearsTheAccumulator : Obligations.CrcClrClearsTheAccumulator := by
  refine ⟨fun imm => ?_, fun s => rfl⟩
  rw [decode_append]
  exact formatN_eq imm .crcClr

/-- Settles O27. -/
theorem crcByteFoldsOneByte : Obligations.CrcByteFoldsOneByte := by
  refine ⟨fun imm => ?_, fun d s => ?_⟩
  · rw [decode_append]
    exact formatB8_eq imm .crcByte
  · rw [← byteResponse_eq]
    rfl

/-- Settles O28: bit `k` of the byte is the low bit of what `k` shifts leave of it. -/
theorem crcUpdateFoldsEightBits : Obligations.CrcUpdateFoldsEightBits := by
  refine ⟨fun c d => ?_, by decide +kernel⟩
  rw [crc8Update, crcBits_eq_foldl]
  simp only [crcStep_eq, BitVec.getLsbD_ushiftRight, Nat.add_zero]

/-- Settles O29: linearity, and a byte folded into itself. -/
theorem crcUpdateIsLinear : Obligations.CrcUpdateIsLinear := by
  refine ⟨crc8Update_xor, crc8Update_eq_update_zero, fun s => ?_⟩
  exact ⟨_, crcByteFoldsOneByte.2 s.crc s, crc8Update_self s.crc, by rw [crc8Update_self]; rfl⟩

/-- Settles O30: the written buffer by `exec_crcChk_holds`, the stop as in O32. -/
theorem crcChkComparesWithTheNinthByte : Obligations.CrcChkComparesWithTheNinthByte := by
  obtain ⟨-, hstop, -⟩ := unwrittenByteStopsItsReader
  refine ⟨fun imm => ?_, fun s m c => exec_crcChk_holds, hstop⟩
  rw [decode_append]
  exact formatN_eq imm .crcChk

/-- Settles O31: a change among the eight bytes changes their CRC8, and the ninth is compared with
it. -/
theorem singleBitErrorFailsTheCheck : Obligations.SingleBitErrorFailsTheCheck := by
  refine fun s m hm => ⟨fun j k hj hk h => ?_, fun c hc h => exec_crcChk_mismatch hm h hc.symm⟩
  have hlen : (m.modify j (fun b => b ^^^ (1#8 <<< k))).length = 8 := by
    rw [List.length_modify, hm]
  exact exec_crcChk_mismatch hlen h (foldl_crc8Update_modify (xor_bit_ne hk) (hm ▸ hj) 0x00#8)

end Sys2Proof.Machine
end

section
/-! SUPPORT. The commands beside the temperature read: which raw codes decode to the sentinel, and
the store and load of one byte of `SP` (43_ds18b20.md R158 to R163, 20_memory.md R51). -/

namespace Sys2Proof.Machine

/-! ### The decode -/

/-- Within 16 bits only the sentinel answers `0xFEEF` (R84). -/
theorem intResponse_eq_sentinel {v : Int} (hlo : -2048 ≤ v) (hhi : v ≤ 2048) :
    BitVec.ofInt 16 v = 0xFEEF#16 ↔ v = Config.sentinel := by
  refine ⟨fun h => ?_, fun h => by rw [h]; rfl⟩
  have hv : (BitVec.ofInt 16 v).toInt = v :=
    BitVec.toInt_ofInt_eq_self (by decide) (by omega) (by omega)
  rw [← hv, h]
  rfl

/-- With the nominal bias the sentinel is the ceiling of a sixteenth of sixteen raw codes (R163). -/
theorem celsius_eq_sentinel (raw : Half) :
    celsius 15 raw = Config.sentinel ↔ -4383 ≤ raw.toInt ∧ raw.toInt ≤ -4368 := by
  rw [celsius, Config.sentinel]
  omega

/-- Settles O34: the response is the decode of the raw code, and the sentinel alone is `0xFEEF`. -/
theorem sentinelCollisionRange : Obligations.SentinelCollisionRange := by
  intro s t lo hi h0 h1 hb ht
  have hres : t.res = BitVec.ofInt 16 (celsius 15 (hi ++ lo)) := by
    rw [exec_dsDecode_written h0 h1, hb] at ht
    rw [← Host.Outcome.next.inj ht]
  obtain ⟨-, -, hlo, hhi⟩ := celsius_nominal rfl (hi ++ lo)
  rw [hres, intResponse_eq_sentinel hlo hhi, celsius_eq_sentinel]

/-! ### One byte of `SP` -/

/-- A format with an index: its reserved bits are looked at first, then its index (R81, R92). -/
theorem unlessReserved_checkIndex (r m : Half) (k : BitVec 4) (i : Instr) :
    unlessReserved r m (checkIndex k i) =
      if m &&& r ≠ 0#16 then .malformed .reservedBits
      else if k.toNat ≤ 8 then .ok i else .malformed .indexRange := by
  rw [unlessReserved, checkIndex, indexOk]
  simp only [decide_eq_true_eq, ite_not]

/-- An index up to 8 names a byte of `SP` (R51). -/
theorem indexOk_of_le {k : BitVec 4} (h : k.toNat ≤ 8) : indexOk k = true := decide_eq_true h

/-- An index above 8 names none. -/
theorem indexOk_of_gt {k : BitVec 4} (h : 8 < k.toNat) : indexOk k = false :=
  decide_eq_false (Nat.not_le.mpr h)

/-- A store of a byte of `SP` (R160). -/
theorem exec_spWr {k : BitVec 4} (h : k.toNat ≤ 8) (d : Byte) (s : State) :
    exec (.spWr k d) s = .next (respond 0#16 { s with sp := writeByte s.sp k.toNat d }) := by
  rw [exec, execSpWr, if_pos (indexOk_of_le h)]

/-- A store above index 8 does what a malformed word does. -/
theorem exec_spWr_malformed {k : BitVec 4} (h : 8 < k.toNat) (d : Byte) (s : State) :
    exec (.spWr k d) s = .next (malformed s) := by
  rw [exec, execSpWr, indexOk_of_gt h]
  rfl

/-- A load of a byte of `SP` that holds a value (R161). -/
theorem exec_spRd_written {k : BitVec 4} {d : Byte} {s : State} (h : k.toNat ≤ 8)
    (hd : readByte s.sp k.toNat = some d) :
    exec (.spRd k) s = .next (respond (byteResponse d) s) := by
  rw [exec, execSpRd, if_pos (indexOk_of_le h), hd]

/-- A load above index 8 does what a malformed word does. -/
theorem exec_spRd_malformed {k : BitVec 4} (h : 8 < k.toNat) (s : State) :
    exec (.spRd k) s = .next (malformed s) := by
  rw [exec, execSpRd, indexOk_of_gt h]
  rfl

/-- Settles O35: what the buffer then reads as is the law of `writeByte`. -/
theorem spWrStoresOneByte : Obligations.SpWrStoresOneByte := by
  refine ⟨fun imm => ?_, fun k d s hk => ⟨_, exec_spWr hk d s, ?_, fun a ha => ?_, rfl, rfl⟩,
    fun k d s hk => exec_spWr_malformed hk d s⟩
  · rw [decode_append]
    exact unlessReserved_checkIndex _ _ _ _
  · exact readByte_writeByte_same s.sp k.toNat d
  · exact readByte_writeByte_other s.sp d ha

/-- Settles O36: the stop as in O32. -/
theorem spRdLoadsOneByte : Obligations.SpRdLoadsOneByte := by
  refine ⟨fun imm => ?_, fun k d s hk hd => ?_, fun k s hk hd => exec_spRd_unwritten hk hd,
    fun k s hk => exec_spRd_malformed hk s⟩
  · rw [decode_append]
    exact unlessReserved_checkIndex _ _ _ _
  · rw [exec_spRd_written hk hd, byteResponse_eq]
    rfl

end Sys2Proof.Machine
end

section
/-! SUPPORT. The ways a temperature read ends early or reads a dead line: a first reset or a second
one that finds no device (43_ds18b20.md R153 to R156, 70_reset_and_hazards.md R211, R245). -/

namespace Sys2Proof.Machine

/-! ### Every path, and the first reset -/

/-- Settles O38: the end state by `dsRead_sets`, the frame by `dsRead_keeps`. -/
theorem dsReadCompletesOnEveryPath : Obligations.DsReadCompletesOnEveryPath := by
  refine ⟨fun imm => ?_, fun s => ⟨dsRead s, rfl, ?_⟩⟩
  · rw [decode_append]
    exact formatN_eq imm .dsRead
  · obtain ⟨hseq, hdir, hlat, -, hdly⟩ := dsRead_sets s
    exact ⟨hseq, hdir, hlat, hdly, by simp [withRunOf]⟩

/-- Settles O37: the read ends in what the reset alone left, by `dsRead_sequence`. -/
theorem dsReadAbortsAtTheFirstReset : Obligations.DsReadAbortsAtTheFirstReset := by
  intro s r hr hp
  have hreset : r = respond (presResponse (owReset s).pres) (owReset s) :=
    (Host.Outcome.next.inj hr).symm
  obtain ⟨first, -, -⟩ := dsRead_sequence s
  subst hreset
  exact ⟨_, exec_dsRead_sentinel (first hp), rfl, rfl, rfl, rfl, rfl, by simp [withRunOf]⟩

/-! ### The second reset -/

/-- A device that answers the first reset and leaves the written slots of steps 2 and 3 alone; the
second reset then meets the environment `e`. -/
theorem secondReset_meets {s : State} {e : Env}
    (he : s.env = presenceAnswers (slotAnswers 0xCC#8 0xFF#8 (slotAnswers 0x44#8 0xFF#8 e))) :
    (owReset (atStep 1#4 s)).pres = .present ∧ (dsConvert (owReset (atStep 1#4 s))).env = e := by
  obtain ⟨hpres, henv⟩ := owReset_presence _ (s := atStep 1#4 s) he
  exact ⟨hpres, dsConvert_answers _ henv⟩

/-- Steps 1 to 5 touch none of the results of a read. -/
theorem afterSecondReset_keeps (s : State) :
    (afterSecondReset s).sp = s.sp ∧ (afterSecondReset s).crc = s.crc ∧
    (afterSecondReset s).crcok = s.crcok ∧ (afterSecondReset s).raw = s.raw := by
  simp [afterSecondReset, dsConvert_keeps, atStep]

/-- A second reset that finds no device ends the read if that is asked for, and nothing but `PRES`
and the response tells of it (R155). -/
theorem dsRead_second_abort {s : State} (h1 : (owReset (atStep 1#4 s)).pres = .present)
    (ha : s.params.rst2Abort = true) (h2 : (afterSecondReset s).pres ≠ .present) :
    (dsRead s).res = 0xFEEF#16 ∧ (dsRead s).pres = (afterSecondReset s).pres ∧
    (dsRead s).seq = 0#4 ∧ (dsRead s).sp = s.sp ∧ (dsRead s).crc = s.crc ∧
    (dsRead s).crcok = s.crcok ∧ (dsRead s).raw = s.raw ∧
    (dsRead s).env = (afterSecondReset s).env := by
  obtain ⟨-, hsecond, -⟩ := dsRead_paths s
  obtain ⟨hsp, hcrc, hcrcok, hraw⟩ := afterSecondReset_keeps s
  rw [hsecond h1 ha h2, ← afterSecondReset]
  generalize afterSecondReset s = u at *
  exact ⟨rfl, rfl, rfl, hsp, hcrc, hcrcok, hraw, rfl⟩

/-- If it is not asked for, the check decides, whatever the second reset found (R155, R156). -/
theorem dsRead_second_ignored {s : State} (h1 : (owReset (atStep 1#4 s)).pres = .present)
    (ha : s.params.rst2Abort = false) :
    ((afterCheck s).crcok = false → dsRead s = dsEnd Config.sentinel (afterCheck s)) ∧
    ((afterCheck s).crcok = true → dsRead s =
      dsEnd (celsius s.params.roundBias (decodeRaw (afterCheck s)).raw)
        (decodeRaw (afterCheck s))) := by
  obtain ⟨-, -, hend⟩ := dsRead_paths s
  obtain ⟨hfail, hpass⟩ := hend h1 (.inl ha)
  exact ⟨hfail, fun hc => by rw [hpass hc, decodeRaw_atStep, dsEnd_atStep]; rfl⟩

/-! ### A read that goes on after the second reset failed -/

/-- What the check meets on a line at one level from the second reset on. -/
theorem afterCheck_level {s : State} {v : Bool} (he : (afterSecondReset s).env = .level v) :
    Holds (afterCheck s).sp (List.replicate 9 (if v then 0xFF#8 else 0x00#8)) ∧
    (afterCheck s).raw = s.raw ∧
    (afterCheck s).crc = crcOf (List.replicate 8 (if v then 0xFF#8 else 0x00#8)) ∧
    (afterCheck s).crcok = (!v) ∧
    (afterCheck s).pres = (if v then .noDevice else .busError) := by
  obtain ⟨-, -, -, hraw⟩ := afterSecondReset_keeps s
  have h := dsTail_level he
  rwa [hraw] at h

/-- A line held low reads as nine zero bytes, which pass the check and decode to 0 (R245). -/
theorem dsRead_line_low {s : State} (h1 : (owReset (atStep 1#4 s)).pres = .present)
    (ha : s.params.rst2Abort = false) (he : (afterSecondReset s).env = .level false) :
    (dsRead s).pres = .busError ∧ (dsRead s).crcok = true ∧ (dsRead s).crc = 0x00#8 ∧
    (dsRead s).raw = 0#16 ∧ Holds (dsRead s).sp (List.replicate 9 0x00#8) ∧
    (s.params.roundBias = 15 → (dsRead s).res = 0#16) := by
  obtain ⟨-, hpass⟩ := dsRead_second_ignored h1 ha
  obtain ⟨hsp, -, hcrc, hcrcok, hpres⟩ := afterCheck_level he
  have hcrc0 : crcOf (List.replicate 8 0x00#8) = 0x00#8 := by decide +kernel
  rw [hpass hcrcok]
  generalize afterCheck s = u at *
  have hraw : decodeRaw u = { u with raw := 0#16 } :=
    decodeRaw_of_reads (hsp 0 (by decide)) (hsp 1 (by decide))
  have hzero : celsius 15 0#16 = 0 := by decide
  rw [hraw]
  refine ⟨hpres, hcrcok, hcrc.trans hcrc0, rfl, hsp, fun hb => ?_⟩
  rw [hb, hzero]
  rfl

/-- A line that nothing pulls low reads as nine bytes of ones, which fail the check (R245). -/
theorem dsRead_device_gone {s : State} (h1 : (owReset (atStep 1#4 s)).pres = .present)
    (ha : s.params.rst2Abort = false) (he : (afterSecondReset s).env = .level true) :
    (dsRead s).res = 0xFEEF#16 ∧ (dsRead s).pres = .noDevice ∧ (dsRead s).raw = s.raw ∧
    (dsRead s).crcok = false ∧ Holds (dsRead s).sp (List.replicate 9 0xFF#8) := by
  obtain ⟨hfail, -⟩ := dsRead_second_ignored h1 ha
  obtain ⟨hsp, hraw, -, hcrcok, hpres⟩ := afterCheck_level he
  rw [hfail hcrcok]
  generalize afterCheck s = u at *
  exact ⟨rfl, hpres, hraw, hcrcok, hsp⟩

/-- A device that missed the second reset alone has its nine bytes read, checked and decoded. -/
theorem dsRead_reset_missed {s : State} {m : List Byte} {c : Byte} {rest : Env}
    (h1 : (owReset (atStep 1#4 s)).pres = .present) (ha : s.params.rst2Abort = false)
    (hm : m.length = 8)
    (he : (afterSecondReset s).env = slotAnswers 0xCC#8 0xFF#8 (slotAnswers 0xBE#8 0xFF#8
      (readAnswers (m ++ [c]) (presenceAnswers rest)))) :
    Holds (dsRead s).sp (m ++ [c]) ∧ (dsRead s).env = rest ∧ (dsRead s).pres = .present ∧
    (dsRead s).crc = crcOf m ∧ (dsRead s).crcok = decide (crcOf m = c) ∧
    (crcOf m ≠ c → (dsRead s).res = 0xFEEF#16 ∧ (dsRead s).raw = s.raw) ∧
    (crcOf m = c → ∀ lo hi, m[0]? = some lo → m[1]? = some hi → (dsRead s).raw = hi ++ lo) := by
  obtain ⟨hfail, hpass⟩ := dsRead_second_ignored h1 ha
  obtain ⟨-, -, -, hraw2⟩ := afterSecondReset_keeps s
  have htail := dsTail_answers hm he
  rw [hraw2, ← afterCheck] at htail
  obtain ⟨hsp, hcrc, hcrcok, hraw, henv, hpres⟩ := htail
  generalize afterCheck s = u at *
  by_cases hc : crcOf m = c
  · rw [hpass (hcrcok.trans (decide_eq_true hc))]
    refine ⟨hsp, henv, hpres, hcrc, hcrcok, fun hne => absurd hc hne, fun _ lo hi hlo hhi => ?_⟩
    have h0 : readByte u.sp 0 = some lo := by
      rw [hsp 0 (by simp), List.getElem?_append_left (by omega), hlo]
    have h1 : readByte u.sp 1 = some hi := by
      rw [hsp 1 (by simp [hm]), List.getElem?_append_left (by omega), hhi]
    rw [decodeRaw_of_reads h0 h1]
    rfl
  · rw [hfail (hcrcok.trans (decide_eq_false hc))]
    exact ⟨hsp, henv, hpres, hcrc, hcrcok, fun _ => ⟨rfl, hraw⟩, fun heq => absurd heq hc⟩

/-- Settles O40: what the second reset finds, by the environment it meets; then the two settings. -/
theorem secondResetEndsTheReadOnlyIfAsked : Obligations.SecondResetEndsTheReadOnlyIfAsked := by
  refine ⟨fun s he => ?_, fun s rest he => ?_, fun s he => ?_⟩ <;>
    obtain ⟨hfirst, hmeets⟩ := secondReset_meets he
  · obtain ⟨hpres, henv⟩ := owReset_level_low hmeets
    rw [← afterSecondReset] at hpres henv
    refine ⟨fun ha => ⟨dsRead s, rfl, ?_⟩,
      fun ha => ⟨dsRead s, rfl, dsRead_line_low hfirst ha henv⟩⟩
    have h := dsRead_second_abort hfirst ha (by rw [hpres]; decide)
    rw [hpres] at h
    obtain ⟨hres, hp, hseq, hsp, hcrc, hcrcok, hraw, -⟩ := h
    exact ⟨hres, hp, hseq, hsp, hcrc, hcrcok, hraw⟩
  · obtain ⟨hpres, henv⟩ := owReset_absence rest hmeets
    rw [← afterSecondReset] at hpres henv
    refine ⟨fun ha => ⟨dsRead s, rfl, ?_⟩, fun ha m c rest' hm hrest =>
      ⟨dsRead s, rfl, dsRead_reset_missed hfirst ha hm (henv.trans hrest)⟩⟩
    have h := dsRead_second_abort hfirst ha (by rw [hpres]; decide)
    rwa [hpres, henv] at h
  · obtain ⟨hpres, henv⟩ := owReset_level_high hmeets
    rw [← afterSecondReset] at hpres henv
    refine ⟨dsRead s, rfl, ?_⟩
    cases ha : s.params.rst2Abort with
    | true =>
      obtain ⟨hres, hp, -, hsp, -, hcrcok, hraw, -⟩ :=
        dsRead_second_abort hfirst ha (by rw [hpres]; decide)
      exact ⟨hres, hp.trans hpres, hraw, fun _ => ⟨hsp, hcrcok⟩, fun h => nomatch h⟩
    | false =>
      obtain ⟨hres, hp, hraw, hcrcok, hsp⟩ := dsRead_device_gone hfirst ha henv
      exact ⟨hres, hp, hraw, (fun h => nomatch h), fun _ => ⟨hcrcok, hsp⟩⟩

end Sys2Proof.Machine
end

section
/-! SUPPORT. The commands of the serial transmitter: the initialisation, one frame, the decimal text
(44_serial.md R171 to R179). -/

namespace Sys2Proof.Machine

/-! ### Initialisation -/

/-- What `TX_INIT` runs and answers (R172). -/
theorem exec_txInit (s : State) : exec .txInit s = .next (respond 0#16 (txInit s)) := rfl

/-- Settles O41: the event by `txInit_trace`, the rest by `txInit_sets` and `txInit_keeps`. -/
theorem txInitSetsTheLineOnce : Obligations.TxInitSetsTheLineOnce := by
  refine ⟨fun imm => ?_, fun s hs => ?_, fun s hs => ⟨_, exec_txInit s, ?_⟩⟩
  · rw [decode_append]
    exact formatN_eq imm .txInit
  · rw [exec_txInit, txInit_again hs]
    rfl
  · obtain ⟨hinit, hdir, hlat⟩ := txInit_sets s
    simp only [hs, Bool.false_eq_true, if_false] at hdir hlat
    refine ⟨hlat, hdir, hinit, rfl, ?_, by simp⟩
    simpa [hs] using txInit_trace s

/-! ### One frame -/

/-- What `TX_BYTE` runs and answers (R175). -/
theorem exec_txByte (d : Byte) (s : State) :
    exec (.txByte d) s = .next (respond 0#16 (txByte d s)) := rfl

/-- Settles O42: the end values by `txByte_sets`, the masking by `txByte_ports`, the frame by
`txByte_keeps`. -/
theorem txByteSendsOneMaskedFrame : Obligations.TxByteSendsOneMaskedFrame := by
  refine ⟨fun imm => ?_, fun d s => ⟨_, exec_txByte d s, ?_⟩⟩
  · rw [decode_append]
    exact formatB8_eq imm .txByte
  · obtain ⟨hlat, hsr, hbitcnt, -, hinit, hdly, hdir⟩ := txByte_sets d s
    simp only [respond_keeps, respond_res]
    exact ⟨trivial, hinit, hlat, hdir, hsr, hbitcnt, hdly, txByte_now_le d s,
      fun hie => txByte_now hie d, txByte_ports d s, by simp [withRunOf]⟩

/-- Settles O44: on an input pin a frame records nothing, and an initialised transmitter leaves the
direction alone. -/
theorem releasedTransmitterIsSilent : Obligations.ReleasedTransmitterIsSilent := by
  intro d s hinit hdir
  refine ⟨_, exec_txByte d s, ?_, by simp [hinit, hdir]⟩
  simpa using txByte_silent d hinit hdir

/-! ### The decimal text -/

/-- `TX_DEC` sends its text byte by byte and answers its length (R178). -/
theorem exec_txDec (w : Half) (s : State) :
    exec (.txDec w) s = .next
      (respond (BitVec.ofNat 16 (decimalText s.params.decCrlf w).length)
        (atDec 9#4 (fillDec w s).decbuf
          ((decimalText s.params.decCrlf w).foldl (fun u c => txByte c u) s))) := by
  obtain ⟨hcount, hsent⟩ := txDec_sends w s
  rw [← hsent, ← hcount]
  rfl

/-- Frames write neither the response nor the decimal helper's own registers (R174). -/
theorem txBytes_keeps (text : List Byte) (s : State) :
    (text.foldl (fun u c => txByte c u) s).res = s.res ∧
    (text.foldl (fun u c => txByte c u) s).decptr = s.decptr ∧
    (text.foldl (fun u c => txByte c u) s).decbuf = s.decbuf := by
  induction text generalizing s with
  | nil => exact ⟨rfl, rfl, rfl⟩
  | cons c text ih => simpa using ih (txByte c s)

/-- Settles O45: the text by `exec_txDec`, what `DECBUF` holds by `fillDec_filled`. -/
theorem txDecSendsTheDecimalText : Obligations.TxDecSendsTheDecimalText := by
  refine ⟨exec_txByte, fun imm => ?_, fun w s => ⟨_, exec_txDec w s, rfl, rfl, ?_, ?_⟩⟩
  · rw [decode_append]
    rfl
  · obtain ⟨hres, hptr, hbuf⟩ := txBytes_keeps (decimalText s.params.decCrlf w) s
    generalize (decimalText s.params.decCrlf w).foldl (fun u c => txByte c u) s = u at *
    rw [← hres, ← hptr, ← hbuf]
    rfl
  · obtain ⟨⟨-, -, hreads, hrest⟩, -, -⟩ := fillDec_filled w s
    exact ⟨hreads, hrest⟩

/-- Settles O46: the end values and the time by `txBytes_sets`, the frame by `sendDec_keeps` and
`fillDec_keeps`. -/
theorem txDecFrame : Obligations.TxDecFrame := by
  intro w s
  obtain ⟨-, hpos, hle⟩ := fillDec_filled w s
  obtain ⟨hlat, hinit, hkeep, -, hnow, hexact⟩ :=
    txBytes_sets (decimalText s.params.decCrlf w) s (List.ne_nil_of_length_pos hpos)
  have hres : (BitVec.ofNat 16 (decimalText s.params.decCrlf w).length).toNat =
      (decimalText s.params.decCrlf w).length := Nat.mod_eq_of_lt (by omega)
  have hsent := (txDec_sends w s).2
  refine ⟨_, exec_txDec w s, ?_⟩
  rw [respond_res, hres]
  generalize (decimalText s.params.decCrlf w).foldl (fun u c => txByte c u) s = u at *
  refine ⟨hpos, hle, hnow, hexact, hinit, hlat, ?_⟩
  have hie : (sendDec (decCount (fillDec w s)) (fillDec w s)).ie = s.ie := by
    rw [hsent]
    exact hkeep
  rw [← hsent]
  simp [withRunOf, hie]

end Sys2Proof.Machine
end

section
/-! SUPPORT. The system commands: an answer of zero, the read of a numbered register, the flag `IE`
with its old value (45_system.md R191 to R193, 10_state.md R36). -/

namespace Sys2Proof.Machine

/-! ### `NOP` -/

/-- Settles O10: `respond 0` is all that `NOP` does. -/
theorem nopOnlyAnswersZero : Obligations.NopOnlyAnswersZero := by
  refine ⟨fun imm => ?_, fun s => rfl⟩
  rw [decode_append]
  exact formatN_eq imm .nop

/-! ### `GET_REG` -/

/-- A format with a register number allows no bit above it (R81). -/
theorem formatR_eq (m : Half) (f : Reg → Instr) :
    formatR m f =
      if m &&& 0xFFF8#16 = 0#16 then .ok (f (regOfNum (m.extractLsb' 0 3)))
      else .malformed .reservedBits := by
  rw [formatR, unlessReserved]

/-- `GET_REG` answers what its register reads as before the command, and writes `RES` alone (R192). -/
theorem exec_getReg_of_reads {r : Reg} {s : State} {v : Half} (h : readReg r s = v) :
    exec (.getReg r) s = .next { s with res := v } := by
  subst h
  rfl

/-- Between commands the step counter reads 0 (R34). -/
theorem readReg_seq_of_inv {s : State} (h : Inv s) : readReg .seq s = 0#16 := by
  rw [readReg, h.stepCounter]
  rfl

/-- Settles O11: the numbers by enumeration of the three-bit field, the narrow registers by the
zero-extension that `byteResponse_eq` states. -/
theorem getRegAnswersTheNumberedRegister : Obligations.GetRegAnswersTheNumberedRegister := by
  refine ⟨fun imm => ?_, fun s hs => ⟨_, exec_getReg_of_reads (readReg_seq_of_inv hs), rfl⟩,
    fun s => ⟨rfl, rfl, exec_getReg_of_reads ?_, exec_getReg_of_reads (byteResponse_eq s.crc), rfl,
      exec_getReg_of_reads (byteResponse_eq s.sr), exec_getReg_of_reads (byteResponse_eq s.rx),
      exec_getReg_of_reads (BitVec.setWidth_eq_append (by decide)).symm⟩⟩
  · rw [decode_append]
    refine (formatR_eq imm .getReg).trans
      (if_congr Iff.rfl (congrArg (fun r => Decoded.ok (.getReg r)) ?_) rfl)
    generalize imm.extractLsb' 0 3 = r
    revert r
    decide
  · rw [readReg]
    cases s.pres <;> rfl

/-! ### `SET_IE` -/

/-- What `SET_IE` runs and answers (R193). -/
theorem exec_setIe (b : Bool) (s : State) :
    exec (.setIe b) s = .next (respond (bitResponse s.ie) (writeIe b s)) := rfl

/-- Settles O13: the flag by `writeIe_ie`, the frame by `writeIe_keeps`. -/
theorem setIeWritesTheFlagAndAnswersTheOldOne :
    Obligations.SetIeWritesTheFlagAndAnswersTheOldOne := by
  refine ⟨fun imm => ?_, fun b s => ⟨_, exec_setIe b s, writeIe_ie b s, rfl, ?_⟩⟩
  · rw [decode_append]
    exact formatB1_eq imm .setIe
  · simp

end Sys2Proof.Machine
end

section
/-! SUPPORT. How a command can end: every one in a next state but for the four reads that have no
value, and every one but `SET_IE` with `IE` as before (60_exceptions.md R200, R205, 10_state.md R42,
20_memory.md R73). -/

namespace Sys2Proof.Machine

/-! ### The reads that can stop -/

/-- `LD_READ` ends in a next state, or stops at `OW` driven high (R73). -/
theorem exec_ldRead_cases (p : Pin) (s : State) :
    (∃ t, exec (.ldRead p) s = .next t) ∨
    (p = .ow ∧ s.dirOw = true ∧ s.latOw = true ∧ exec (.ldRead p) s = .fault .contention) := by
  cases hc : contended p s with
  | false => exact .inl ⟨_, exec_ldRead_sampled hc⟩
  | true =>
    cases p with
    | tx => exact nomatch hc
    | ow =>
      obtain ⟨hd, hl⟩ := driven_high_of_contended hc
      exact .inr ⟨rfl, hd, hl, exec_ldRead_contended hc⟩

/-- `CRC_CHK` ends in a next state, or stops at one of the nine bytes that holds no value (R42). -/
theorem exec_crcChk_cases (s : State) :
    (∃ t, exec .crcChk s = .next t) ∨
    ∃ j, j ≤ 8 ∧ readByte s.sp j = none ∧ exec .crcChk s = .fault (.unwrittenByte j) := by
  cases h : firstUnwritten s.sp (List.range Config.spLen) with
  | none =>
    have hw := (firstUnwritten_none _ _).mp h
    exact .inl ⟨_, exec_crcChk_written fun i hi => hw i (List.mem_range.mpr hi)⟩
  | some j =>
    obtain ⟨hj, hnone⟩ := firstUnwritten_some h
    exact .inr ⟨j, Nat.le_of_lt_succ (List.mem_range.mp hj), hnone, exec_crcChk_unwritten h⟩

/-- `DS_DECODE` ends in a next state, or stops at one of its two bytes that holds no value (R42). -/
theorem exec_dsDecode_cases (s : State) :
    (∃ t, exec .dsDecode s = .next t) ∨
    ∃ j, j ≤ 1 ∧ readByte s.sp j = none ∧ exec .dsDecode s = .fault (.unwrittenByte j) := by
  cases h : firstUnwritten s.sp (List.range 2) with
  | none =>
    have hw := (firstUnwritten_none _ _).mp h
    exact .inl ⟨_, exec_dsDecode_of_written fun i hi => hw i (List.mem_range.mpr hi)⟩
  | some j =>
    obtain ⟨hj, hnone⟩ := firstUnwritten_some h
    exact .inr ⟨j, Nat.le_of_lt_succ (List.mem_range.mp hj), hnone, exec_dsDecode_unwritten h⟩

/-- `SP_RD` ends in a next state, or stops at its byte, which holds no value (R42). -/
theorem exec_spRd_cases (k : BitVec 4) (s : State) :
    (∃ t, exec (.spRd k) s = .next t) ∨
    (k.toNat ≤ 8 ∧ readByte s.sp k.toNat = none ∧
      exec (.spRd k) s = .fault (.unwrittenByte k.toNat)) := by
  rcases Nat.lt_or_ge 8 k.toNat with hk | hk
  · exact .inl ⟨_, exec_spRd_malformed hk s⟩
  · cases hd : readByte s.sp k.toNat with
    | some d => exact .inl ⟨_, exec_spRd_written hk hd⟩
    | none => exact .inr ⟨hk, rfl, exec_spRd_unwritten hk hd⟩

/-- `SP_WR` ends in a next state whatever its index is (R92, R160). -/
theorem exec_spWr_ends (k : BitVec 4) (d : Byte) (s : State) :
    ∃ t, exec (.spWr k d) s = .next t := by
  rcases Nat.lt_or_ge 8 k.toNat with hk | hk
  · exact ⟨_, exec_spWr_malformed hk d s⟩
  · exact ⟨_, exec_spWr hk d s⟩

/-- Settles O47: the four reads by their cases; every other command is a next state by definition,
`SP_WR` on both sides of its index check. -/
theorem commandsStopOnlyWhereAReadHasNoValue :
    Obligations.CommandsStopOnlyWhereAReadHasNoValue := by
  intro i s
  cases i with
  | spRd k =>
    rcases exec_spRd_cases k s with hnext | hstop
    · exact .inl hnext
    · exact .inr (.inl ⟨k, rfl, hstop⟩)
  | crcChk =>
    rcases exec_crcChk_cases s with hnext | hstop
    · exact .inl hnext
    · exact .inr (.inr (.inl ⟨rfl, hstop⟩))
  | dsDecode =>
    rcases exec_dsDecode_cases s with hnext | hstop
    · exact .inl hnext
    · exact .inr (.inr (.inr (.inl ⟨rfl, hstop⟩)))
  | ldRead p =>
    rcases exec_ldRead_cases p s with hnext | ⟨rfl, hstop⟩
    · exact .inl hnext
    · exact .inr (.inr (.inr (.inr ⟨rfl, hstop⟩)))
  | spWr k d => exact .inl (exec_spWr_ends k d s)
  | _ => exact .inl ⟨_, rfl⟩

/-! ### The flag `IE` -/

/-- The send loop leaves `IE` as each of its frames does (R174, R205). -/
@[simp] theorem sendDec_ie (n : Nat) (s : State) : (sendDec n s).ie = s.ie := by
  induction n generalizing s with
  | zero => rfl
  | succ n ih =>
    rw [sendDec]
    split
    · simp [ih]
    · rfl

/-- Every command but `SET_IE` leaves `IE` as it was (R205). -/
theorem execState_ie {i : Instr} (hi : ∀ b, i ≠ .setIe b) (s : State) :
    (execState i s).ie = s.ie := by
  cases i with
  | setIe b => exact absurd rfl (hi b)
  | spWr k d => cases hk : indexOk k <;> simp [execState, hk]
  | spRd k => cases hk : indexOk k <;> simp [execState, hk]
  | _ => simp [execState]

/-- Settles O48: each procedure restores `IE` by its own law, `owReset_sets` to `sendDec_ie`. -/
theorem everyCommandRestoresInterruptEnable : Obligations.EveryCommandRestoresInterruptEnable := by
  intro i s t ht hi
  rw [exec_next ht]
  exact execState_ie hi s

end Sys2Proof.Machine
end

section
/-! SUPPORT. What a reset leaves, at power-up, between commands and inside an operation (10_state.md
R41, R42, 70_reset_and_hazards.md R230, R231). -/

namespace Sys2Proof.Machine

/-! ### The registers -/

/-- A reset gives every register its value, whatever the state it falls in. -/
theorem resetNow_values (s : State) : ResetValues (resetNow s) := by
  constructor <;> intros <;> rfl

/-- The state at power-up is that state reset. -/
theorem resetNow_reset : resetNow State.reset = State.reset := rfl

/-- A pin is released exactly when it is an input (R23). -/
theorem out_eq_z_iff (s : State) (p : Pin) : s.out p = .z ↔ s.dir p = false := by
  cases hd : s.dir p <;> cases hl : s.lat p <;> simp [State.out, outOf, hd, hl]

/-- At the reset values both pins are released (R23). -/
theorem ResetValues.out {s : State} (h : ResetValues s) (p : Pin) : s.out p = .z := by
  rw [out_eq_z_iff]
  cases p with
  | ow => exact h.dirOw
  | tx => exact h.dirTx

/-! ### A reset between commands -/

/-- A reset that falls at or before the next acceptance comes first (log entry 12). -/
theorem plan_of_reset {s : State} {u : Nat} {us : List Nat} (hr : s.resets = u :: us)
    (ho : ∀ o ∈ s.offers.head?, u ≤ acceptInstant o s) : plan s = .reset u us := by
  cases h : s.offers with
  | nil => simp [plan, planReset, h, hr]
  | cons o os =>
    have hu : u ≤ acceptInstant o s := ho o (by simp [h])
    simp [plan, planReset, h, hr, hu]

theorem step_of_reset {s : State} {u : Nat} {us : List Nat} (h : plan s = .reset u us) :
    step s = .next (idleReset u us s) := by
  rw [step, h]

/-- The releases of a reset are those of the pins that are outputs (R231; log entry 20). -/
theorem releases_eq (s : State) :
    releases s = (if s.dirOw then [.pin s.now .ow .z] else []) ++
      (if s.dirTx then [.pin s.now .tx .z] else []) := by
  simp only [releases, out_eq_z_iff, State.dir]
  cases s.dirOw <;> cases s.dirTx <;> rfl

/-- Settles O8: power-up is a reset of its own, and a reset that precedes the next acceptance is the
step. -/
theorem resetGivesEveryRegisterItsValue : Obligations.ResetGivesEveryRegisterItsValue := by
  refine ⟨resetNow_reset ▸ resetNow_values State.reset, fun s u us hr ho => ?_⟩
  refine ⟨idleReset u us s, step_of_reset (plan_of_reset hr ho), resetNow_values _,
    rfl, rfl, rfl, rfl, ?_⟩
  exact congrArg (s.trace ++ ·) (releases_eq { s with now := max s.now u, resets := us })

/-! ### A reset inside an operation -/

/-- An operation that would end after the next reset is lost to it (R231). -/
theorem settle_of_reset (s : State) {t : State} {u : Nat} {us : List Nat} (hr : t.resets = u :: us)
    (hu : u < t.now) : settle s t = resetNow { cutAt u s t with resets := us } := by
  simp only [settle, hr, if_pos hu]

/-- A reset inside an operation shows what the operation showed before it, then its releases. -/
theorem newTrace_resetNow_cutAt (u : Nat) (us : List Nat) (s t : State) :
    newTrace s (resetNow { cutAt u s t with resets := us }) =
      (newTrace s t).filter (fun e => decide (e.time < u)) ++
        releases { cutAt u s t with resets := us } := by
  have htrace : (resetNow { cutAt u s t with resets := us }).trace =
      s.trace ++ ((newTrace s t).filter (fun e => decide (e.time < u)) ++
        releases { cutAt u s t with resets := us }) := List.append_assoc _ _ _
  rw [newTrace, htrace, List.drop_left]

/-- What was shown before the operation stays shown. -/
theorem trace_prefix_resetNow_cutAt (u : Nat) (us : List Nat) (s t : State) :
    s.trace <+: (resetNow { cutAt u s t with resets := us }).trace :=
  (List.prefix_append _ _).trans (List.prefix_append _ _)

/-! ### No response -/

/-- A command records no response; the end of its operation does (R21). -/
theorem Progress.rsp_mem {L : Pin → Prop} {s t : State} (h : Progress L s t) {n : Nat} {v : Half}
    (hm : PortEvent.rsp n v ∈ t.ports) : PortEvent.rsp n v ∈ s.ports := by
  obtain ⟨ps, hports, -, honlyIe, -⟩ := h.ports
  rw [hports] at hm
  rcases List.mem_append.mp hm with hs | hps
  · exact hs
  · obtain ⟨-, -, m, b, hie⟩ := honlyIe _ hps
    exact nomatch hie

theorem accept_rsp_mem {o : Offer} {rest : List Offer} {s : State} {n : Nat} {v : Half}
    (hm : PortEvent.rsp n v ∈ (accept o rest s).ports) : PortEvent.rsp n v ∈ s.ports := by
  simpa [accept] using hm

theorem resetNow_rsp_mem {s : State} {n : Nat} {v : Half}
    (hm : PortEvent.rsp n v ∈ (resetNow s).ports) : PortEvent.rsp n v ∈ s.ports := by
  rcases List.mem_append.mp hm with hs | hreset
  · exact hs
  · cases hi : s.ie <;> cases hb : s.busy <;> simp [resetPorts, hi, hb] at hreset

/-- The record of an operation cut short holds what stood before it and what it showed. -/
theorem cutAt_ports_mem {u : Nat} {s t : State} {e : PortEvent} (hm : e ∈ (cutAt u s t).ports) :
    e ∈ s.ports ∨ e ∈ t.ports :=
  (List.mem_append.mp hm).imp_right fun h => List.mem_of_mem_drop (List.mem_of_mem_filter h)

/-- Settles O9: the step is the operation cut at `u` and reset there. -/
theorem resetInsideAnOperationAbandonsIt : Obligations.ResetInsideAnOperationAbandonsIt := by
  intro s t o rest u us i ho hr hb hd ht hlo hhi
  obtain ⟨-, -, -, hoffers, hresets, hparams⟩ := exec_keeps ht
  have hplan : plan s = .command o rest :=
    plan_of_offer ho hb (by simpa [hr, acceptInstant] using hlo)
  have hsettle := settle_of_reset (accept o rest s) (hresets.trans hr) hhi
  have hstep := (step_command_next hplan ((runLatched_accept hd rest s).trans ht)).trans
    (congrArg _ hsettle)
  have hvalues := resetNow_values { cutAt u (accept o rest s) t with resets := us }
  have hnew := newTrace_resetNow_cutAt u us (accept o rest s) t
  refine ⟨_, hstep, hvalues, rfl, hvalues.out .ow, hvalues.out .tx, hoffers, rfl, hparams,
    fun n v hm => ?_, trace_prefix_resetNow_cutAt u us (accept o rest s) t, fun e he => ?_,
    fun e he hu => ?_⟩
  · rcases cutAt_ports_mem (resetNow_rsp_mem hm) with haccept | hrun
    · exact accept_rsp_mem haccept
    · exact accept_rsp_mem ((exec_progress ht).rsp_mem hrun)
  · rcases List.mem_append.mp (hnew ▸ he) with hshown | hrelease
    · exact (of_decide_eq_true (List.mem_filter.mp hshown).2).le
    · exact (releases_time _ e hrelease).le
  · have hshown : e ∈ (newTrace (accept o rest s) t).filter (fun e => decide (e.time < u)) :=
      List.mem_filter.mpr ⟨he, decide_eq_true hu⟩
    exact hnew ▸ List.mem_append_left _ hshown

end Sys2Proof.Machine
end

section
/-! SUPPORT. A command of one line beside the other line: what it leaves of that line's registers, and
whose entries it records (41_onewire.md sections 1 to 3, 44_serial.md section 4). -/

namespace Sys2Proof.Machine

/-- A stretch of a run on the pin `p` alone records entries of `p` alone. -/
theorem Progress.newTrace_on {L : Pin → Prop} {p : Pin} {s t : State} (h : Progress L s t)
    (hL : ∀ q, L q → q = p) : ∀ e ∈ newTrace s t, e.on p = true := by
  obtain ⟨es, hes, -, hon, -⟩ := h.trace
  have hnew : newTrace s t = es := by rw [newTrace, hes, List.drop_left]
  intro e he
  obtain ⟨-, -, q, hq, heq⟩ := hon e (hnew ▸ he)
  exact hL q hq ▸ heq

/-- A sample of `TX` takes no answer of the environment of `OW` (R62). -/
theorem sample_tx_env (s : State) : (sample .tx s).2.env = s.env := by
  cases hd : s.dir .tx <;> simp [sample, envAnswer, hd]

/-- A command that does not work on `TX` leaves the registers of the serial line alone. -/
theorem execState_keeps_tx {i : Instr} (h : ¬ pinsOf i .tx) (s : State) :
    (execState i s).dirTx = s.dirTx ∧ (execState i s).latTx = s.latTx ∧
    (execState i s).serInit = s.serInit := by
  cases i with
  | txInit => exact absurd onTx h
  | txByte d => exact absurd onTx h
  | txDec w => exact absurd onTx h
  | ldDir p v =>
    cases p with
    | ow => simp [execState]
    | tx => exact absurd rfl h
  | ldWrite p v =>
    cases p with
    | ow => simp [execState]
    | tx => exact absurd rfl h
  | spWr k d => cases hk : indexOk k <;> simp [execState, hk]
  | spRd k => cases hk : indexOk k <;> simp [execState, hk]
  | _ => simp [execState]

/-- A command that does not work on `OW` leaves the registers and the environment of the 1-Wire line
alone. -/
theorem execState_keeps_ow {i : Instr} (h : ¬ pinsOf i .ow) (s : State) :
    (execState i s).dirOw = s.dirOw ∧ (execState i s).latOw = s.latOw ∧
    (execState i s).env = s.env := by
  cases i with
  | owReset => exact absurd onOw h
  | owBit b => exact absurd onOw h
  | owByte d => exact absurd onOw h
  | dsRead => exact absurd onOw h
  | ldDir p v =>
    cases p with
    | ow => exact absurd rfl h
    | tx => simp [execState]
  | ldWrite p v =>
    cases p with
    | ow => exact absurd rfl h
    | tx => simp [execState]
  | ldRead p =>
    cases p with
    | ow => exact absurd rfl h
    | tx => simp [execState, sample_tx_env]
  | spWr k d => cases hk : indexOk k <;> simp [execState, hk]
  | spRd k => cases hk : indexOk k <;> simp [execState, hk]
  | _ => simp [execState]

/-- Settles O51: the commands named have `pinsOf` their own pin alone; the registers of the other line
by `execState_keeps_tx` and `execState_keeps_ow`, the entries by `exec_progress`. -/
theorem theTwoLinesAreIndependent : Obligations.TheTwoLinesAreIndependent := by
  intro i s t ht
  have run := exec_progress ht
  rw [exec_next ht] at run ⊢
  refine ⟨fun hi => ?_, fun hi => ?_⟩
  · have hpins : pinsOf i = OnOw := by rcases hi with rfl | ⟨b, rfl⟩ | ⟨d, rfl⟩ | rfl <;> rfl
    obtain ⟨hdir, hlat, hinit⟩ := execState_keeps_tx (i := i) (hpins ▸ nofun) s
    exact ⟨hdir, hlat, hinit, (hpins ▸ run).newTrace_on fun _ => id⟩
  · have hpins : pinsOf i = OnTx := by rcases hi with rfl | ⟨d, rfl⟩ | ⟨w, rfl⟩ <;> rfl
    obtain ⟨hdir, hlat, henv⟩ := execState_keeps_ow (i := i) (hpins ▸ nofun) s
    exact ⟨hdir, hlat, henv, (hpins ▸ run).newTrace_on fun _ => id⟩

end Sys2Proof.Machine
end
